-- ==== Sys2Proof/Word.lean ====
section
/-! DEFINITION. The word types of the bring-up block: register-interface words are 32 bits (rule R9),
micro-op words 72 bits and command words 36 bits (rule R100), ROM addresses 5 bits (rule R61). -/

namespace Sys2Proof

/-- A register-interface value, an operand or a response: 32 bits, unsigned (rule R9). -/
abbrev Word := BitVec 32

/-- A micro-op word, `UOP_WIDTH` bits (rules R61, R100). -/
abbrev UopWord := BitVec 72

/-- A command word, `CMD_WIDTH` bits (rules R100, R102). -/
abbrev CmdWord := BitVec 36

/-- A ROM word address, `upc` (rules R23, R61). -/
abbrev RomAddr := BitVec 5

/-- A micro-op opcode, a command op code or a register id: 4 bits (rules R101, R102). -/
abbrev Nibble := BitVec 4

end Sys2Proof
end

