-- ==== Sys2Proof/Syntax.lean ====
section
/-! DEFINITION. The instructions: the five micro-ops of SEQ and the three host commands, one constructor per
row of the opcode table, and the twelve register ids their operands name (rules R103, R104, R105). -/

namespace Sys2Proof

/-- The twelve registers of the register interface, in the order of their ids 0 to 11 (rules R28, R104). -/
inductive RegId where
  | pwrCr | rccCr | rccPllcfgr | rccCfgr | rccAhb1enr | flashAcr
  | dbgApb1fz | timCr1 | timEgr | timCnt | timPsc | vtor
  deriving DecidableEq, Repr

/-- One constructor per row of the opcode table. Operands that an encoding forces to zero are not written
(rule R114); the ignored argument of INIT and CPUF is kept, since acceptance records it (rule R225). -/
inductive Instr where
  /-- `RMW reg, a, b` (rule R131). -/
  | rmw (reg : RegId) (a b : Word)
  /-- `WR reg, b` (rule R132). -/
  | wr (reg : RegId) (b : Word)
  /-- `POLLEQ reg, a, b` (rule R133). -/
  | pollEq (reg : RegId) (a b : Word)
  /-- `POLLGE reg` (rule R134). -/
  | pollGe (reg : RegId)
  /-- `END` (rule R135). -/
  | endProg
  /-- `INIT`, argument ignored (rule R221). -/
  | init (arg : Word)
  /-- `DELAY n` (rule R222). -/
  | delay (arg : Word)
  /-- `CPUF`, argument ignored (rule R223). -/
  | cpuf (arg : Word)
  deriving DecidableEq, Repr

end Sys2Proof
end

