-- ==== Sys2Proof/WellFormed.lean ====
section
/-! DEFINITION. When an instruction is well formed (rule R107): the operand constraints that its syntax does
not already enforce. -/

namespace Sys2Proof

/-- Rule R107: RMW and WR do not name `TIM_CNT`; a value has no bit outside its mask; POLLGE names only
`TIM_CNT`. The opcodes, the register ids 0xC to 0xF and the operands forced to zero cannot be written in the
syntax and are rejected by the decoder. -/
def Instr.wf : Instr → Bool
  | .rmw reg a b => decide (reg ≠ .timCnt) && decide (b &&& ~~~a = 0)
  | .wr reg _ => decide (reg ≠ .timCnt)
  | .pollEq _ a b => decide (b &&& ~~~a = 0)
  | .pollGe reg => decide (reg = .timCnt)
  | .endProg => true
  | .init _ => true
  | .delay _ => true
  | .cpuf _ => true

end Sys2Proof
end

