-- ==== Sys2Proof/Decode.lean ====
section
/-! DEFINITION. Encodings (rules R100 to R108): decoding of the two word formats, total and rejecting by
name, then the encoder. -/

namespace Sys2Proof

/-- A word of one of the two fixed-length formats (rule R100). -/
inductive InstrWord where
  /-- A micro-op word, format `U` (rule R101). -/
  | uop (w : UopWord)
  /-- A command word, format `C` (rule R102). -/
  | cmd (w : CmdWord)
  deriving DecidableEq, Repr

/-- Why a word is no instruction (rules R107, R108). -/
inductive DecodeError where
  /-- `opc` is 0x0 or 0x5 to 0xE. -/
  | illegalOpcode
  /-- The register id is 0xC to 0xF. -/
  | reservedRegister
  /-- RMW or POLLEQ with a value bit outside the mask. -/
  | valueOutsideMask
  /-- RMW or WR naming `TIM_CNT`. -/
  | writesCounter
  /-- WR or POLLGE with a nonzero `a` or END with any operand bit, POLLGE with a nonzero `b`. -/
  | operandNotZero
  /-- POLLGE of a register other than `TIM_CNT`. -/
  | notTheCounter
  /-- Command op 0x0 or 0x4 to 0xF. -/
  | reservedCommand
  deriving DecidableEq, Repr

/-- The register id of a register (rule R104). -/
def RegId.code : RegId → Nibble
  | .pwrCr => 0x0#4 | .rccCr => 0x1#4 | .rccPllcfgr => 0x2#4 | .rccCfgr => 0x3#4
  | .rccAhb1enr => 0x4#4 | .flashAcr => 0x5#4 | .dbgApb1fz => 0x6#4 | .timCr1 => 0x7#4
  | .timEgr => 0x8#4 | .timCnt => 0x9#4 | .timPsc => 0xA#4 | .vtor => 0xB#4

/-- The register a register id selects; ids 0xC to 0xF are reserved (rules R104, R108). -/
def RegId.ofCode (n : Nibble) : Option RegId :=
  match n.toNat with
  | 0 => some .pwrCr | 1 => some .rccCr | 2 => some .rccPllcfgr | 3 => some .rccCfgr
  | 4 => some .rccAhb1enr | 5 => some .flashAcr | 6 => some .dbgApb1fz | 7 => some .timCr1
  | 8 => some .timEgr | 9 => some .timCnt | 10 => some .timPsc | 11 => some .vtor
  | _ => none

/-- Micro-op opcodes (rule R103). -/
def opcRmw : Nibble := 0x1#4
/-- Opcode of WR (rule R103). -/
def opcWr : Nibble := 0x2#4
/-- Opcode of POLLEQ (rule R103). -/
def opcPollEq : Nibble := 0x3#4
/-- Opcode of POLLGE (rule R103). -/
def opcPollGe : Nibble := 0x4#4
/-- Opcode of END (rule R103). -/
def opcEnd : Nibble := 0xF#4

/-- Command op codes (rule R105). -/
def opInit : Nibble := 0x1#4
/-- Op code of DELAY (rule R105). -/
def opDelay : Nibble := 0x2#4
/-- Op code of CPUF (rule R105). -/
def opCpuf : Nibble := 0x3#4

/-- The fields of the micro-op format (rule R101). -/
def uopOpc (w : UopWord) : Nibble := w.extractLsb' 68 4
/-- Bits [67:64] of a micro-op word (rule R101). -/
def uopReg (w : UopWord) : Nibble := w.extractLsb' 64 4
/-- Bits [63:32] of a micro-op word (rule R101). -/
def uopA (w : UopWord) : Word := w.extractLsb' 32 32
/-- Bits [31:0] of a micro-op word (rule R101). -/
def uopB (w : UopWord) : Word := w.extractLsb' 0 32

/-- The fields of the command format (rule R102). -/
def cmdOp (w : CmdWord) : Nibble := w.extractLsb' 32 4
/-- Bits [31:0] of a command word (rule R102). -/
def cmdArg (w : CmdWord) : Word := w.extractLsb' 0 32

/-- Decode the operands of an RMW word. -/
def decodeRmw (reg : Nibble) (a b : Word) : Except DecodeError Instr :=
  match RegId.ofCode reg with
  | none => .error .reservedRegister
  | some r =>
    if r = .timCnt then .error .writesCounter
    else if b &&& ~~~a = 0 then .ok (.rmw r a b) else .error .valueOutsideMask

/-- Decode the operands of a WR word. -/
def decodeWr (reg : Nibble) (a b : Word) : Except DecodeError Instr :=
  match RegId.ofCode reg with
  | none => .error .reservedRegister
  | some r =>
    if r = .timCnt then .error .writesCounter
    else if a = 0 then .ok (.wr r b) else .error .operandNotZero

/-- Decode the operands of a POLLEQ word. -/
def decodePollEq (reg : Nibble) (a b : Word) : Except DecodeError Instr :=
  match RegId.ofCode reg with
  | none => .error .reservedRegister
  | some r => if b &&& ~~~a = 0 then .ok (.pollEq r a b) else .error .valueOutsideMask

/-- Decode the operands of a POLLGE word. -/
def decodePollGe (reg : Nibble) (a b : Word) : Except DecodeError Instr :=
  match RegId.ofCode reg with
  | none => .error .reservedRegister
  | some r =>
    if r = .timCnt then
      if a = 0 ∧ b = 0 then .ok (.pollGe r) else .error .operandNotZero
    else .error .notTheCounter

/-- Decode the operands of an END word. -/
def decodeEnd (reg : Nibble) (a b : Word) : Except DecodeError Instr :=
  if reg = 0 ∧ a = 0 ∧ b = 0 then .ok .endProg else .error .operandNotZero

/-- Decode a micro-op word (rules R101, R103, R107, R108): every word that is not well formed is rejected,
the all-zero word among them. -/
def decodeMicroOp (w : UopWord) : Except DecodeError Instr :=
  if uopOpc w = opcRmw then decodeRmw (uopReg w) (uopA w) (uopB w)
  else if uopOpc w = opcWr then decodeWr (uopReg w) (uopA w) (uopB w)
  else if uopOpc w = opcPollEq then decodePollEq (uopReg w) (uopA w) (uopB w)
  else if uopOpc w = opcPollGe then decodePollGe (uopReg w) (uopA w) (uopB w)
  else if uopOpc w = opcEnd then decodeEnd (uopReg w) (uopA w) (uopB w)
  else .error .illegalOpcode

/-- Decode a command word (rules R102, R105, R108). -/
def decodeCommand (w : CmdWord) : Except DecodeError Instr :=
  if cmdOp w = opInit then .ok (.init (cmdArg w))
  else if cmdOp w = opDelay then .ok (.delay (cmdArg w))
  else if cmdOp w = opCpuf then .ok (.cpuf (cmdArg w))
  else .error .reservedCommand

/-- Decode a word of either format (rule R100). -/
def decode : InstrWord → Except DecodeError Instr
  | .uop w => decodeMicroOp w
  | .cmd w => decodeCommand w

/-- Assemble a micro-op word from its four fields (rule R101). -/
def uopWord (opc reg : Nibble) (a b : Word) : UopWord := opc ++ reg ++ a ++ b

/-- Assemble a command word from its two fields (rule R102). -/
def cmdWord (op : Nibble) (arg : Word) : CmdWord := op ++ arg

/-- The word of an instruction (rules R101 to R105), unused operands zero. -/
def encode : Instr → InstrWord
  | .rmw reg a b => .uop (uopWord opcRmw reg.code a b)
  | .wr reg b => .uop (uopWord opcWr reg.code 0 b)
  | .pollEq reg a b => .uop (uopWord opcPollEq reg.code a b)
  | .pollGe reg => .uop (uopWord opcPollGe reg.code 0 0)
  | .endProg => .uop (uopWord opcEnd 0 0 0)
  | .init arg => .cmd (cmdWord opInit arg)
  | .delay arg => .cmd (cmdWord opDelay arg)
  | .cpuf arg => .cmd (cmdWord opCpuf arg)

/-- Lay out a number as a word of the format its length belongs to: up to five bytes a command word, up to
nine a micro-op word. A number that has bits the format does not have is no word (log 29). -/
def tableWord (nbits w : Nat) : Option InstrWord :=
  if nbits ≤ 40 then
    if w < 2 ^ 36 then some (.cmd (BitVec.ofNat 36 w)) else none
  else if nbits ≤ 72 then
    if w < 2 ^ 72 then some (.uop (BitVec.ofNat 72 w)) else none
  else none

/-- The instruction the decoder reads from a word of the opcode table, none where it refuses. -/
def decodeTableWord (nbits w : Nat) : Option Instr :=
  match tableWord nbits w with
  | none => none
  | some iw =>
    match decode iw with
    | .ok i => some i
    | .error _ => none

end Sys2Proof
end

