-- ==== Sys2Proof/Config.lean ====
section
/-! DEFINITION. The configuration of the block (rule R7): every parameter with its default, the binding `BIND`
of registers to addresses and of fields to bit ranges (rules R30 to R41, R66), and the free values. -/

namespace Sys2Proof

/-- A field of a register: `k` bits from bit `lo` upwards. The widths are the spec's; the places are `BIND`'s
(rule R7; log 26). -/
structure BitField (k : Nat) where
  lo : Nat
  deriving DecidableEq, Repr

/-- One 32-bit word per register: the addresses and the reset words of a binding. -/
structure RegMap where
  pwrCr : Word
  rccCr : Word
  rccPllcfgr : Word
  rccCfgr : Word
  rccAhb1enr : Word
  flashAcr : Word
  dbgApb1fz : Word
  timCr1 : Word
  timEgr : Word
  timCnt : Word
  timPsc : Word
  vtor : Word
  deriving DecidableEq, Repr

/-- Which general-purpose timer is the delay timer (rule R7, OPEN). -/
inductive Timer where
  | tim2 | tim3 | tim4 | tim5
  deriving DecidableEq, Repr

/-- The two peripheral buses (rule R12). -/
inductive Bus where
  | one | two
  deriving DecidableEq, Repr, Inhabited

/-- `BIND`: addresses, reset words and the places of the fields (rules R7, R30 to R41, R66). -/
structure Bind where
  timer : Timer
  addr : RegMap
  resetWord : RegMap
  vos : BitField 2
  hsion : BitField 1
  hsirdy : BitField 1
  hsical : BitField 8
  hseon : BitField 1
  hserdy : BitField 1
  pllon : BitField 1
  pllrdy : BitField 1
  pllm : BitField 6
  plln : BitField 9
  pllp : BitField 2
  pllsrc : BitField 1
  pllq : BitField 4
  sw : BitField 2
  sws : BitField 2
  hpre : BitField 4
  ppre1 : BitField 3
  ppre2 : BitField 3
  gpioEn : Word
  latency : BitField 4
  prften : BitField 1
  icen : BitField 1
  dcen : BitField 1
  timStop : BitField 1
  cen : BitField 1
  ug : BitField 1
  psc : BitField 16
  deriving DecidableEq, Repr

/-- The base address of each timer (rule R66). -/
def Timer.base : Timer → Word
  | .tim2 => 0x40000000#32
  | .tim3 => 0x40000400#32
  | .tim4 => 0x40000800#32
  | .tim5 => 0x40000C00#32

/-- The place of `TIM_STOP` for each timer (rule R36). -/
def Timer.stopBit : Timer → Nat
  | .tim2 => 0 | .tim3 => 1 | .tim4 => 2 | .tim5 => 3

/-- The default binding, the STM32F411's, with the delay timer `t` (rules R30 to R41, R66, R272). -/
def Bind.stm32f411 (t : Timer) : Bind where
  timer := t
  addr :=
    { pwrCr := 0x40007000#32, rccCr := 0x40023800#32, rccPllcfgr := 0x40023804#32
      rccCfgr := 0x40023808#32, rccAhb1enr := 0x40023830#32, flashAcr := 0x40023C00#32
      dbgApb1fz := 0xE0042008#32, timCr1 := t.base, timEgr := t.base + 0x14#32
      timCnt := t.base + 0x24#32, timPsc := t.base + 0x28#32, vtor := 0xE000ED08#32 }
  resetWord :=
    { pwrCr := 0x00008000#32, rccCr := 0x00000083#32, rccPllcfgr := 0x24003010#32
      rccCfgr := 0#32, rccAhb1enr := 0#32, flashAcr := 0#32, dbgApb1fz := 0#32
      timCr1 := 0#32, timEgr := 0#32, timCnt := 0#32, timPsc := 0#32, vtor := 0#32 }
  vos := ⟨14⟩
  hsion := ⟨0⟩
  hsirdy := ⟨1⟩
  hsical := ⟨8⟩
  hseon := ⟨16⟩
  hserdy := ⟨17⟩
  pllon := ⟨24⟩
  pllrdy := ⟨25⟩
  pllm := ⟨0⟩
  plln := ⟨6⟩
  pllp := ⟨16⟩
  pllsrc := ⟨22⟩
  pllq := ⟨24⟩
  sw := ⟨0⟩
  sws := ⟨2⟩
  hpre := ⟨4⟩
  ppre1 := ⟨10⟩
  ppre2 := ⟨13⟩
  gpioEn := 0x0000009F#32
  latency := ⟨0⟩
  prften := ⟨8⟩
  icen := ⟨9⟩
  dcen := ⟨10⟩
  timStop := ⟨t.stopBit⟩
  cen := ⟨0⟩
  ug := ⟨0⟩
  psc := ⟨0⟩

/-- The parameters of rule R7. Derived ones (`F_VCO`, `F_CORE`, `PSC_VAL`, `F_REPORTED`) are functions, in
Machine/Elaborate.lean. -/
structure Config where
  fHse : Nat
  pllM : Nat
  pllN : Nat
  pllP : Nat
  pllQ : Nat
  tickHz : Nat
  fHsi : Nat
  vosCode : Nat
  vcoInMin : Nat
  vcoInMax : Nat
  vcoMin : Nat
  vcoMax : Nat
  fCoreMax : Nat
  mMin : Nat
  mMax : Nat
  nMin : Nat
  nMax : Nat
  pSet : List Nat
  qMin : Nat
  qMax : Nat
  fApb1Max : Nat
  fApb2Max : Nat
  ppreMaxDiv : Nat
  ppre1Final : Nat
  ppre2Final : Nat
  /-- Rows (bound in hertz, wait-states), looked up in the order of the list (rule R141). The default's bounds and
  counts rise (rule R142); that another table's do is not asked for (log 36). -/
  wsTable : List (Nat × Nat)
  flashIcen : Bool
  flashDcen : Bool
  flashPrften : Bool
  portEnMask : Word
  cntWidth : Nat
  arrReset : Word
  vtorAddr : Word
  pollLimit : Option Nat
  /-- Used only as a premise of claims about duration (rule R198). -/
  ticksPerPollMax : Nat
  /-- The word formats have one fixed width each and the ROM one depth (rules R61, R100): a well-formed
  configuration has the values of rule R7 here (log 37). -/
  uopWidth : Nat
  cmdWidth : Nat
  romDepth : Nat
  initEntry : RomAddr
  delayEntry : RomAddr
  bind : Bind
  deriving DecidableEq, Repr

/-- The defaults of rule R7. -/
def Config.default : Config where
  fHse := 25000000
  pllM := 25
  pllN := 192
  pllP := 2
  pllQ := 4
  tickHz := 1000000
  fHsi := 16000000
  vosCode := 3
  vcoInMin := 1000000
  vcoInMax := 2000000
  vcoMin := 100000000
  vcoMax := 432000000
  fCoreMax := 100000000
  mMin := 2
  mMax := 63
  nMin := 50
  nMax := 432
  pSet := [2, 4, 6, 8]
  qMin := 2
  qMax := 15
  fApb1Max := 50000000
  fApb2Max := 100000000
  ppreMaxDiv := 16
  ppre1Final := 2
  ppre2Final := 1
  wsTable := [(30000000, 0), (64000000, 1), (90000000, 2), (100000000, 3)]
  flashIcen := true
  flashDcen := true
  flashPrften := true
  portEnMask := 0x00000007#32
  cntWidth := 32
  arrReset := 0xFFFFFFFF#32
  vtorAddr := 0x20000000#32
  pollLimit := none
  ticksPerPollMax := 1
  uopWidth := 72
  cmdWidth := 36
  romDepth := 32
  initEntry := 0#5
  delayEntry := 24#5
  bind := Bind.stm32f411 .tim2

/-- FREE VALUE (log 6): what `resp` holds when it is not valid, fresh at each count. It has no body, so nothing
can be proved of what it is. -/
opaque Config.freeWord : Nat → BitVec 32

/-- FREE VALUE (log 12): the quotient of two frequencies or counts where the division is not exact, of which the
spec states no result (rule R9). -/
opaque Config.freeQuotient : Nat → Nat → Nat

/-- FREE VALUE (log 12): the system clock's frequency while `SWS` holds the code that is not allowed (rule R111;
93 U11), fresh at each count. -/
opaque Config.freeSysClock : Nat → Nat

/-- FREE VALUE (log 35): the response of CPUF for a frequency that does not fit 32 bits. -/
opaque Config.freeReport : Nat → BitVec 32

/-- FREE VALUE (log 16): which divider ENV.DIV applies first when both differ (rule R77) and no move is
settled. -/
opaque Config.freeBus : Nat → Bus

end Sys2Proof
end

