-- ==== Sys2Proof/Machine/Operands.lean ====
section
/-! DEFINITION. Operand forms and field codes: reading, masking and encoding a field (rule R10), the access
kinds of every register as masks (rules R30 to R41, R46), and the codes of the register fields (rules R109 to
R113). -/

namespace Sys2Proof

/-- `r.F` read from a register word. -/
def BitField.get {k : Nat} (f : BitField k) (w : Word) : BitVec k := w.extractLsb' f.lo k

/-- `MASK(r.F)`: ones at the field's bits (rule R10). -/
def BitField.mask {k : Nat} (f : BitField k) : Word := ((BitVec.allOnes k).setWidth 32) <<< f.lo

/-- `ENC(r.F, v)` for a value that has the field's width (rule R10). -/
def BitField.enc {k : Nat} (f : BitField k) (v : BitVec k) : Word := (v.setWidth 32) <<< f.lo

/-- `ENC(r.F, v)` for a number: `(v << POS) & MASK` (rule R10). -/
def BitField.encNat {k : Nat} (f : BitField k) (v : Nat) : Word := f.enc (BitVec.ofNat k v)

/-- Replace a field of a word. -/
def BitField.put {k : Nat} (f : BitField k) (v : BitVec k) (w : Word) : Word :=
  (w &&& ~~~f.mask) ||| f.enc v

/-- The entry of a register in a table of words. -/
def RegMap.get (m : RegMap) : RegId → Word
  | .pwrCr => m.pwrCr | .rccCr => m.rccCr | .rccPllcfgr => m.rccPllcfgr | .rccCfgr => m.rccCfgr
  | .rccAhb1enr => m.rccAhb1enr | .flashAcr => m.flashAcr | .dbgApb1fz => m.dbgApb1fz
  | .timCr1 => m.timCr1 | .timEgr => m.timEgr | .timCnt => m.timCnt | .timPsc => m.timPsc
  | .vtor => m.vtor

/-- `ADDR(r)`, the byte address of a register (rules R10, R66). -/
def Config.addr (c : Config) (r : RegId) : Word := c.bind.addr.get r

/-- Ones at the `CNT_WIDTH` low bits: the bits `TIM_CNT` and `arr` have (rules R39, R43). -/
def Config.cntMask (c : Config) : Word := BitVec.ofNat 32 (2 ^ c.cntWidth - 1)

/-- The bits of a register with access kind `rw` (rules R30 to R41, R46). -/
def Config.rwMask (c : Config) : RegId → Word
  | .pwrCr => c.bind.vos.mask
  | .rccCr => c.bind.hsion.mask ||| c.bind.hseon.mask ||| c.bind.pllon.mask
  | .rccPllcfgr =>
    c.bind.pllm.mask ||| c.bind.plln.mask ||| c.bind.pllp.mask ||| c.bind.pllsrc.mask ||| c.bind.pllq.mask
  | .rccCfgr => c.bind.sw.mask ||| c.bind.ppre1.mask ||| c.bind.ppre2.mask
  | .rccAhb1enr => c.bind.gpioEn
  | .flashAcr =>
    c.bind.latency.mask ||| c.bind.prften.mask ||| c.bind.icen.mask ||| c.bind.dcen.mask
  | .dbgApb1fz => c.bind.timStop.mask
  | .timCr1 => c.bind.cen.mask
  | .timEgr => 0
  | .timCnt => c.cntMask
  | .timPsc => c.bind.psc.mask
  | .vtor => BitVec.allOnes 32

/-- The bits of a register with access kind `ro`, which only the environment changes: the readiness flags and the
switch status (rules R31, R33, R46). -/
def Config.roMask (c : Config) : RegId → Word
  | .rccCr => c.bind.hsirdy.mask ||| c.bind.hserdy.mask ||| c.bind.pllrdy.mask
  | .rccCfgr => c.bind.sws.mask
  | _ => 0

/-- The bits a register has: `TIM_EGR` stores none, `TIM_CNT` has `CNT_WIDTH`, `TIM_PSC` has 16; bits it does
not have read 0 (rules R38, R39, R40). -/
def Config.implMask (c : Config) : RegId → Word
  | .timEgr => 0
  | .timCnt => c.cntMask
  | .timPsc => c.bind.psc.mask
  | _ => BitVec.allOnes 32

/-- The bits with access kind `untouched`, `HSICAL` among them (rules R31, R46). -/
def Config.untouchedMask (c : Config) (r : RegId) : Word :=
  c.implMask r &&& ~~~(c.rwMask r ||| c.roMask r)

/-- `ppre_code(d)`, the code of a peripheral-bus division (rule R112). -/
def ppreCode : Nat → Option (BitVec 3)
  | 1 => some 0b000#3
  | 2 => some 0b100#3
  | 4 => some 0b101#3
  | 8 => some 0b110#3
  | 16 => some 0b111#3
  | _ => none

/-- `ppre_div(c)`, the division of a peripheral-bus code (rule R112). -/
def ppreDiv (c : BitVec 3) : Nat :=
  match c.toNat with
  | 4 => 2 | 5 => 4 | 6 => 8 | 7 => 16 | _ => 1

/-- The division of a code of the core divider `HPRE` (rule R112). -/
def hpreDiv (c : BitVec 4) : Nat :=
  match c.toNat with
  | 8 => 2 | 9 => 4 | 10 => 8 | 11 => 16 | 12 => 64 | 13 => 128 | 14 => 256 | 15 => 512 | _ => 1

/-- The division of a code of the PLL output divider `PLLP` (rule R110). -/
def pllpDiv (c : BitVec 2) : Nat := 2 * (c.toNat + 1)

/-- `SW` and `SWS` code of the internal oscillator (rule R111). -/
def swHsi : BitVec 2 := 0b00#2
/-- `SW` and `SWS` code of the external oscillator (rule R111). -/
def swHse : BitVec 2 := 0b01#2
/-- `SW` and `SWS` code of the PLL (rule R111). -/
def swPll : BitVec 2 := 0b10#2

/-- The regulator's scale of a code of `VOS`; the reserved code selects scale 3 (rule R109). -/
def vosScale (c : BitVec 2) : Nat :=
  match c.toNat with
  | 3 => 1 | 2 => 2 | _ => 3

/-- The highest core frequency a code of `VOS` allows, in hertz (rule R109). -/
def vosMaxHz (c : BitVec 2) : Nat :=
  match c.toNat with
  | 3 => 100000000 | 2 => 84000000 | _ => 64000000

/-- The quotient of two frequencies or counts: exact, as the spec's arithmetic is (rule R9), and a free value where
the division is not exact (log 12). -/
def quotient (a b : Nat) : Nat := if b ≠ 0 ∧ a % b = 0 then a / b else Config.freeQuotient a b

/-- One bit of a one-bit field. -/
def bitOf (b : Bool) : BitVec 1 := if b then 1#1 else 0#1

end Sys2Proof
end

