-- ==== Sys2Proof/Machine/Elaborate.lean ====
section
/-! DEFINITION. What is fixed when the block is built: the PLL arithmetic (rule R160), the flash lookup `fwp`
(rule R141), the prescaler value (rule R192), when a configuration is well formed (rule R8), and the two
micro-programs as functions of the configuration (rules R153, R205). -/

namespace Sys2Proof

/-- `F_VCO = F_HSE / PLL_M * PLL_N` (rule R160). -/
def Config.fVco (c : Config) : Nat := c.fHse / c.pllM * c.pllN

/-- `F_CORE = F_VCO / PLL_P` (rule R160). -/
def Config.fCore (c : Config) : Nat := c.fVco / c.pllP

/-- `F_REPORTED = F_CORE`, what CPUF answers (rules R7, R223). -/
def Config.fReported (c : Config) : Nat := c.fCore

/-- `F_REPORTED` as the 32-bit response (rules R116, R223). A frequency that does not fit 32 bits, for which the spec
states no response, gives a free value (log 35). -/
def Config.reportWord (c : Config) : Word :=
  if c.fReported < 2 ^ 32 then BitVec.ofNat 32 c.fReported else Config.freeReport c.fReported

/-- `PSC_VAL = F_CORE / TICK_HZ - 1` (rule R192). -/
def Config.pscVal (c : Config) : Nat := c.fCore / c.tickHz - 1

/-- The first row of a wait-state table whose bound is at least `f` (rule R141), whatever the order of the table
(log 36). -/
def wsLookup (f : Nat) : List (Nat × Nat) → Option Nat
  | [] => none
  | (bound, ws) :: rows => if f ≤ bound then some ws else wsLookup f rows

/-- `fwp(f)`: the wait-states for a frequency; none for 0 and above the last band (rules R141, R147). -/
def Config.fwp (c : Config) (f : Nat) : Option Nat :=
  if f = 0 then none else wsLookup f c.wsTable

/-- A field lies inside a word. -/
def BitField.fits {k : Nat} (f : BitField k) : Bool := decide (f.lo + k ≤ 32)

/-- No two masks of a list share a bit. -/
def disjointMasks : List Word → Bool
  | [] => true
  | m :: ms => ms.all (fun n => decide (m &&& n = 0)) && disjointMasks ms

/-- A binding a model accepts: every field inside its register and apart from the others (log 27), `UG` at bit 0,
which the DELAY program of every configuration writes (rules R79, R205; log 27), every address a multiple of 4 (rule
R64). Of the place of `PSC`, whose value is written unshifted (rule R191), nothing is asked (log 39). -/
def Bind.wf (b : Bind) : Bool :=
  b.vos.fits && b.hsion.fits && b.hsirdy.fits && b.hsical.fits && b.hseon.fits && b.hserdy.fits &&
  b.pllon.fits && b.pllrdy.fits && b.pllm.fits && b.plln.fits && b.pllp.fits && b.pllsrc.fits &&
  b.pllq.fits && b.sw.fits && b.sws.fits && b.hpre.fits && b.ppre1.fits && b.ppre2.fits &&
  b.latency.fits && b.prften.fits && b.icen.fits && b.dcen.fits && b.timStop.fits && b.cen.fits &&
  decide (b.ug.lo = 0) && b.psc.fits &&
  disjointMasks [b.hsion.mask, b.hsirdy.mask, b.hsical.mask, b.hseon.mask, b.hserdy.mask, b.pllon.mask,
    b.pllrdy.mask] &&
  disjointMasks [b.pllm.mask, b.plln.mask, b.pllp.mask, b.pllsrc.mask, b.pllq.mask] &&
  disjointMasks [b.sw.mask, b.sws.mask, b.hpre.mask, b.ppre1.mask, b.ppre2.mask] &&
  disjointMasks [b.latency.mask, b.prften.mask, b.icen.mask, b.dcen.mask] &&
  [RegId.pwrCr, .rccCr, .rccPllcfgr, .rccCfgr, .rccAhb1enr, .flashAcr, .dbgApb1fz, .timCr1, .timEgr,
    .timCnt, .timPsc, .vtor].all (fun r => decide ((b.addr.get r).toNat % 4 = 0))

/-- The PLL part of rule R8: exact divisions, ranges and legal dividers. -/
def Config.pllWf (c : Config) : Bool :=
  decide (c.pllM ≠ 0 ∧ c.fHse % c.pllM = 0) &&
  decide (c.vcoInMin ≤ c.fHse / c.pllM ∧ c.fHse / c.pllM ≤ c.vcoInMax) &&
  decide (c.vcoMin ≤ c.fVco ∧ c.fVco ≤ c.vcoMax) &&
  decide (c.pllP ≠ 0 ∧ c.fVco % c.pllP = 0) &&
  decide (c.fCore ≤ c.fCoreMax) &&
  decide (c.mMin ≤ c.pllM ∧ c.pllM ≤ c.mMax) &&
  decide (c.nMin ≤ c.pllN ∧ c.pllN ≤ c.nMax) &&
  decide (c.pllP ∈ c.pSet) &&
  decide (c.qMin ≤ c.pllQ ∧ c.pllQ ≤ c.qMax)

/-- The timer part of rule R8; the reload value and the counter's reset value lie within the counter (rule R43;
log 27). -/
def Config.timerWf (c : Config) : Bool :=
  decide (c.tickHz ≠ 0 ∧ c.fCore % c.tickHz = 0) &&
  decide (1 ≤ c.fCore / c.tickHz ∧ c.pscVal < 2 ^ 16) &&
  decide (1 ≤ c.cntWidth ∧ c.cntWidth ≤ 32) &&
  decide (c.arrReset.toNat ≤ c.cntMask.toNat) &&
  decide ((c.bind.resetWord.timCnt &&& c.cntMask).toNat ≤ c.arrReset.toNat)

/-- The bus part of rule R8, with the condition on `PPRE1_FINAL` under the default binding (rule R193). The
bus maxima are compared as exact quotients (log 34). -/
def Config.busWf (c : Config) : Bool :=
  decide (c.fCore ≤ c.fApb1Max * c.ppre1Final) &&
  decide (c.fCore ≤ c.fApb2Max * c.ppre2Final) &&
  (decide (c.bind ≠ Bind.stm32f411 c.bind.timer) || decide (c.ppre1Final = 1 ∨ c.ppre1Final = 2)) &&
  (ppreCode c.ppreMaxDiv).isSome && (ppreCode c.ppre1Final).isSome && (ppreCode c.ppre2Final).isSome

/-- The flash part of rules R8 and R146: `F_CORE` falls in a band and the count fits `LATENCY`. Rule R8 asks
nothing of the table's order, so neither does the model (log 36). -/
def Config.flashWf (c : Config) : Bool :=
  match c.fwp c.fCore with
  | none => false
  | some ws => decide (ws < 16)

/-- The values written to fields fit them and are no reserved code (rule R110; 93 U11; log 27); a poll limit
is at least 1 (rule R243). -/
def Config.codesWf (c : Config) : Bool :=
  decide (1 ≤ c.vosCode ∧ c.vosCode < 4) &&
  decide (2 ≤ c.pllM ∧ c.pllM < 64) && decide (50 ≤ c.pllN ∧ c.pllN ≤ 432) &&
  decide (2 ≤ c.pllQ ∧ c.pllQ < 16) &&
  decide (c.pllP = 2 ∨ c.pllP = 4 ∨ c.pllP = 6 ∨ c.pllP = 8) &&
  decide (c.pollLimit ≠ some 0)

/-- The formats and the ROM's depth are the spec's (rules R61, R100; log 37), and the two programs, 19 and 3 words
long, lie in the ROM apart from each other (rules R23, R61; log 27). -/
def Config.layoutWf (c : Config) : Bool :=
  decide (c.uopWidth = 72 ∧ c.cmdWidth = 36 ∧ c.romDepth = 32) &&
  decide ((c.initEntry.toNat + 19 ≤ c.delayEntry.toNat ∧ c.delayEntry.toNat + 3 ≤ 32) ∨
    (c.delayEntry.toNat + 3 ≤ c.initEntry.toNat ∧ c.initEntry.toNat + 19 ≤ 32))

/-- When a configuration is well formed (rule R8); the model gives no other a meaning. -/
def Config.wf (c : Config) : Bool :=
  c.layoutWf && c.timerWf && c.pllWf && c.busWf && c.flashWf && c.codesWf && c.bind.wf

/-- The mask operand of ROM address 3 (rule R153). -/
def Config.pllMask (c : Config) : Word :=
  c.bind.pllsrc.mask ||| c.bind.pllm.mask ||| c.bind.plln.mask ||| c.bind.pllp.mask ||| c.bind.pllq.mask

/-- The value operand of ROM address 3 (rules R110, R153, R165). -/
def Config.pllValue (c : Config) : Word :=
  c.bind.pllsrc.encNat 1 ||| c.bind.pllm.encNat c.pllM ||| c.bind.plln.encNat c.pllN |||
    c.bind.pllp.encNat (c.pllP / 2 - 1) ||| c.bind.pllq.encNat c.pllQ

/-- The mask operand of ROM address 6 (rule R143). -/
def Config.flashMask (c : Config) : Word :=
  c.bind.latency.mask ||| c.bind.prften.mask ||| c.bind.icen.mask ||| c.bind.dcen.mask

/-- The value operand of ROM address 6 (rule R143). -/
def Config.flashValue (c : Config) : Word :=
  c.bind.latency.encNat ((c.fwp c.fCore).getD 0) ||| c.bind.prften.enc (bitOf c.flashPrften) |||
    c.bind.icen.enc (bitOf c.flashIcen) ||| c.bind.dcen.enc (bitOf c.flashDcen)

/-- The mask of the two peripheral-bus dividers (rules R168, R171). -/
def Config.ppreMask (c : Config) : Word := c.bind.ppre1.mask ||| c.bind.ppre2.mask

/-- The value operand of a divider write, from the two divisions (rules R112, R168, R171). -/
def Config.ppreValue (c : Config) (d1 d2 : Nat) : Word :=
  c.bind.ppre1.enc ((ppreCode d1).getD 0) ||| c.bind.ppre2.enc ((ppreCode d2).getD 0)

/-- `SETB reg, mask` (rule R115). -/
def setb (r : RegId) (m : Word) : Instr := .rmw r m m
/-- `CLRB reg, mask` (rule R115). -/
def clrb (r : RegId) (m : Word) : Instr := .rmw r m 0
/-- `WRF r.F, v` (rule R115). -/
def wrf {k : Nat} (r : RegId) (f : BitField k) (v : Nat) : Instr := .rmw r f.mask (f.encNat v)
/-- `WAITSET reg, mask` (rule R115). -/
def waitset (r : RegId) (m : Word) : Instr := .pollEq r m m
/-- `WAITCLR reg, mask` (rule R115). -/
def waitclr (r : RegId) (m : Word) : Instr := .pollEq r m 0
/-- `WAITEQ r.F, v` (rule R115). -/
def waiteq {k : Nat} (r : RegId) (f : BitField k) (v : Nat) : Instr := .pollEq r f.mask (f.encNat v)

/-- The INIT program, nineteen words from `INIT_ENTRY` on (rule R153; steps 1 to 12 are rules R163 to R174). -/
def Config.initProgram (c : Config) : List Instr :=
  [ wrf .pwrCr c.bind.vos c.vosCode,
    setb .rccCr c.bind.hseon.mask,
    waitset .rccCr c.bind.hserdy.mask,
    .rmw .rccPllcfgr c.pllMask c.pllValue,
    setb .rccCr c.bind.pllon.mask,
    waitset .rccCr c.bind.pllrdy.mask,
    .rmw .flashAcr c.flashMask c.flashValue,
    .rmw .rccCfgr c.ppreMask (c.ppreValue c.ppreMaxDiv c.ppreMaxDiv),
    wrf .rccCfgr c.bind.sw 2,
    waiteq .rccCfgr c.bind.sws 2,
    clrb .rccCr c.bind.hsion.mask,
    waitclr .rccCr c.bind.hsirdy.mask,
    .rmw .rccCfgr c.ppreMask (c.ppreValue c.ppre1Final c.ppre2Final),
    .rmw .rccAhb1enr c.portEnMask c.portEnMask,
    setb .dbgApb1fz c.bind.timStop.mask,
    .wr .timPsc (BitVec.ofNat 32 c.pscVal),
    setb .timCr1 c.bind.cen.mask,
    .wr .vtor c.vtorAddr,
    .endProg ]

/-- The DELAY program, three words from `DELAY_ENTRY` on, the same for every configuration (rule R205). -/
def delayProgram : List Instr := [ .wr .timEgr 0x00000001#32, .pollGe .timCnt, .endProg ]

/-- The micro-program ROM in canonical form: the addresses that hold a word other than all zeros, rising
(rule R61). -/
abbrev Rom := List (Nat × UopWord)

/-- The word a micro-op has in the ROM. -/
def uopBits (i : Instr) : UopWord :=
  match encode i with
  | .uop w => w
  | .cmd _ => 0

/-- A program laid out from an address on. -/
def placeProgram (start : Nat) : List Instr → Rom
  | [] => []
  | i :: is => (start, uopBits i) :: placeProgram (start + 1) is

/-- The ROM of a configuration, in rising addresses; every other word is all zeros (rules R61, R152). -/
def Config.rom (c : Config) : Rom :=
  if c.initEntry.toNat ≤ c.delayEntry.toNat then
    placeProgram c.initEntry.toNat c.initProgram ++ placeProgram c.delayEntry.toNat delayProgram
  else placeProgram c.delayEntry.toNat delayProgram ++ placeProgram c.initEntry.toNat c.initProgram

/-- `ROM[a]`; an unlisted word is all zeros, which is no micro-op (rules R61, R108). -/
def Rom.read (rom : Rom) (a : RomAddr) : UopWord :=
  match rom with
  | [] => 0
  | (k, w) :: rest => if k = a.toNat then w else Rom.read rest a

/-- A ROM with one word replaced. No step does this (rule R61); `State.withFetchWord` places a word with it.
Writing all zeros removes the entry. -/
def Rom.write (rom : Rom) (a : RomAddr) (w : UopWord) : Rom :=
  match rom with
  | [] => if w = 0 then [] else [(a.toNat, w)]
  | (k, v) :: rest =>
    if a.toNat < k then (if w = 0 then (k, v) :: rest else (a.toNat, w) :: (k, v) :: rest)
    else if a.toNat = k then (if w = 0 then rest else (k, w) :: rest)
    else (k, v) :: Rom.write rest a w

/-- The canonical form: addresses from `lo` on, strictly rising, below `ROM_DEPTH = 32`, no all-zero word. -/
def romWfFrom (lo : Nat) : Rom → Bool
  | [] => true
  | (k, w) :: rest => decide (lo ≤ k) && decide (k < 32) && decide (w ≠ 0) && romWfFrom (k + 1) rest

/-- The canonical form of a ROM. -/
def Rom.wf (rom : Rom) : Bool := romWfFrom 0 rom

end Sys2Proof
end

