-- ==== Sys2Proof/Machine/State.lean ====
section
/-! DEFINITION. The state as plain data: the sequencer, the twelve registers, the hidden state, the ports, the
trace, and the moves still to come; the faults and refusals; the state after reset. -/

namespace Sys2Proof.Machine

/-- Why the model stops with a fault: a safety predicate fails. The hardware does not stop (rule R145, R240);
the spec makes such a state a fault of the model. -/
inductive Fault where
  /-- SAFE_BUS fails (rule R176). Raised by `step` on a state in which a peripheral bus runs above its rated
  maximum. Safe: the model stops where the hardware goes on. -/
  | safeBus
  /-- SAFE_LOCK fails (rule R177). Raised by `step` where the PLL is selected before it was seen locked. Safe. -/
  | safeLock
  /-- SAFE_FLASH fails (rule R178). Raised by `step` where the flash has too few wait-states for the core
  frequency. Safe. -/
  | safeFlash
  /-- SAFE_HSI fails (rule R179). Raised by `step` right after a write to `RCC_CR` with `HSION` = 0 while `SWS` = 0:
  the internal oscillator is switched off while it drives the system clock. Safe. -/
  | safeHsi
  deriving DecidableEq, Repr

/-- Why the model gives a situation no meaning (rule R10). -/
inductive Refusal where
  /-- An arm of `exec` without a meaning. Raised by no instruction of this model. Safe. -/
  | notModelled (mnemonic : String)
  /-- `refuse(illegal micro-op at upc)`: the ROM word is not well formed, or the micro-op would increment `upc`
  from 31 (rule R136). Raised by SEQ's step and by the micro-ops' meanings. Safe. -/
  | illegalMicroOp (upc : RomAddr)
  /-- The configuration is not well formed (rule R8). Raised by `step`. Safe. -/
  | configNotWellFormed
  /-- A program launched while the registers are not reachable (rules R68, R274). Raised by INIT and DELAY.
  Safe. -/
  | notAccessible
  /-- Another agent triggers the timer while the block owns it (rules R81, R201; 93 U3). Raised by `step`.
  Safe. -/
  | foreignAccess
  deriving DecidableEq, Repr

/-- `mode` (rule R22). -/
inductive Mode where
  | idle | run | fault
  deriving DecidableEq, Repr

/-- `phase` (rule R25): `read` is 0, `write` is 1. -/
inductive Phase where
  | read | write
  deriving DecidableEq, Repr

/-- Why a command is refused (rules R221, R222, R224). -/
inductive RefuseReason where
  | alreadyInitialised | notInitialised | reserved
  deriving DecidableEq, Repr

/-- The environment agents that emit `Env` events (rules R73 to R77, R80). -/
inductive EnvAgent where
  | hse | pll | sw | hsi | div | dbg
  deriving DecidableEq, Repr

/-- The fields `Env` events name (rules R73 to R77, R80). -/
inductive EnvField where
  | hserdy | pllrdy | sws | hsirdy | ppre1 | ppre2 | coreHalted
  deriving DecidableEq, Repr

/-- The reason of a `Fault` event (rule R244). -/
inductive FaultReason where
  | pollLimit (upc : RomAddr)
  deriving DecidableEq, Repr

/-- The events of the trace (rule R70). -/
inductive Event where
  | accept (op : Nibble) (arg : Word)
  | rd (reg : RegId) (value : Word)
  | wr (reg : RegId) (value : Word)
  | done (op : Nibble) (resp : Word)
  | refused (op : Nibble) (reason : RefuseReason)
  | env (agent : EnvAgent) (field : EnvField) (value : Word)
  | tick (cnt : Word)
  | fault (reason : FaultReason)
  deriving DecidableEq, Repr

/-- How much a reset reaches (rules R270, R272; 95 V21; log 18): the block alone, the register interface too
but not the debug unit's freeze register, or all of it. -/
inductive ResetKind where
  | blockOnly | system | powerOn
  deriving DecidableEq, Repr

/-- One move of one agent (rule R20): what a model step does. -/
inductive Turn where
  /-- SEQ takes its step, if it has one. -/
  | seq
  /-- The presented command is taken, if `cmd_ready` (rules R220, R225). -/
  | take
  /-- HOST presents a command word (rule R220). -/
  | present (w : CmdWord)
  /-- ENV.HSE, ENV.PLL, ENV.SW, ENV.HSI step, if enabled (rules R73 to R76). -/
  | hse | pll | sw | hsi
  /-- ENV.DIV applies one divider, if it differs (rule R77). -/
  | div (bus : Bus)
  /-- ENV.TICK steps, if enabled (rule R78). -/
  | tick
  /-- ENV.DBG halts or resumes the core (rule R80). -/
  | halt (stopped : Bool)
  /-- `rst_n` goes low (rule R270). -/
  | resetLow (kind : ResetKind)
  /-- `rst_n` goes high (rule R270). -/
  | resetHigh
  /-- Another user triggers `TIM_EGR.UG` (rules R81, R201). -/
  | foreignUg
  /-- Nothing moves. -/
  | idle
  deriving DecidableEq, Repr

/-- The sequencer's state (rules R22 to R26). -/
structure Seq where
  mode : Mode
  upc : RomAddr
  /-- `x[0]`. -/
  us : Word
  /-- `x[1]`. -/
  rd : Word
  phase : Phase
  pollcnt : Nat
  cmd : Nibble
  initDone : Bool
  deriving DecidableEq, Repr

/-- The stored words of the register interface (rules R30 to R41). `TIM_EGR` stores nothing (rule R38). -/
structure Regs where
  pwrCr : Word
  rccCr : Word
  rccPllcfgr : Word
  rccCfgr : Word
  rccAhb1enr : Word
  flashAcr : Word
  dbgApb1fz : Word
  timCr1 : Word
  timCnt : Word
  timPsc : Word
  vtor : Word
  deriving DecidableEq, Repr

/-- The hidden state (rule R43). -/
structure Hidden where
  pscEff : BitVec 16
  arr : Word
  coreHalted : Bool
  effPpre1 : BitVec 3
  effPpre2 : BitVec 3
  deriving DecidableEq, Repr

/-- The ports that hold something between steps (rules R116, R220, R270). -/
structure Port where
  rstN : Bool
  /-- `cmd_valid` and `cmd`: the command word presented and not yet taken. -/
  cmdIn : Option CmdWord
  done : Bool
  resp : Word
  deriving DecidableEq, Repr

/-- The machine's state. -/
structure State where
  /-- The configuration, never changed (rule R21; log 2). -/
  cfg : Config
  /-- The ROM, never changed (rules R21, R61; log 3). -/
  rom : Rom
  seq : Seq
  regs : Regs
  hidden : Hidden
  port : Port
  /-- The trace, newest event first (rule R70). -/
  events : List Event
  /-- The launch premise `EnvAccessible` (rule R68; log 20). -/
  accessible : Bool
  /-- The moves already settled, next one first (log 1). -/
  sched : List Turn
  /-- The count the free values are applied to (log 6, log 12, log 16). -/
  freeCount : Nat
  deriving DecidableEq, Repr

/-- The sequencer's reset values (rules R27, R271). -/
def Seq.reset : Seq where
  mode := .idle
  upc := 0#5
  us := 0#32
  rd := 0#32
  phase := .read
  pollcnt := 0
  cmd := 0#4
  initDone := false

/-- The register interface's reset words (rule R272), with the factory value `HSICAL` given: no reset fixes it
(rule R31). The counter and the prescaler hold only bits they have (rules R39, R40). -/
def Regs.reset (c : Config) (hsical : BitVec 8) : Regs where
  pwrCr := c.bind.resetWord.pwrCr
  rccCr := c.bind.hsical.put hsical c.bind.resetWord.rccCr
  rccPllcfgr := c.bind.resetWord.rccPllcfgr
  rccCfgr := c.bind.resetWord.rccCfgr
  rccAhb1enr := c.bind.resetWord.rccAhb1enr
  flashAcr := c.bind.resetWord.flashAcr
  dbgApb1fz := c.bind.resetWord.dbgApb1fz
  timCr1 := c.bind.resetWord.timCr1
  timCnt := c.bind.resetWord.timCnt &&& c.cntMask
  timPsc := c.bind.resetWord.timPsc &&& c.bind.psc.mask
  vtor := c.bind.resetWord.vtor

/-- The hidden state's reset values; `arr` resets to `ARR_RESET` (rules R7, R43). -/
def Hidden.reset (c : Config) : Hidden where
  pscEff := 0#16
  arr := c.arrReset
  coreHalted := false
  effPpre1 := 0#3
  effPpre2 := 0#3

/-- The ports after reset is released (rule R27). -/
def Port.reset : Port where
  rstN := true
  cmdIn := none
  done := false
  resp := 0#32

/-- The machine right after reset, for a configuration. -/
def State.resetWith (c : Config) : State where
  cfg := c
  rom := c.rom
  seq := Seq.reset
  regs := Regs.reset c 0#8
  hidden := Hidden.reset c
  port := Port.reset
  events := []
  accessible := true
  sched := []
  freeCount := 0

/-- The machine right after reset, with the default configuration (rules R7, R27, R45). -/
def State.reset : State := State.resetWith Config.default

/-- What a step answers. -/
abbrev Result := Host.Outcome State Fault Refusal

end Sys2Proof.Machine
end

