-- ==== Sys2Proof/Machine/Flags.lean ====
section
/-! DEFINITION. The flags: the readiness conditions (rule R42) and the field values the environment and the
clock tree read. No micro-op has condition codes (rule R26). -/

namespace Sys2Proof.Machine

/-- A one-bit field read as a truth value. -/
def isSet (f : BitField 1) (w : Word) : Bool := decide (f.get w = 1#1)

/-- `RCC_CR.HSEON` (rule R31). -/
def State.hseOn (s : State) : Bool := isSet s.cfg.bind.hseon s.regs.rccCr

/-- The flag external-oscillator-ready (rule R42). -/
def State.hseReady (s : State) : Bool := isSet s.cfg.bind.hserdy s.regs.rccCr

/-- `RCC_CR.HSION` (rule R31). -/
def State.hsiOn (s : State) : Bool := isSet s.cfg.bind.hsion s.regs.rccCr

/-- `RCC_CR.HSIRDY` (rule R31); internal-oscillator-off-confirmed is its being 0 (rule R42). -/
def State.hsiReady (s : State) : Bool := isSet s.cfg.bind.hsirdy s.regs.rccCr

/-- `RCC_CR.PLLON` (rule R31). -/
def State.pllOn (s : State) : Bool := isSet s.cfg.bind.pllon s.regs.rccCr

/-- The flag PLL-locked (rule R42). -/
def State.pllLocked (s : State) : Bool := isSet s.cfg.bind.pllrdy s.regs.rccCr

/-- `RCC_PLLCFGR.PLLSRC`: true for the external oscillator (rules R32, R110). -/
def State.pllFromHse (s : State) : Bool := isSet s.cfg.bind.pllsrc s.regs.rccPllcfgr

/-- `PWR_CR.VOS` (rule R30). -/
def State.vos (s : State) : BitVec 2 := s.cfg.bind.vos.get s.regs.pwrCr

/-- `RCC_CFGR.SW` (rule R33). -/
def State.sw (s : State) : BitVec 2 := s.cfg.bind.sw.get s.regs.rccCfgr

/-- `RCC_CFGR.SWS` (rule R33). -/
def State.sws (s : State) : BitVec 2 := s.cfg.bind.sws.get s.regs.rccCfgr

/-- The flag system-clock-switch-confirmed (rule R42). -/
def State.switchConfirmed (s : State) : Bool := decide (s.sws = s.sw)

/-- The flag internal-oscillator-off-confirmed (rule R42). -/
def State.hsiOffConfirmed (s : State) : Bool := !s.hsiReady

/-- `RCC_CFGR.PPRE1` or `PPRE2` as programmed (rule R33). -/
def State.ppre (s : State) : Bus → BitVec 3
  | .one => s.cfg.bind.ppre1.get s.regs.rccCfgr
  | .two => s.cfg.bind.ppre2.get s.regs.rccCfgr

/-- The divider code in effect (rule R43). -/
def State.effPpre (s : State) : Bus → BitVec 3
  | .one => s.hidden.effPpre1
  | .two => s.hidden.effPpre2

/-- `FLASH_ACR.LATENCY` (rule R35). -/
def State.latency (s : State) : BitVec 4 := s.cfg.bind.latency.get s.regs.flashAcr

/-- `TIM_CR1.CEN` (rule R37). -/
def State.counterOn (s : State) : Bool := isSet s.cfg.bind.cen s.regs.timCr1

/-- `DBG_APB1FZ.TIM_STOP` (rule R36). -/
def State.freezeOn (s : State) : Bool := isSet s.cfg.bind.timStop s.regs.dbgApb1fz

end Sys2Proof.Machine
end

