-- ==== Sys2Proof/Machine/Clock.lean ====
section
/-! DEFINITION. The derived frequencies (rules R161, R193) as functions of the register state. Where the spec states
no value, a division that is not exact or a switch code that is not allowed, the frequency is a free value (log 12). -/

namespace Sys2Proof.Machine

/-- `F_src` of the PLL (rule R161). -/
def State.fPllSource (s : State) : Nat := if s.pllFromHse = true then s.cfg.fHse else s.cfg.fHsi

/-- `f_pll` (rules R160, R161). -/
def State.fPll (s : State) : Nat :=
  quotient
    (quotient s.fPllSource (s.cfg.bind.pllm.get s.regs.rccPllcfgr).toNat *
      (s.cfg.bind.plln.get s.regs.rccPllcfgr).toNat)
    (pllpDiv (s.cfg.bind.pllp.get s.regs.rccPllcfgr))

/-- `f_sys`, by the switch status (rule R161). -/
def State.fSys (s : State) : Nat :=
  if s.sws = swHsi then s.cfg.fHsi
  else if s.sws = swHse then s.cfg.fHse
  else if s.sws = swPll then s.fPll
  else Config.freeSysClock s.freeCount

/-- `f_core` (rule R161). -/
def State.fCore (s : State) : Nat := quotient s.fSys (hpreDiv (s.cfg.bind.hpre.get s.regs.rccCfgr))

/-- `f_apb1`, `f_apb2`, by the dividers in effect (rule R161), in whole hertz (log 34). -/
def State.fApb (s : State) (b : Bus) : Nat := s.fCore / ppreDiv (s.effPpre b)

/-- `f_tim`, the delay timer's kernel clock: the core clock (rules R161, R193). -/
def State.fTim (s : State) : Nat := s.fCore

/-- The highest core frequency at the regulator's programmed scale, in hertz (rules R109, R163, R279). -/
def State.vosMaxHz (s : State) : Nat := Sys2Proof.vosMaxHz s.vos

/-- The tick period as kernel-clock cycles and the kernel clock's frequency (rule R78): one tick every
`cycles / hertz` seconds. -/
def State.tickPeriod (s : State) : Nat × Nat := (s.hidden.pscEff.toNat + 1, s.fTim)

end Sys2Proof.Machine
end

