-- ==== Sys2Proof/Machine/Judge.lean ====
section
/-! DEFINITION. The safety predicates of the spec (rules R176 to R179), judged on a state and its trace, and the
fault of a state that violates one. SAFE_POLL (rule R180) holds by construction of POLLEQ; it is in Safety.lean. -/

namespace Sys2Proof.Machine

/-- The rated maximum of a peripheral bus (rule R7). -/
def fApbMax (c : Config) : Bus → Nat
  | .one => c.fApb1Max
  | .two => c.fApb2Max

/-- A peripheral bus is within its rated maximum at core frequency `f`: `f / division ≤ maximum`, compared as an
exact quotient (rule R176; log 34). -/
def State.busWithin (s : State) (f : Nat) (b : Bus) : Bool :=
  decide (f ≤ fApbMax s.cfg b * ppreDiv (s.effPpre b))

/-- SAFE_BUS (rule R176). -/
def State.safeBus (s : State) (f : Nat) : Bool := s.busWithin f .one && s.busWithin f .two

/-- What the trace says of the PLL (rule R177): the last seen `PLLON`, whether a read has shown `PLLRDY` since
the last write that set `PLLON`, and whether every selection of the PLL came after such a read. -/
structure LockScan where
  pllon : Bool
  seen : Bool
  ok : Bool
  deriving DecidableEq, Repr

/-- One event's part in the reading of the trace for rule R177 (log 10), given the events before it. -/
def lockStep (b : Bind) (e : Event) (p : LockScan) : LockScan :=
  match e with
  | .rd .rccCr v => { p with pllon := isSet b.pllon v, seen := p.seen || isSet b.pllrdy v }
  | .wr .rccCr v =>
    { p with pllon := isSet b.pllon v, seen := p.seen && !(isSet b.pllon v && !p.pllon) }
  | .wr .rccCfgr v => { p with ok := p.ok && (decide (b.sw.get v ≠ swPll) || p.seen) }
  | _ => p

/-- Read the trace, newest event first, for rule R177. Before any access `PLLON` counts as 0 and no lock as seen; in a
trace with no write that set `PLLON`, any read with `PLLRDY` = 1 counts (log 10). -/
def lockScan (b : Bind) (es : List Event) : LockScan := es.foldr (lockStep b) ⟨false, false, true⟩

/-- SAFE_LOCK (rule R177): on the trace, and its form on the state. -/
def State.safeLock (s : State) : Bool :=
  (lockScan s.cfg.bind s.events).ok && (decide (s.sw ≠ swPll) || s.pllLocked)

/-- SAFE_FLASH at core frequency `f` (rule R178). Where `fwp f` has no value, above the last band and at 0 (rules
R141, R147), no count of wait-states is enough (log 12). -/
def State.safeFlash (s : State) (f : Nat) : Bool :=
  match s.cfg.fwp f with
  | none => false
  | some ws => decide (ws ≤ s.latency.toNat)

/-- The newest event is a write to `RCC_CR`: the state is the one that write has just made. -/
def State.justWroteRccCr (s : State) : Bool :=
  match s.events with
  | .wr .rccCr _ :: _ => true
  | _ => false

/-- SAFE_HSI's second half (rule R179): `HSION` is not written 0 while `SWS = 0`, judged on the state the write makes
(log 11). -/
def State.safeHsi (s : State) : Bool := !s.justWroteRccCr || s.hsiOn || decide (s.sws ≠ swHsi)

/-- The fault of a state that violates a safety predicate (rules R10, R176 to R179), judged at the core frequency of
rule R161, be that a free value (log 12). Where several fail, the first in the order of the rules is named; the spec
gives no precedence (log 38). -/
def State.violation (s : State) : Option Fault :=
  if s.safeBus s.fCore = false then some .safeBus
  else if s.safeLock = false then some .safeLock
  else if s.safeFlash s.fCore = false then some .safeFlash
  else if s.safeHsi = false then some .safeHsi
  else none

end Sys2Proof.Machine
end

