-- ==== Sys2Proof/Machine/Ops.lean ====
section
/-! DEFINITION. The shared operations: register access with its side effects (rules R46, R62, R67, R79), the
trace (rule R70), advancing `upc` (rules R23, R136), taking, completing and refusing a command (rules R225,
R226), entering FAULT mode (rule R244), and reset (rule R270). The block takes no exception and returns from
none (rules R240, R249, R250): FAULT mode and reset are all there is of that kind. -/

namespace Sys2Proof.Machine

/-- `emit E`: append an event to the trace (rules R10, R70). -/
def State.emit (s : State) (e : Event) : State := { s with events := e :: s.events }

/-- Replace the sequencer's state. -/
def State.setSeq (s : State) (q : Seq) : State := { s with seq := q }

/-- Replace the stored registers. -/
def State.setRegs (s : State) (r : Regs) : State := { s with regs := r }

/-- Replace the hidden state. -/
def State.setHidden (s : State) (h : Hidden) : State := { s with hidden := h }

/-- Replace the ports. -/
def State.setPort (s : State) (p : Port) : State := { s with port := p }

/-- Replace the moves still to come. -/
def State.setSched (s : State) (ts : List Turn) : State := { s with sched := ts }

/-- Spend one free value (log 6). -/
def State.spend (s : State) : State := { s with freeCount := s.freeCount + 1 }

/-- `phase <- p`. -/
def State.setPhase (s : State) (p : Phase) : State := s.setSeq { s.seq with phase := p }

/-- `pollcnt <- n`. -/
def State.setPollcnt (s : State) (n : Nat) : State := s.setSeq { s.seq with pollcnt := n }

/-- The stored word of a register (rules R30 to R41). -/
def Regs.get (r : Regs) : RegId → Word
  | .pwrCr => r.pwrCr | .rccCr => r.rccCr | .rccPllcfgr => r.rccPllcfgr | .rccCfgr => r.rccCfgr
  | .rccAhb1enr => r.rccAhb1enr | .flashAcr => r.flashAcr | .dbgApb1fz => r.dbgApb1fz
  | .timCr1 => r.timCr1 | .timEgr => 0 | .timCnt => r.timCnt | .timPsc => r.timPsc | .vtor => r.vtor

/-- The stored words with one replaced; `TIM_EGR` stores nothing (rule R38). -/
def Regs.set (r : Regs) (id : RegId) (v : Word) : Regs :=
  match id with
  | .pwrCr => { r with pwrCr := v }
  | .rccCr => { r with rccCr := v }
  | .rccPllcfgr => { r with rccPllcfgr := v }
  | .rccCfgr => { r with rccCfgr := v }
  | .rccAhb1enr => { r with rccAhb1enr := v }
  | .flashAcr => { r with flashAcr := v }
  | .dbgApb1fz => { r with dbgApb1fz := v }
  | .timCr1 => { r with timCr1 := v }
  | .timEgr => r
  | .timCnt => { r with timCnt := v }
  | .timPsc => { r with timPsc := v }
  | .vtor => { r with vtor := v }

/-- `RegRead(r)`: the stored bits; bits the register does not have read 0 (rules R10, R38, R39, R40, R46). No
read has a side effect (rule R67). -/
def State.regRead (s : State) (r : RegId) : Word := s.regs.get r &&& s.cfg.implMask r

/-- The `rw` bits a write reaches now: those of `RCC_PLLCFGR` only while the PLL is off (rule R280; log 14). -/
def State.rwNow (s : State) (r : RegId) : Word :=
  if r = .rccPllcfgr ∧ s.pllOn = true then 0 else s.cfg.rwMask r

/-- The word a register holds after `v` is written to it: the `rw` bits from `v`, every other bit as held (rules
R46, R65, R67). That holds of `ro` bits by rule R46, and of `untouched` bits because a write does nothing beyond
storing the `rw` bits (log 5). -/
def State.storedWord (s : State) (r : RegId) (v : Word) : Word :=
  (v &&& s.rwNow r) ||| (s.regs.get r &&& ~~~s.rwNow r)

/-- Store a written word. -/
def State.store (s : State) (r : RegId) (v : Word) : State := s.setRegs (s.regs.set r (s.storedWord r v))

/-- The update-generation side effect (rule R79): counter to zero, prescaler taken over. -/
def State.rearm (s : State) : State :=
  (s.setRegs { s.regs with timCnt := 0 }).setHidden
    { s.hidden with pscEff := s.cfg.bind.psc.get s.regs.timPsc }

/-- `RegWrite(r, v)` with its side effects (rules R10, R46, R67): a write to `TIM_EGR` re-arms the counter if
`UG` is set, whatever its other bits (log 22), and stores nothing; every other register stores. -/
def State.regWrite (s : State) (r : RegId) (v : Word) : State :=
  match r with
  | .timEgr => if isSet s.cfg.bind.ug v = true then s.rearm else s
  | _ => s.store r v

/-- `x[1] <- RegRead(reg); emit Rd(reg, x[1])` (rules R131, R133, R134). -/
def State.readReg (s : State) (r : RegId) : State :=
  (s.setSeq { s.seq with rd := s.regRead r }).emit (.rd r (s.regRead r))

/-- `RegWrite(reg, v); emit Wr(reg, v)` (rules R131, R132). -/
def State.writeReg (s : State) (r : RegId) (v : Word) : State := (s.regWrite r v).emit (.wr r v)

/-- `upc <- upc + 1`; the model refuses an increment from 31 (rules R23, R136). -/
def State.nextUpc (s : State) : Result :=
  if s.seq.upc = 31#5 then .refused (.illegalMicroOp 31#5)
  else .next (s.setSeq { s.seq with upc := s.seq.upc + 1#5 })

/-- `refuse(illegal micro-op at upc)` (rule R136). -/
def State.refuseIllegal (s : State) : Result := .refused (.illegalMicroOp s.seq.upc)

/-- Whether `pollcnt` has reached `POLL_LIMIT` (rules R133, R243). -/
def limitReached (limit : Option Nat) (n : Nat) : Bool :=
  match limit with
  | none => false
  | some l => decide (l ≤ n)

/-- FAULT mode is entered: `upc` keeps the poll's address (rule R244). -/
def State.enterFault (s : State) : State :=
  (s.setSeq { s.seq with mode := .fault }).emit (.fault (.pollLimit s.seq.upc))

/-- An unsatisfied iteration of POLLEQ (rules R133, R243). -/
def State.pollAgain (s : State) : State :=
  if limitReached s.cfg.pollLimit (s.seq.pollcnt + 1) = true then
    (s.setPollcnt (s.seq.pollcnt + 1)).enterFault
  else s.setPollcnt (s.seq.pollcnt + 1)

/-- A command is taken off the port: `emit Accept(op, arg)` (rule R225). -/
def State.accept (s : State) (op : Nibble) (arg : Word) : State :=
  (s.setPort { s.port with cmdIn := none }).emit (.accept op arg)

/-- `done` pulses with a response and `emit Done(op, resp)` (rules R116, R135, R223). -/
def State.complete (s : State) (op : Nibble) (resp : Word) : State :=
  (s.setPort { s.port with done := true, resp := resp }).emit (.done op resp)

/-- A command is refused: `done` pulses with `resp = 0xFFFF_FFFF`, the event is `Refused`, nothing else changes
(rule R226; log 7). -/
def State.reject (s : State) (op : Nibble) (why : RefuseReason) : State :=
  (s.setPort { s.port with done := true, resp := 0xFFFFFFFF#32 }).emit (.refused op why)

/-- A program is launched with the sequencer state `q`; the model refuses the launch when the registers are not
reachable (rules R68, R274). -/
def State.launch (s : State) (q : Seq) : Result :=
  if s.accessible = true then .next (s.setSeq q) else .refused .notAccessible

/-- The `done` pulse ends: it lasts one step; `resp` is no longer valid and is free (rule R116; log 6). -/
def State.endPulse (s : State) : State :=
  if s.port.done = true then
    (s.setPort { s.port with done := false, resp := Config.freeWord s.freeCount }).spend
  else s

/-- The registers after a reset of a kind (rule R272): `HSICAL` keeps its factory value, and a system reset
keeps the debug unit's freeze register. -/
def State.resetRegs (s : State) : ResetKind → Regs
  | .blockOnly => s.regs
  | .system =>
    { Regs.reset s.cfg (s.cfg.bind.hsical.get s.regs.rccCr) with dbgApb1fz := s.regs.dbgApb1fz }
  | .powerOn => Regs.reset s.cfg (s.cfg.bind.hsical.get s.regs.rccCr)

/-- The hidden state after a reset of a kind (rule R272). -/
def State.resetHidden (s : State) : ResetKind → Hidden
  | .blockOnly => s.hidden
  | .system => Hidden.reset s.cfg
  | .powerOn => Hidden.reset s.cfg

/-- `rst_n` goes low (rules R270 to R272): the sequencer and the outputs take their reset values, a pending
command is dropped, a new trace begins (log 18). -/
def State.assertReset (s : State) (k : ResetKind) : State :=
  { s with
    seq := Seq.reset
    regs := s.resetRegs k
    hidden := s.resetHidden k
    port := { Port.reset with rstN := false }
    events := [] }

/-- `rst_n` goes high (rule R270). -/
def State.releaseReset (s : State) : State := s.setPort { s.port with rstN := true }

end Sys2Proof.Machine
end

