-- ==== Sys2Proof/Machine/Commands.lean ====
section
/-! DEFINITION. The meanings of the three host commands (rules R221 to R223) and of a reserved command (rule
R224): what taking the command does, once it is taken (`State.cmdReady`, Machine/Turns.lean). -/

namespace Sys2Proof.Machine

/-- `INIT` (rule R221): refused after a completed INIT, else the INIT program starts. -/
def execInit (arg : Word) (s : State) : Result :=
  if s.seq.initDone = true then .next ((s.accept opInit arg).reject opInit .alreadyInitialised)
  else
    (s.accept opInit arg).launch
      { s.seq with cmd := opInit, upc := s.cfg.initEntry, phase := .read, pollcnt := 0, mode := .run }

/-- `DELAY n` (rule R222): refused before INIT has completed, else `x[0] <- n` and the DELAY program starts. -/
def execDelay (arg : Word) (s : State) : Result :=
  if s.seq.initDone = false then .next ((s.accept opDelay arg).reject opDelay .notInitialised)
  else
    (s.accept opDelay arg).launch
      { s.seq with us := arg, cmd := opDelay, upc := s.cfg.delayEntry, phase := .read, mode := .run }

/-- `CPUF` (rule R223): answers `F_REPORTED`, a free word if it does not fit 32 bits (log 35); no register access, no
other change. -/
def execCpuf (arg : Word) (s : State) : Result :=
  .next ((s.accept opCpuf arg).complete opCpuf s.cfg.reportWord)

/-- A reserved command is taken and refused (rule R224). -/
def State.rejectReserved (s : State) (w : CmdWord) : State :=
  (s.accept (cmdOp w) (cmdArg w)).reject (cmdOp w) .reserved

end Sys2Proof.Machine
end

