-- ==== Sys2Proof/Machine/MicroOps.lean ====
section
/-! DEFINITION. The meanings of the five micro-ops (rules R131 to R136): what one SEQ step does once SEQ has the
step (`State.seqReady`, Machine/Turns.lean). -/

namespace Sys2Proof.Machine

/-- `RMW reg, a, b` (rule R131): phase 0 reads, phase 1 writes `(x[1] & ~a) | b` and advances. -/
def execRmw (reg : RegId) (a b : Word) (s : State) : Result :=
  if Instr.wf (.rmw reg a b) = true then
    match s.seq.phase with
    | .read => .next ((s.readReg reg).setPhase .write)
    | .write => ((s.writeReg reg ((s.seq.rd &&& ~~~a) ||| b)).setPhase .read).nextUpc
  else s.refuseIllegal

/-- `WR reg, b` (rule R132): write the whole word and advance; no read precedes it. -/
def execWr (reg : RegId) (b : Word) (s : State) : Result :=
  if Instr.wf (.wr reg b) = true then (s.writeReg reg b).nextUpc else s.refuseIllegal

/-- `POLLEQ reg, a, b` (rule R133): read; advance if the masked bits equal the value, else count the iteration
and stay, or enter FAULT mode at the limit (rules R243, R244). -/
def execPollEq (reg : RegId) (a b : Word) (s : State) : Result :=
  if Instr.wf (.pollEq reg a b) = true then
    if s.regRead reg &&& a = b then ((s.readReg reg).setPollcnt 0).nextUpc
    else .next (s.readReg reg).pollAgain
  else s.refuseIllegal

/-- `POLLGE reg` (rule R134): read; advance if the value is at least `x[0]`, unsigned, else stay. -/
def execPollGe (reg : RegId) (s : State) : Result :=
  if Instr.wf (.pollGe reg) = true then
    if s.seq.us ≤ s.regRead reg then (s.readReg reg).nextUpc else .next (s.readReg reg)
  else s.refuseIllegal

/-- `END` (rule R135): IDLE, `Done(cmd, 0)`, and `init_done` if the program was INIT's; `upc` unchanged. -/
def execEndProg (s : State) : Result :=
  .next ((s.setSeq
    { s.seq with
      mode := .idle
      initDone := s.seq.initDone || decide (s.seq.cmd = opInit) }).complete s.seq.cmd 0#32)

end Sys2Proof.Machine
end

