-- ==== Sys2Proof/Machine/Dispatch.lean ====
section
/-! DEFINITION. One arm per instruction: the direct call of its meaning. -/

namespace Sys2Proof.Machine

/-- What an instruction does in a state in which its agent has the step. -/
def exec (i : Instr) (s : State) : Host.Outcome State Fault Refusal :=
  match i with
  | .rmw reg a b => Sys2Proof.Machine.execRmw reg a b s
  | .wr reg b => Sys2Proof.Machine.execWr reg b s
  | .pollEq reg a b => Sys2Proof.Machine.execPollEq reg a b s
  | .pollGe reg => Sys2Proof.Machine.execPollGe reg s
  | .endProg => Sys2Proof.Machine.execEndProg s
  | .init arg => Sys2Proof.Machine.execInit arg s
  | .delay arg => Sys2Proof.Machine.execDelay arg s
  | .cpuf arg => Sys2Proof.Machine.execCpuf arg s

end Sys2Proof.Machine
end

