-- ==== Sys2Proof/Machine/Env.lean ====
section
/-! DEFINITION. The environment agents (rules R72 to R80): when each is enabled and what its step does. A step of
an agent that is not enabled changes nothing (log 28). -/

namespace Sys2Proof.Machine

/-- Replace the stored word of `RCC_CR`; only the environment writes its `ro` bits (rule R46). -/
def State.setRccCr (s : State) (w : Word) : State := s.setRegs { s.regs with rccCr := w }

/-- ENV.HSE is enabled to report ready (rule R73). -/
def State.hseEnabled (s : State) : Bool := s.hseOn && !s.hseReady

/-- ENV.HSE is enabled to report not ready: the enable bit was cleared (rule R73; log 13). -/
def State.hseFallEnabled (s : State) : Bool := !s.hseOn && s.hseReady

/-- ENV.HSE's step (rule R73). -/
def State.hseStep (s : State) : State :=
  if s.hseEnabled = true then
    (s.setRccCr (s.cfg.bind.hserdy.put 1#1 s.regs.rccCr)).emit (.env .hse .hserdy 1#32)
  else if s.hseFallEnabled = true then
    (s.setRccCr (s.cfg.bind.hserdy.put 0#1 s.regs.rccCr)).emit (.env .hse .hserdy 0#32)
  else s

/-- The PLL's selected source is ready (rule R74). -/
def State.pllSourceReady (s : State) : Bool := if s.pllFromHse = true then s.hseReady else s.hsiReady

/-- ENV.PLL is enabled (rule R74). -/
def State.pllEnabled (s : State) : Bool := s.pllOn && !s.pllLocked && s.pllSourceReady

/-- ENV.PLL's step (rule R74). -/
def State.pllStep (s : State) : State :=
  if s.pllEnabled = true then
    (s.setRccCr (s.cfg.bind.pllrdy.put 1#1 s.regs.rccCr)).emit (.env .pll .pllrdy 1#32)
  else s

/-- The clock source of an `SW` code is ready; no source has the code that is not allowed (rules R75, R111). -/
def State.sourceReady (s : State) (code : BitVec 2) : Bool :=
  if code = swHsi then s.hsiReady
  else if code = swHse then s.hseReady
  else if code = swPll then s.pllLocked
  else false

/-- ENV.SW is enabled (rule R75). -/
def State.swEnabled (s : State) : Bool := decide (s.sws ≠ s.sw) && s.sourceReady s.sw

/-- ENV.SW's step (rule R75). -/
def State.swStep (s : State) : State :=
  if s.swEnabled = true then
    (s.setRegs { s.regs with rccCfgr := s.cfg.bind.sws.put s.sw s.regs.rccCfgr }).emit
      (.env .sw .sws (s.sw.setWidth 32))
  else s

/-- The internal oscillator is in use: it drives the system clock, or is the source of the PLL that is on (rule
R76; log 15). -/
def State.hsiInUse (s : State) : Bool := decide (s.sws = swHsi) || (s.pllOn && !s.pllFromHse)

/-- ENV.HSI is enabled (rule R76). -/
def State.hsiEnabled (s : State) : Bool := !s.hsiOn && s.hsiReady && !s.hsiInUse

/-- ENV.HSI's step (rule R76). -/
def State.hsiStep (s : State) : State :=
  if s.hsiEnabled = true then
    (s.setRccCr (s.cfg.bind.hsirdy.put 0#1 s.regs.rccCr)).emit (.env .hsi .hsirdy 0#32)
  else s

/-- The divider in effect on a bus differs from the programmed one (rule R77). -/
def State.divPending (s : State) (b : Bus) : Bool := decide (s.effPpre b ≠ s.ppre b)

/-- ENV.DIV is enabled (rule R77). -/
def State.divEnabled (s : State) : Bool := s.divPending .one || s.divPending .two

/-- ENV.DIV's step for one bus (rule R77). -/
def State.divStep (s : State) (b : Bus) : State :=
  if s.divPending b = true then
    match b with
    | .one =>
      (s.setHidden { s.hidden with effPpre1 := s.ppre .one }).emit
        (.env .div .ppre1 ((s.ppre .one).setWidth 32))
    | .two =>
      (s.setHidden { s.hidden with effPpre2 := s.ppre .two }).emit
        (.env .div .ppre2 ((s.ppre .two).setWidth 32))
  else s

/-- ENV.TICK is enabled (rule R78). -/
def State.tickEnabled (s : State) : Bool := s.counterOn && !(s.freezeOn && s.hidden.coreHalted)

/-- The counter's next value (rule R78): up, in the bits it has. -/
def State.nextCnt (s : State) : Word :=
  if s.regs.timCnt = s.hidden.arr then 0 else (s.regs.timCnt + 1) &&& s.cfg.cntMask

/-- ENV.TICK's step (rule R78): the wrap at `arr` is an update event and takes the prescaler over. -/
def State.tickStep (s : State) : State :=
  if s.tickEnabled = true then
    ((s.setRegs { s.regs with timCnt := s.nextCnt }).setHidden
      { s.hidden with
        pscEff :=
          if s.regs.timCnt = s.hidden.arr then s.cfg.bind.psc.get s.regs.timPsc else s.hidden.pscEff }).emit
      (.tick s.nextCnt)
  else s

/-- ENV.DBG's step (rule R80; log 17). -/
def State.haltStep (s : State) (stopped : Bool) : State :=
  (s.setHidden { s.hidden with coreHalted := stopped }).emit
    (.env .dbg .coreHalted (if stopped then 1#32 else 0#32))

end Sys2Proof.Machine
end

