-- ==== Sys2Proof/Machine/Ports.lean ====
section
/-! DEFINITION. The outputs of the block as functions of the state (rules R26, R116, R220). -/

namespace Sys2Proof.Machine

/-- `cmd_ready`: `mode = IDLE` while `rst_n = 1` (rule R220). -/
def State.cmdReady (s : State) : Bool := decide (s.seq.mode = .idle) && s.port.rstN

/-- `busy`: `mode = RUN` (rule R26). -/
def State.busy (s : State) : Bool := decide (s.seq.mode = .run)

/-- `fault`: `mode = FAULT` (rule R26). -/
def State.faultOut (s : State) : Bool := decide (s.seq.mode = .fault)

/-- `upc_out` (rule R116). -/
def State.upcOut (s : State) : RomAddr := s.seq.upc

/-- `cmd_valid` (rule R220). -/
def State.cmdValid (s : State) : Bool := s.port.cmdIn.isSome

/-- The response, valid with `done` (rule R116). -/
def State.response (s : State) : Option Word := if s.port.done = true then some s.port.resp else none

/-- One completed access on the register-interface master port (rule R220): `reg_we`, `reg_addr`, and
`reg_wdata` or `reg_rdata`. -/
structure BusAccess where
  we : Bool
  addr : Word
  data : Word
  deriving DecidableEq, Repr

/-- The access an event shows on the master port, with the address of `BIND` (rules R62, R66). -/
def busAccess (c : Config) : Event → Option BusAccess
  | .rd r v => some ⟨false, c.addr r, v⟩
  | .wr r v => some ⟨true, c.addr r, v⟩
  | .accept _ _ => none
  | .done _ _ => none
  | .refused _ _ => none
  | .env _ _ _ => none
  | .tick _ => none
  | .fault _ => none

/-- The accesses on the master port so far, newest first: one at a time, each complete (rule R69). -/
def State.busTrace (s : State) : List BusAccess := s.events.filterMap (busAccess s.cfg)

/-- The trace in the order of rule R70, oldest event first. -/
def State.trace (s : State) : List Event := s.events.reverse

end Sys2Proof.Machine
end

