-- ==== Sys2Proof/Machine/Turns.lean ====
section
/-! DEFINITION. The moves of the agents: SEQ's fetch and step (rule R130), the taking of a command (rule R225),
the environment's steps, HOST's and the reset input's (rules R220, R270), and which agent moves next (log 1). -/

namespace Sys2Proof.Machine

/-- SEQ has a step: `mode = RUN`, `core_halted = 0`, ENV.DIV not enabled (rule R130), `rst_n = 1` (rule R270). -/
def State.seqReady (s : State) : Bool :=
  decide (s.seq.mode = .run) && !s.hidden.coreHalted && !s.divEnabled && s.port.rstN

/-- `ROM[upc]` (rule R130). -/
def State.fetch (s : State) : UopWord := Rom.read s.rom s.seq.upc

/-- SEQ's move: one step of the fetched micro-op; an illegal word is refused (rules R130, R136). -/
def State.seqTurn (s : State) : Result :=
  if s.seqReady = true then
    match decodeMicroOp s.fetch with
    | .ok i => exec i s
    | .error _ => s.refuseIllegal
  else .next s

/-- The presented command is taken, if `cmd_ready` (rules R220, R224, R225). -/
def State.takeTurn (s : State) : Result :=
  if s.cmdReady = true then
    match s.port.cmdIn with
    | none => .next s
    | some w =>
      match decodeCommand w with
      | .ok i => exec i s
      | .error _ => .next (s.rejectReserved w)
  else .next s

/-- HOST presents a command; one already presented is held, and none is held during reset (rules R220, R270). -/
def State.presentTurn (s : State) (w : CmdWord) : State :=
  if s.port.rstN = true ∧ s.port.cmdIn = none then s.setPort { s.port with cmdIn := some w } else s

/-- Another user's trigger of `TIM_EGR.UG` (rules R81, R201; log 25): after bring-up and with no program running
it re-arms the counter; otherwise the registers are the block's own and the model refuses. -/
def State.foreignUgTurn (s : State) : Result :=
  if s.seq.mode = .idle ∧ s.seq.initDone = true then .next s.rearm else .refused .foreignAccess

/-- One move. -/
def runTurn (t : Turn) (s : State) : Result :=
  match t with
  | .seq => s.seqTurn
  | .take => s.takeTurn
  | .present w => .next (s.presentTurn w)
  | .hse => .next s.hseStep
  | .pll => .next s.pllStep
  | .sw => .next s.swStep
  | .hsi => .next s.hsiStep
  | .div b => .next (s.divStep b)
  | .tick => .next s.tickStep
  | .halt stopped => .next (s.haltStep stopped)
  | .resetLow k => .next (s.assertReset k)
  | .resetHigh => .next s.releaseReset
  | .foreignUg => s.foreignUgTurn
  | .idle => .next s

/-- The newest event is a tick: the counter has moved since the block last did. -/
def State.justTicked (s : State) : Bool :=
  match s.events with
  | .tick _ :: _ => true
  | _ => false

/-- The bus whose divider ENV.DIV applies when no move is settled: the one that differs, either if both do (rule
R77; log 16). -/
def State.divChoice (s : State) : Bus :=
  if s.divPending .one = true then
    if s.divPending .two = true then Config.freeBus s.freeCount else .one
  else .two

/-- The move when none is settled (log 1): ENV.DIV at once (rule R77), the counter and SEQ in turn (rules R78,
R130), a presented command as soon as it can be taken (rule R220). -/
def State.defaultTurn (s : State) : Turn :=
  if s.divEnabled = true then .div s.divChoice
  else if s.tickEnabled = true ∧ s.justTicked = false then .tick
  else if s.seqReady = true then .seq
  else if s.cmdReady = true ∧ s.cmdValid = true then .take
  else if s.tickEnabled = true then .tick
  else .idle

/-- The next move. -/
def State.nextTurn (s : State) : Turn :=
  match s.sched with
  | t :: _ => t
  | [] => s.defaultTurn

/-- The next move is made and, if it was a settled one, used up. -/
def State.move (s : State) : Result := runTurn s.nextTurn (s.setSched s.sched.tail)

/-- The move the settled ones begin with, if SEQ or HOST would not move by itself: see `State.placeUop` and
`State.placeCmd`. -/
def State.forceTurn (s : State) (t : Turn) : State :=
  if s.defaultTurn = t then s else s.setSched [t]

/-- SEQ is about to run the micro-op word `w`: the word stands at `ROM[upc]`, SEQ has a step and it is SEQ's
move. -/
def State.placeUop (s : State) (w : UopWord) : State :=
  let s1 : State :=
    { s with
      rom := Rom.write s.rom s.seq.upc w
      seq := { s.seq with mode := .run, phase := .read }
      hidden := { s.hidden with coreHalted := false, effPpre1 := s.ppre .one, effPpre2 := s.ppre .two }
      port := { s.port with rstN := true }
      sched := [] }
  s1.forceTurn .seq

/-- The command word `w` is presented and can be taken, and the taking is the next move. -/
def State.placeCmd (s : State) (w : CmdWord) : State :=
  let s1 : State :=
    { s with
      seq := { s.seq with mode := .idle }
      port := { s.port with rstN := true, cmdIn := some w }
      sched := [] }
  s1.forceTurn .take

/-- The word of the opcode table, placed where the next step takes its instruction from; a number that is no
word places nothing. -/
def State.placeTableWord (s : State) (nbits w : Nat) : State :=
  match tableWord nbits w with
  | none => s
  | some (.uop v) => s.placeUop v
  | some (.cmd v) => s.placeCmd v

end Sys2Proof.Machine
end

