-- ==== Sys2Proof/Machine/Step.lean ====
section
/-! DEFINITION. One step of the machine: the configuration and the safety predicates are judged (rules R8, R176 to
R179), the `done` pulse of the step before ends (rule R116), one agent moves (rules R69, R72). -/

namespace Sys2Proof.Machine

/-- One step. -/
def step (s : State) : Host.Outcome State Fault Refusal :=
  if s.cfg.wf = true then
    match s.violation with
    | some f => .fault f
    | none => s.endPulse.move
  else .refused .configNotWellFormed

/-- `s` with the word placed where `step` takes its next instruction from (log 3). -/
def State.withFetchWord (s : State) (nbits w : Nat) : State := s.placeTableWord nbits w

end Sys2Proof.Machine
end

