-- ==== Sys2Proof/Machine/Listing.lean ====
section
/-! DEFINITION. Names for a reader: the states of the INIT program (rule R151) and the assembler's text of an
instruction (rule R114). Nothing of the machine's behaviour rests on this file. -/

namespace Sys2Proof

/-- The named states of the INIT program (rule R151). -/
inductive InitState where
  | s1Vreg | s2HseOn | s2HseWait | s3PllCfg | s4PllOn | s4PllWait | s5Flash | s6DivMax | s7SwPll | s7SwWait
  | s8HsiOff | s8HsiWait | s9DivFinal | s10Gates | s11TimFreeze | s11TimPsc | s11TimStart | s12Vtor | sEnd
  deriving DecidableEq, Repr

/-- The state of the INIT program at a ROM address (rule R151, whose addresses count from `INIT_ENTRY`). -/
def initStateAt (c : Config) (upc : RomAddr) : Option InitState :=
  match (upc - c.initEntry).toNat with
  | 0 => some .s1Vreg | 1 => some .s2HseOn | 2 => some .s2HseWait | 3 => some .s3PllCfg
  | 4 => some .s4PllOn | 5 => some .s4PllWait | 6 => some .s5Flash | 7 => some .s6DivMax
  | 8 => some .s7SwPll | 9 => some .s7SwWait | 10 => some .s8HsiOff | 11 => some .s8HsiWait
  | 12 => some .s9DivFinal | 13 => some .s10Gates | 14 => some .s11TimFreeze | 15 => some .s11TimPsc
  | 16 => some .s11TimStart | 17 => some .s12Vtor | 18 => some .sEnd
  | _ => none

/-- The step of the source's list that a state belongs to (rule R151); `sEnd` comes after step 12. -/
def InitState.sourceStep : InitState → Nat
  | .s1Vreg => 1 | .s2HseOn => 2 | .s2HseWait => 2 | .s3PllCfg => 3 | .s4PllOn => 4 | .s4PllWait => 4
  | .s5Flash => 5 | .s6DivMax => 6 | .s7SwPll => 7 | .s7SwWait => 7 | .s8HsiOff => 8 | .s8HsiWait => 8
  | .s9DivFinal => 9 | .s10Gates => 10 | .s11TimFreeze => 11 | .s11TimPsc => 11 | .s11TimStart => 11
  | .s12Vtor => 12 | .sEnd => 13

/-- A state that is a poll and can last for ever (rule R151). -/
def InitState.isWait : InitState → Bool
  | .s2HseWait => true | .s4PllWait => true | .s7SwWait => true | .s8HsiWait => true
  | _ => false

/-- The register's name in assembler text (rules R104, R114). -/
def RegId.asm : RegId → String
  | .pwrCr => "PWR_CR" | .rccCr => "RCC_CR" | .rccPllcfgr => "RCC_PLLCFGR" | .rccCfgr => "RCC_CFGR"
  | .rccAhb1enr => "RCC_AHB1ENR" | .flashAcr => "FLASH_ACR" | .dbgApb1fz => "DBG_APB1FZ"
  | .timCr1 => "TIM_CR1" | .timEgr => "TIM_EGR" | .timCnt => "TIM_CNT" | .timPsc => "TIM_PSC"
  | .vtor => "VTOR"

/-- A word in assembler text. -/
def asmWord (w : Word) : String := "0x" ++ w.toHex

/-- The assembler's text of an instruction (rule R114). -/
def Instr.asm : Instr → String
  | .rmw r a b => "RMW " ++ r.asm ++ ", " ++ asmWord a ++ ", " ++ asmWord b
  | .wr r b => "WR " ++ r.asm ++ ", " ++ asmWord b
  | .pollEq r a b => "POLLEQ " ++ r.asm ++ ", " ++ asmWord a ++ ", " ++ asmWord b
  | .pollGe r => "POLLGE " ++ r.asm
  | .endProg => "END"
  | .init _ => "INIT"
  | .delay n => "DELAY " ++ asmWord n
  | .cpuf _ => "CPUF"

end Sys2Proof
end

