-- ==== Sys2Proof/Safety.lean ====
section
/-! DEFINITION. What counts as a safe run and the premises claims take: `CleanReset`, `EnvAccessible`,
`EnvResponsive` (rules R45, R68, R82), the end of a run and a hang (rules R227, R241), SAFE_POLL (rule R180), the
model's structural invariant, and the invariant of the block's own programs under which no safety predicate
fails (rule R181). -/

namespace Sys2Proof

/-- The default configuration up to its OPEN parameters: the delay timer, the ports, the counter's width, the
vector-table address and the poll limit are any (rule R7; 93 U17), and `ARR_RESET` is all ones of the counter's
width. -/
def Config.closedDefault (c : Config) : Prop :=
  c = { Config.default with
    portEnMask := c.portEnMask
    cntWidth := c.cntWidth
    arrReset := c.cntMask
    vtorAddr := c.vtorAddr
    pollLimit := c.pollLimit
    ticksPerPollMax := c.ticksPerPollMax
    bind := Bind.stm32f411 c.bind.timer }

end Sys2Proof

namespace Sys2Proof.Machine

/-- A state that violates no safety predicate (rules R176 to R179). -/
def State.Safe (s : State) : Prop := s.violation = none

/-- The launch premise `CleanReset` (rule R45): `HSICAL` is any value. -/
def State.CleanReset (s : State) : Prop :=
  s.seq = Seq.reset ∧ s.regs = Regs.reset s.cfg (s.cfg.bind.hsical.get s.regs.rccCr) ∧
    s.hidden = Hidden.reset s.cfg

/-- The launch premise `EnvAccessible` (rule R68). -/
def State.EnvAccessible (s : State) : Prop := s.accessible = true

/-- The block's own ROM under a well-formed configuration (rules R8, R61, R152). -/
def State.OwnRom (s : State) : Prop := s.cfg.wf = true ∧ s.rom = s.cfg.rom

/-- An infinite execution: the agent that moves at each step, and the states. -/
structure Execution where
  turn : Nat → Turn
  state : Nat → State
  moves : ∀ n, step ((state n).setSched [turn n]) = .next (state (n + 1))

/-- An agent whose move `t` is enabled when `en` holds is weakly fair (rule R82): it does not stay enabled for
ever without moving. -/
def Execution.WeaklyFair (e : Execution) (en : State → Bool) (t : Turn → Bool) : Prop :=
  ∀ n, ∃ m, n ≤ m ∧ (en (e.state m) = false ∨ t (e.turn m) = true)

/-- The premise `EnvResponsive` (rule R82). -/
def Execution.EnvResponsive (e : Execution) : Prop :=
  e.WeaklyFair State.hseEnabled (fun t => decide (t = .hse)) ∧
  e.WeaklyFair State.pllEnabled (fun t => decide (t = .pll)) ∧
  e.WeaklyFair State.swEnabled (fun t => decide (t = .sw)) ∧
  e.WeaklyFair State.hsiEnabled (fun t => decide (t = .hsi))

/-- The agents the spec makes fair without a premise: SEQ, the counter and the dividers (rules R77, R78, R130). -/
def Execution.BlockFair (e : Execution) : Prop :=
  e.WeaklyFair State.seqReady (fun t => decide (t = .seq)) ∧
  e.WeaklyFair State.tickEnabled (fun t => decide (t = .tick)) ∧
  e.WeaklyFair (fun s => s.divPending .one) (fun t => decide (t = .div .one)) ∧
  e.WeaklyFair (fun s => s.divPending .two) (fun t => decide (t = .div .two))

/-- A debugger is never attached (rule R80, the model's default). -/
def Execution.NoDebugger (e : Execution) : Prop := ∀ n b, e.turn n ≠ .halt b

/-- The newest event ends a run (rule R227). -/
def State.runEnded (s : State) : Bool :=
  match s.events with
  | .done _ _ :: _ => true
  | .refused _ _ :: _ => true
  | .fault _ :: _ => true
  | _ => false

/-- A hang (rules R227, R241): from some step on a program runs and no event that ends the run ever comes. -/
def Execution.Hangs (e : Execution) : Prop :=
  ∃ n, ∀ m, n ≤ m → (e.state m).busy = true ∧ (e.state m).runEnded = false

/-- SAFE_POLL (rules R180, R242): `upc` passes a POLLEQ only at a step whose read satisfied its condition. -/
def SafePoll (s t : State) : Prop :=
  ∀ r a b, decodeMicroOp s.fetch = .ok (.pollEq r a b) → s.busy = true → t.busy = true →
    t.seq.upc ≠ s.seq.upc → t.seq.rd &&& a = b ∧ t.seq.rd = s.regRead r

/-- The counter advances by at most `limit` between two consecutive reads of one wait, in a trace newest first (rule
R198, `TICKS_PER_POLL_MAX`). `later` is the number of ticks before the next read of the same wait; it is none where
no read of that wait comes later. A wait lies between the write of `TIM_EGR` that re-arms and the end of its run (rules
R194, R227). -/
def ticksPerPollOk (limit : Nat) (later : Option Nat) : List Event → Bool
  | [] => true
  | .tick _ :: es => ticksPerPollOk limit (later.map (· + 1)) es
  | .rd .timCnt _ :: es => later.all (fun k => decide (k ≤ limit)) && ticksPerPollOk limit (some 0) es
  | .wr .timEgr _ :: es => ticksPerPollOk limit none es
  | .accept _ _ :: es => ticksPerPollOk limit none es
  | .done _ _ :: es => ticksPerPollOk limit none es
  | .refused _ _ :: es => ticksPerPollOk limit none es
  | .fault _ :: es => ticksPerPollOk limit none es
  | _ :: es => ticksPerPollOk limit later es

/-- How many ticks the trace shows since the counter was last re-armed by SEQ (rules R79, R195, R198), in a trace
newest first; none before any re-arm. -/
def ticksSinceRearm (b : Bind) : List Event → Option Nat
  | [] => none
  | .tick _ :: es => (ticksSinceRearm b es).map (· + 1)
  | .wr .timEgr v :: es => if isSet b.ug v = true then some 0 else ticksSinceRearm b es
  | _ :: es => ticksSinceRearm b es

/-- The counter never shows more than the ticks since its re-arm (rules R195, R198): no wait is short. -/
def State.CounterInv (s : State) : Prop :=
  ∀ k, ticksSinceRearm s.cfg.bind s.events = some k → s.regs.timCnt.toNat ≤ k

/-- One agent makes its move `n` times with no other agent moving between. -/
def turns (m : Turn) : Nat → State → Result
  | 0, s => .next s
  | n + 1, s =>
    match runTurn m s with
    | .next t => turns m n t
    | .fault f => .fault f
    | .refused r => .refused r

/-- The structural invariant of the model: the ROM is in canonical form; the counter and the prescaler hold only
bits they have (rules R39, R40); `arr` holds `ARR_RESET` and the counter is not above it (rules R43, R78); FAULT mode
only with a poll limit (rule R22);
the write phase only inside an RMW (rule R25); reset values while `rst_n = 0` (rule R270). -/
def State.Inv (s : State) : Prop :=
  Rom.wf s.rom = true ∧
  s.regs.timCnt &&& ~~~s.cfg.cntMask = 0 ∧
  s.regs.timPsc &&& ~~~s.cfg.bind.psc.mask = 0 ∧
  s.hidden.arr = s.cfg.arrReset ∧
  s.regs.timCnt.toNat ≤ s.hidden.arr.toNat ∧
  (s.seq.mode = .fault → s.cfg.pollLimit ≠ none) ∧
  (s.seq.phase = .write → s.seq.mode = .run ∧ ∃ r a b, decodeMicroOp s.fetch = .ok (.rmw r a b)) ∧
  (s.port.rstN = false → s.seq = Seq.reset ∧ s.port.cmdIn = none ∧ s.port.done = false)

/-- The PLL is configured as step 3 leaves it (rule R165). -/
def State.pllConfigured (s : State) : Prop := s.regs.rccPllcfgr &&& s.cfg.pllMask = s.cfg.pllValue

/-- The peripheral-bus-1 code divides by 2 or by 16: the values steps 6 and 9 write (rules R168, R171). -/
def slowBus1 (code : BitVec 3) : Prop := code = 0b111#3 ∨ code = 0b100#3

/-- What the clock tree's registers obey whatever the block is doing (rule R181). -/
def State.ClockInv (s : State) : Prop :=
  (s.sw = swHsi ∨ s.sw = swPll) ∧
  (s.sws = swHsi ∨ s.sws = swPll) ∧
  (s.sws = swPll → s.sw = swPll) ∧
  (s.sw = swPll → s.pllOn = true ∧ s.pllLocked = true ∧ s.latency = 3#4 ∧ slowBus1 (s.ppre .one) ∧
    slowBus1 (s.effPpre .one)) ∧
  s.cfg.bind.hpre.get s.regs.rccCfgr = 0#4 ∧
  (s.hsiOn = false → s.sws = swPll) ∧
  (s.pllOn = true → s.pllConfigured)

/-- What the trace says of the PLL agrees with the registers (rule R177). -/
def State.LockInv (s : State) : Prop :=
  (lockScan s.cfg.bind s.events).ok = true ∧
  ((lockScan s.cfg.bind s.events).pllon = true → s.pllOn = true)

/-- What each address of the INIT program may count on: the effects of the steps before it (rules R150, R163 to
R171). -/
def State.StepInv (s : State) : Prop :=
  (s.seq.upc.toNat ≤ 18 ∨ (24 ≤ s.seq.upc.toNat ∧ s.seq.upc.toNat ≤ 26)) ∧
  (s.seq.upc.toNat ≤ 18 →
    (4 ≤ s.seq.upc.toNat → s.pllConfigured) ∧
    (5 ≤ s.seq.upc.toNat → s.pllOn = true ∧ (lockScan s.cfg.bind s.events).pllon = true) ∧
    (6 ≤ s.seq.upc.toNat → s.pllLocked = true ∧ (lockScan s.cfg.bind s.events).seen = true) ∧
    (7 ≤ s.seq.upc.toNat → s.latency = 3#4) ∧
    (8 ≤ s.seq.upc.toNat → slowBus1 (s.ppre .one)) ∧
    (9 ≤ s.seq.upc.toNat → s.sw = swPll) ∧
    (10 ≤ s.seq.upc.toNat → s.sws = swPll))

/-- In the write phase the fetched micro-op is an RMW, and `x[1]` still shows every bit of its register that only
SEQ writes (rules R25, R131). -/
def State.PhaseInv (s : State) : Prop :=
  s.seq.phase = .write → ∃ r a b, decodeMicroOp s.fetch = .ok (.rmw r a b) ∧
    s.seq.rd &&& ~~~s.cfg.roMask r = s.regRead r &&& ~~~s.cfg.roMask r

/-- The invariant of the block running its own programs, with the default configuration up to the OPEN
parameters (rules R150, R181). -/
def State.InitInv (s : State) : Prop :=
  Config.closedDefault s.cfg ∧ s.cfg.wf = true ∧ s.rom = s.cfg.rom ∧ s.ClockInv ∧ s.LockInv ∧
    (s.seq.mode = .run → s.StepInv ∧ s.PhaseInv)

end Sys2Proof.Machine
end

