-- ==== Sys2Proof/Certificates/Slice0/Obligations.lean ====
section
/-! DEFINITION. The statements of this row, each with the rule of spec/ it formalises. The predicates they share
come first. -/

namespace Sys2Proof.Machine

/-- What no micro-op changes: the configuration, the ROM, the ports, the launch premise and the moves to come. -/
def MicroOpFrame (s t : State) : Prop :=
  t.cfg = s.cfg ∧ t.rom = s.rom ∧ t.port = s.port ∧ t.accessible = s.accessible ∧ t.sched = s.sched ∧
    t.freeCount = s.freeCount

/-- The effect of `RegWrite(reg, v)` (rules R46, R67, R79): `rw` bits from `v` (but those of `RCC_PLLCFGR` while
the PLL is on, of which rule R280 and log 14 speak), every other bit kept (`ro` by R46, `untouched` by log 5), every
other register and the hidden state as before; a write to `TIM_EGR` stores nothing and re-arms the counter if `UG` is
set, its other trigger bits having no effect in the model (log 22). -/
def WriteEffect (s : State) (reg : RegId) (v : Word) (t : State) : Prop :=
  (reg ≠ .timEgr →
    t.hidden = s.hidden ∧ (∀ r, r ≠ reg → t.regs.get r = s.regs.get r) ∧
    (¬ (reg = .rccPllcfgr ∧ s.pllOn = true) →
      t.regs.get reg &&& s.cfg.rwMask reg = v &&& s.cfg.rwMask reg) ∧
    t.regs.get reg &&& ~~~s.cfg.rwMask reg = s.regs.get reg &&& ~~~s.cfg.rwMask reg) ∧
  (reg = .timEgr → isSet s.cfg.bind.ug v = true →
    t.regs = { s.regs with timCnt := 0 } ∧
    t.hidden = { s.hidden with pscEff := s.cfg.bind.psc.get s.regs.timPsc }) ∧
  (reg = .timEgr → isSet s.cfg.bind.ug v = false → t.regs = s.regs ∧ t.hidden = s.hidden)

/-- Rule R107, on the fields of a micro-op word. -/
def UopWordLegal (w : UopWord) : Prop :=
  (uopOpc w = 0x1#4 ∨ uopOpc w = 0x2#4 ∨ uopOpc w = 0x3#4 ∨ uopOpc w = 0x4#4 ∨ uopOpc w = 0xF#4) ∧
  (uopOpc w ≠ 0xF#4 → (uopReg w).toNat ≤ 0xB) ∧
  (uopOpc w = 0x1#4 ∨ uopOpc w = 0x3#4 → uopB w &&& ~~~uopA w = 0) ∧
  (uopOpc w = 0x2#4 → uopA w = 0) ∧
  (uopOpc w = 0x4#4 → uopA w = 0 ∧ uopB w = 0) ∧
  (uopOpc w = 0xF#4 → uopReg w = 0 ∧ uopA w = 0 ∧ uopB w = 0) ∧
  (uopOpc w = 0x1#4 ∨ uopOpc w = 0x2#4 → uopReg w ≠ 0x9#4) ∧
  (uopOpc w = 0x4#4 → uopReg w = 0x9#4)

/-- A micro-op that would increment `upc` in a state (rules R131 to R136). -/
def WouldAdvance (i : Instr) (s : State) : Prop :=
  match i with
  | .rmw _ _ _ => s.seq.phase = .write
  | .wr _ _ => True
  | .pollEq r a b => s.regRead r &&& a = b
  | .pollGe r => s.seq.us ≤ s.regRead r
  | .endProg => False
  | .init _ => False
  | .delay _ => False
  | .cpuf _ => False

/-- An environment step that moves one one-bit field of `RCC_CR` and emits one event. -/
def FlagMoved (s t : State) (f : BitField 1) (v : Bool) (e : Event) : Prop :=
  isSet f t.regs.rccCr = v ∧ t.regs.rccCr &&& ~~~f.mask = s.regs.rccCr &&& ~~~f.mask ∧
    t = { s with regs := { s.regs with rccCr := t.regs.rccCr }, events := e :: s.events }

/-- The symbolic listing of rule R153, in its own order and its own terms: `MASK(R.F)` is the field's mask,
`ENC(R.F, v)` the encoded value, `c.fwp c.fCore` the wait-states of a configuration that has them. -/
def listing153 (c : Config) : List Instr :=
  let b := c.bind
  let ws := match c.fwp c.fCore with
    | some n => n
    | none => 0
  let code (d : Nat) : BitVec 3 := match ppreCode d with
    | some x => x
    | none => 0
  [ .rmw .pwrCr b.vos.mask (b.vos.encNat c.vosCode),
    .rmw .rccCr b.hseon.mask (b.hseon.enc 1),
    .pollEq .rccCr b.hserdy.mask (b.hserdy.enc 1),
    .rmw .rccPllcfgr (b.pllsrc.mask ||| b.pllm.mask ||| b.plln.mask ||| b.pllp.mask ||| b.pllq.mask)
      (b.pllsrc.enc 1 ||| b.pllm.encNat c.pllM ||| b.plln.encNat c.pllN ||| b.pllp.encNat (c.pllP / 2 - 1) |||
        b.pllq.encNat c.pllQ),
    .rmw .rccCr b.pllon.mask (b.pllon.enc 1),
    .pollEq .rccCr b.pllrdy.mask (b.pllrdy.enc 1),
    .rmw .flashAcr (b.latency.mask ||| b.prften.mask ||| b.icen.mask ||| b.dcen.mask)
      (b.latency.encNat ws ||| b.prften.enc (bitOf c.flashPrften) ||| b.icen.enc (bitOf c.flashIcen) |||
        b.dcen.enc (bitOf c.flashDcen)),
    .rmw .rccCfgr (b.ppre1.mask ||| b.ppre2.mask)
      (b.ppre1.enc (code c.ppreMaxDiv) ||| b.ppre2.enc (code c.ppreMaxDiv)),
    .rmw .rccCfgr b.sw.mask (b.sw.enc 2),
    .pollEq .rccCfgr b.sws.mask (b.sws.enc 2),
    .rmw .rccCr b.hsion.mask 0,
    .pollEq .rccCr b.hsirdy.mask 0,
    .rmw .rccCfgr (b.ppre1.mask ||| b.ppre2.mask)
      (b.ppre1.enc (code c.ppre1Final) ||| b.ppre2.enc (code c.ppre2Final)),
    .rmw .rccAhb1enr c.portEnMask c.portEnMask,
    .rmw .dbgApb1fz b.timStop.mask (b.timStop.enc 1),
    .wr .timPsc (BitVec.ofNat 32 c.pscVal),
    .rmw .timCr1 b.cen.mask (b.cen.enc 1),
    .wr .vtor c.vtorAddr,
    .endProg ]

/-- The three words of the DELAY program (rule R205). -/
def listing205 : List UopWord := [0x280000000000000001#72, 0x490000000000000000#72, 0xF00000000000000000#72]

end Sys2Proof.Machine

open Sys2Proof Sys2Proof.Machine

/-! ## Encodings -/

/-- One word of each row, assembled field by field, decodes to its instruction (rules R101 to R105). -/
def Obligations.WordsDecodeAsWritten : Prop :=
  decodeMicroOp (0x1#4 ++ 0x5#4 ++ 0x0000070F#32 ++ 0x00000703#32) =
    .ok (.rmw .flashAcr 0x0000070F#32 0x00000703#32) ∧
  decodeMicroOp (0x2#4 ++ 0xB#4 ++ 0#32 ++ 0x20000000#32) = .ok (.wr .vtor 0x20000000#32) ∧
  decodeMicroOp (0x3#4 ++ 0x1#4 ++ 0x00020000#32 ++ 0x00020000#32) =
    .ok (.pollEq .rccCr 0x00020000#32 0x00020000#32) ∧
  decodeMicroOp (0x4#4 ++ 0x9#4 ++ 0#32 ++ 0#32) = .ok (.pollGe .timCnt) ∧
  decodeMicroOp (0xF#4 ++ 0x0#4 ++ 0#32 ++ 0#32) = .ok .endProg ∧
  decodeCommand (0x1#4 ++ 0#32) = .ok (.init 0#32) ∧
  decodeCommand (0x2#4 ++ 0xFFFFFFFF#32) = .ok (.delay 0xFFFFFFFF#32) ∧
  decodeCommand (0x3#4 ++ 0x12345678#32) = .ok (.cpuf 0x12345678#32)

/-- Decoding the encoding of a well-formed instruction gives it back (rules R101 to R107). -/
def Obligations.DecodeOfEncode : Prop := ∀ i : Instr, i.wf = true → decode (encode i) = .ok i

/-- A word that decodes is the encoding of the well-formed instruction it decodes to: each word has one meaning
and no bit of it is dropped (rules R101 to R108). -/
def Obligations.EncodeOfDecode : Prop :=
  ∀ (w : InstrWord) (i : Instr), decode w = .ok i → i.wf = true ∧ encode i = w

/-- A micro-op word is an instruction exactly when it is well formed, and every word of the default ROM is (rule
R107). -/
def Obligations.MicroOpWordLegality : Prop :=
  (∀ w : UopWord, (∃ i, decodeMicroOp w = .ok i) ↔ UopWordLegal w) ∧
  (∀ p ∈ Config.default.rom, UopWordLegal p.2)

/-! ## Micro-ops -/

/-- RMW's two steps (rule R131; with log 5, log 14 and log 22 in the effect of the write). -/
def Obligations.RmwReadsThenWrites : Prop :=
  ∀ (reg : RegId) (a b : Word) (s : State), Instr.wf (.rmw reg a b) = true →
    (s.seq.phase = .read →
      exec (.rmw reg a b) s = .next
        { s with
          seq := { s.seq with rd := s.regRead reg, phase := .write }
          events := .rd reg (s.regRead reg) :: s.events }) ∧
    (s.seq.phase = .write → s.seq.upc ≠ 31#5 →
      ∃ t, exec (.rmw reg a b) s = .next t ∧
        t.seq = { s.seq with phase := .read, upc := s.seq.upc + 1#5 } ∧
        t.events = .wr reg ((s.seq.rd &&& ~~~a) ||| b) :: s.events ∧
        MicroOpFrame s t ∧ WriteEffect s reg ((s.seq.rd &&& ~~~a) ||| b) t)

/-- RMW with no agent between its steps replaces the masked `rw` bits and leaves every other bit of the register
(rules R131, R137). A mask within the bits a write reaches now is the spec's own case (R46). -/
def Obligations.RmwReplacesMaskedBits : Prop :=
  ∀ (reg : RegId) (a b : Word) (s : State), Instr.wf (.rmw reg a b) = true →
    reg ≠ .timEgr → a &&& ~~~s.rwNow reg = 0 → s.seq.phase = .read → s.seq.upc ≠ 31#5 →
    ∃ t u, exec (.rmw reg a b) s = .next t ∧ exec (.rmw reg a b) t = .next u ∧
      u.regRead reg = (s.regRead reg &&& ~~~a) ||| b ∧ u.seq.upc = s.seq.upc + 1#5

/-- WR's one step (rule R132; with log 5, log 14 and log 22 in the effect of the write). -/
def Obligations.WrWritesWholeWord : Prop :=
  ∀ (reg : RegId) (b : Word) (s : State), Instr.wf (.wr reg b) = true →
    s.seq.upc ≠ 31#5 →
    ∃ t, exec (.wr reg b) s = .next t ∧ t.seq = { s.seq with upc := s.seq.upc + 1#5 } ∧
      t.events = .wr reg b :: s.events ∧ MicroOpFrame s t ∧ WriteEffect s reg b t

/-- A write to `RCC_PLLCFGR` while the PLL is on, by WR or in the write phase of RMW, leaves every register as it is,
the micro-op completing as otherwise (rule R280, with log 14: "runs" is `PLLON = 1`, and log 5). -/
def Obligations.PllConfigWriteIgnoredWhileOn : Prop :=
  ∀ (a b : Word) (s : State), s.pllOn = true → s.seq.upc ≠ 31#5 →
    (∃ t, exec (.wr .rccPllcfgr b) s = .next t ∧ t.seq = { s.seq with upc := s.seq.upc + 1#5 } ∧
      t.events = .wr .rccPllcfgr b :: s.events ∧ t.regs = s.regs ∧ t.hidden = s.hidden ∧ t.fPll = s.fPll) ∧
    (Instr.wf (.rmw .rccPllcfgr a b) = true → s.seq.phase = .write →
      ∃ t, exec (.rmw .rccPllcfgr a b) s = .next t ∧
        t.seq = { s.seq with phase := .read, upc := s.seq.upc + 1#5 } ∧
        t.events = .wr .rccPllcfgr ((s.seq.rd &&& ~~~a) ||| b) :: s.events ∧
        t.regs = s.regs ∧ t.hidden = s.hidden ∧ t.fPll = s.fPll)

/-- POLLEQ's one step per iteration, with and without a limit (rule R133). That reaching the limit answers a next state
is log 8. -/
def Obligations.PollEqSamplesUntilEqual : Prop :=
  ∀ (reg : RegId) (a b : Word) (s : State), Instr.wf (.pollEq reg a b) = true →
    (s.regRead reg &&& a = b → s.seq.upc ≠ 31#5 →
      exec (.pollEq reg a b) s = .next
        { s with
          seq := { s.seq with rd := s.regRead reg, pollcnt := 0, upc := s.seq.upc + 1#5 }
          events := .rd reg (s.regRead reg) :: s.events }) ∧
    (s.regRead reg &&& a ≠ b → (∀ l, s.cfg.pollLimit = some l → s.seq.pollcnt + 1 < l) →
      exec (.pollEq reg a b) s = .next
        { s with
          seq := { s.seq with rd := s.regRead reg, pollcnt := s.seq.pollcnt + 1 }
          events := .rd reg (s.regRead reg) :: s.events }) ∧
    (s.regRead reg &&& a ≠ b → ∀ l, s.cfg.pollLimit = some l → l ≤ s.seq.pollcnt + 1 →
      exec (.pollEq reg a b) s = .next
        { s with
          seq := { s.seq with rd := s.regRead reg, pollcnt := s.seq.pollcnt + 1, mode := .fault }
          events := .fault (.pollLimit s.seq.upc) :: .rd reg (s.regRead reg) :: s.events })

/-- POLLGE's one step per iteration, by the unsigned comparison with `x[0]` (rule R134). -/
def Obligations.PollGeComparesUnsigned : Prop :=
  ∀ s : State,
    (s.seq.us.toNat ≤ (s.regRead .timCnt).toNat → s.seq.upc ≠ 31#5 →
      exec (.pollGe .timCnt) s = .next
        { s with
          seq := { s.seq with rd := s.regRead .timCnt, upc := s.seq.upc + 1#5 }
          events := .rd .timCnt (s.regRead .timCnt) :: s.events }) ∧
    ((s.regRead .timCnt).toNat < s.seq.us.toNat →
      exec (.pollGe .timCnt) s = .next
        { s with
          seq := { s.seq with rd := s.regRead .timCnt }
          events := .rd .timCnt (s.regRead .timCnt) :: s.events })

/-- END's one step (rule R135). -/
def Obligations.EndReturnsToIdle : Prop :=
  ∀ s : State,
    exec .endProg s = .next
      { s with
        seq :=
          { s.seq with mode := .idle, initDone := if s.seq.cmd = 0x1#4 then true else s.seq.initDone }
        port := { s.port with done := true, resp := 0#32 }
        events := .done s.seq.cmd 0#32 :: s.events }

/-- A wait for more than the counter's top never advances: in the states of the structural invariant the read value
never reaches `x[0]` (rule R202). -/
def Obligations.DelayBeyondTopHangs : Prop :=
  ∀ s : State, s.Inv → s.hidden.arr.toNat < s.seq.us.toNat →
    ∃ t, exec (.pollGe .timCnt) s = .next t ∧ t.seq.upc = s.seq.upc ∧ t.seq.mode = s.seq.mode ∧
      t.regs = s.regs

/-- The re-arm makes a wait independent of what the counter and the prescaler in effect held before: two states
that differ only there are equal after it (rules R79, R195, R199). -/
def Obligations.RearmForgetsCounter : Prop :=
  ∀ (s : State) (b cnt : Word) (p : BitVec 16), isSet s.cfg.bind.ug b = true → s.seq.upc ≠ 31#5 →
    exec (.wr .timEgr b)
      { s with regs := { s.regs with timCnt := cnt }, hidden := { s.hidden with pscEff := p } } =
      exec (.wr .timEgr b) s ∧
    ∃ t, exec (.wr .timEgr b) s = .next t ∧ t.regRead .timCnt = 0 ∧
      t.hidden.pscEff = s.cfg.bind.psc.get s.regs.timPsc

/-! ## Commands -/

/-- INIT: refused once `init_done`, else the INIT program starts at `INIT_ENTRY`, address 0 by default (rule R221; a
launch needs the registers reachable, R68). That the refused command answers a next state, of which rule R226 says
that a claim says nothing, is log 7. -/
def Obligations.InitStartsOnce : Prop :=
  Config.default.initEntry = 0#5 ∧
  ∀ (arg : Word) (s : State),
    (s.seq.initDone = true →
      exec (.init arg) s = .next
        { s with
          port := { s.port with cmdIn := none, done := true, resp := 0xFFFFFFFF#32 }
          events := .refused 0x1#4 .alreadyInitialised :: .accept 0x1#4 arg :: s.events }) ∧
    (s.seq.initDone = false → s.accessible = true →
      exec (.init arg) s = .next
        { s with
          seq := { s.seq with cmd := 0x1#4, upc := s.cfg.initEntry, phase := .read, pollcnt := 0, mode := .run }
          port := { s.port with cmdIn := none }
          events := .accept 0x1#4 arg :: s.events })

/-- DELAY: refused before INIT has completed, else `x[0]` takes the argument and the DELAY program starts at
`DELAY_ENTRY`, address 24 by default (rule R222). That the refused command answers a next state, of which rule R226
says that a claim says nothing, is log 7. -/
def Obligations.DelayStartsAfterInit : Prop :=
  Config.default.delayEntry = 24#5 ∧
  ∀ (arg : Word) (s : State),
    (s.seq.initDone = false →
      exec (.delay arg) s = .next
        { s with
          port := { s.port with cmdIn := none, done := true, resp := 0xFFFFFFFF#32 }
          events := .refused 0x2#4 .notInitialised :: .accept 0x2#4 arg :: s.events }) ∧
    (s.seq.initDone = true → s.accessible = true →
      exec (.delay arg) s = .next
        { s with
          seq := { s.seq with us := arg, cmd := 0x2#4, upc := s.cfg.delayEntry, phase := .read, mode := .run }
          port := { s.port with cmdIn := none }
          events := .accept 0x2#4 arg :: s.events })

/-- INIT and DELAY launched on registers that do not respond stop by name (rules R68, R274). -/
def Obligations.LaunchNeedsReachableRegisters : Prop :=
  ∀ (arg : Word) (s : State), s.accessible = false →
    (s.seq.initDone = false → exec (.init arg) s = .refused .notAccessible) ∧
    (s.seq.initDone = true → exec (.delay arg) s = .refused .notAccessible)

/-- CPUF: answers the core frequency of the divider chain whatever `init_done` is, and changes nothing else (rule
R223). For a frequency that does not fit the 32 bits of `resp` the word is free (log 35). -/
def Obligations.CpufReportsCoreFrequency : Prop :=
  ∀ (arg : Word) (s : State),
    ∃ w, exec (.cpuf arg) s = .next
        { s with
          port := { s.port with cmdIn := none, done := true, resp := w }
          events := .done 0x3#4 w :: .accept 0x3#4 arg :: s.events } ∧
      (s.cfg.fCore < 2 ^ 32 → w.toNat = s.cfg.fCore)

/-- A reserved command is taken, refused on the ports and in the trace, and changes nothing else (rules R224, R226).
That the step answers a next state, of which rule R226 says that a claim says nothing, is log 7. -/
def Obligations.ReservedCommandRefused : Prop :=
  ∀ (s : State) (w : CmdWord), s.cfg.wf = true → s.violation = none → s.nextTurn = .take →
    s.cmdReady = true → s.port.cmdIn = some w →
    cmdOp w ≠ 0x1#4 → cmdOp w ≠ 0x2#4 → cmdOp w ≠ 0x3#4 →
    ∃ t, step s = .next t ∧ t.seq = s.seq ∧ t.regs = s.regs ∧ t.hidden = s.hidden ∧
      t.port = { s.port with cmdIn := none, done := true, resp := 0xFFFFFFFF#32 } ∧
      t.events = .refused (cmdOp w) .reserved :: .accept (cmdOp w) (cmdArg w) :: s.events

/-! ## Steps -/

/-- When it is SEQ's move, SEQ has a step and the ROM word at `upc` decodes, the step is that micro-op's meaning,
after the `done` pulse of the step before has ended and the move is used up (rule R130). -/
def Obligations.StepRunsDecodedMicroOp : Prop :=
  ∀ (s : State) (i : Instr), s.cfg.wf = true → s.violation = none → s.nextTurn = .seq → s.seqReady = true →
    decodeMicroOp s.fetch = .ok i → step s = exec i (s.endPulse.setSched s.sched.tail)

/-- When it is the taking's move, `cmd_ready` is 1 and the presented word decodes, the step is that command's
meaning (rules R220, R225). -/
def Obligations.StepTakesDecodedCommand : Prop :=
  ∀ (s : State) (w : CmdWord) (i : Instr), s.cfg.wf = true → s.violation = none → s.nextTurn = .take →
    s.cmdReady = true → s.port.cmdIn = some w → decodeCommand w = .ok i →
    step s = exec i (s.endPulse.setSched s.sched.tail)

/-- An illegal word, and a micro-op that would increment `upc` from 31, stop by name (rule R136). -/
def Obligations.IllegalMicroOpRefused : Prop :=
  ∀ s : State, s.cfg.wf = true → s.violation = none → s.nextTurn = .seq → s.seqReady = true →
    ((∀ i, decodeMicroOp s.fetch ≠ .ok i) → step s = .refused (.illegalMicroOp s.seq.upc)) ∧
    (∀ i, decodeMicroOp s.fetch = .ok i → s.seq.upc = 31#5 → WouldAdvance i s →
      step s = .refused (.illegalMicroOp s.seq.upc))

/-- An instruction that is not well formed stops by name, whatever the state (rules R107, R136). -/
def Obligations.IllFormedOperandsRefused : Prop :=
  ∀ (i : Instr) (s : State), i.wf = false → exec i s = .refused (.illegalMicroOp s.seq.upc)

/-- A configuration that is not well formed has no step (rule R8). -/
def Obligations.BadConfigurationRefused : Prop :=
  Config.default.wf = true ∧ ∀ s : State, s.cfg.wf = false → step s = .refused .configNotWellFormed

/-- A step faults exactly in the states that violate a safety predicate (rules R176 to R179): judged on the state the step
starts from (log 9), the buses by the exact quotient (log 34), with the trace's reading of R177 (log 10) and the moment of
R179 (log 11). Where the core frequency is a free value, so is what is judged of it (log 12). Which fault is named where
several predicates fail is not claimed (log 38). -/
def Obligations.UnsafeStatesFault : Prop :=
  ∀ s : State, s.cfg.wf = true →
    ((∃ x, step s = .fault x) ↔
      (s.cfg.fApb1Max * ppreDiv s.hidden.effPpre1 < s.fCore ∨
       s.cfg.fApb2Max * ppreDiv s.hidden.effPpre2 < s.fCore ∨
       (s.sw = 0b10#2 ∧ s.pllLocked = false) ∨ (lockScan s.cfg.bind s.events).ok = false ∨
       (∀ ws, s.cfg.fwp s.fCore = some ws → s.latency.toNat < ws) ∨
       ((∃ v es, s.events = .wr .rccCr v :: es) ∧ s.hsiOn = false ∧ s.sws = 0b00#2)))

/-- The readiness flags and the switch status change only by their own agent's move or by a reset: no micro-op
and no command writes a flag (rules R42, R46, R73 to R76). -/
def Obligations.FlagsChangeOnlyByTheirAgents : Prop :=
  ∀ s t : State, step s = .next t → s.cfg.bind.wf = true →
    (∃ k, s.nextTurn = .resetLow k) ∨
    ((t.hseReady ≠ s.hseReady → s.nextTurn = .hse) ∧ (t.pllLocked ≠ s.pllLocked → s.nextTurn = .pll) ∧
     (t.sws ≠ s.sws → s.nextTurn = .sw) ∧ (t.hsiReady ≠ s.hsiReady → s.nextTurn = .hsi))

/-- SAFE_POLL: `upc` passes a POLLEQ only at a step whose read satisfied its condition (rules R180, R242). -/
def Obligations.PollsPassOnlyWhenSatisfied : Prop := ∀ s t : State, step s = .next t → SafePoll s t

/-- While a program runs `upc` stays or goes up by one: no branch, no return (rule R23). -/
def Obligations.UpcMovesForward : Prop :=
  ∀ s t : State, step s = .next t → s.busy = true → t.busy = true →
    t.seq.upc = s.seq.upc ∨ (s.seq.upc ≠ 31#5 ∧ t.seq.upc = s.seq.upc + 1#5)

/-- `x[0]` is written only by the taking of a DELAY command, which latches its argument, and by reset (rule
R24). -/
def Obligations.DelayArgumentLatched : Prop :=
  ∀ s t : State, step s = .next t → t.seq.us ≠ s.seq.us →
    (∃ k, s.nextTurn = .resetLow k) ∨
    (s.nextTurn = .take ∧ s.cmdReady = true ∧
      ∃ w, s.port.cmdIn = some w ∧ cmdOp w = 0x2#4 ∧ t.seq.us = cmdArg w ∧ s.seq.initDone = true)

/-- `init_done` is set only by the END of the INIT program and cleared only by reset (rule R26). -/
def Obligations.InitDoneSticky : Prop :=
  ∀ s t : State, step s = .next t →
    (s.seq.initDone = true → t.seq.initDone = true ∨ ∃ k, s.nextTurn = .resetLow k) ∧
    (s.seq.initDone = false → t.seq.initDone = true →
      decodeMicroOp s.fetch = .ok .endProg ∧ s.seq.cmd = 0x1#4 ∧ s.busy = true)

/-- No step changes the ROM, the configuration or the launch premise (rules R21, R61). -/
def Obligations.RomAndConfigurationFixed : Prop :=
  ∀ s t : State, step s = .next t →
    t.rom = s.rom ∧ t.cfg = s.cfg ∧ t.accessible = s.accessible ∧ ∀ a, Rom.read t.rom a = Rom.read s.rom a

/-- Every step appends at most two events and at most one of them is a register access; only a reset begins a new
trace (rules R69, R70, R130; log 18). -/
def Obligations.OneAccessPerStep : Prop :=
  ∀ s t : State, step s = .next t →
    (∃ k, s.nextTurn = .resetLow k ∧ t.events = []) ∨
    ∃ new, t.events = new ++ s.events ∧ new.length ≤ 2 ∧ (new.filterMap (busAccess s.cfg)).length ≤ 1

/-- The registers and the hidden state change only by SEQ's moves, the environment's, a reset, or another user's
trigger of the timer between programs (rule R81). -/
def Obligations.OnlyWritersChangeRegisters : Prop :=
  ∀ s t : State, step s = .next t → t.regs ≠ s.regs ∨ t.hidden ≠ s.hidden →
    (s.nextTurn = .seq ∧ s.busy = true) ∨ s.nextTurn = .hse ∨ s.nextTurn = .pll ∨ s.nextTurn = .sw ∨
    s.nextTurn = .hsi ∨ (∃ b, s.nextTurn = .div b) ∨ s.nextTurn = .tick ∨ (∃ b, s.nextTurn = .halt b) ∨
    (∃ k, s.nextTurn = .resetLow k) ∨ (s.nextTurn = .foreignUg ∧ s.busy = false ∧ s.seq.initDone = true)

/-- In FAULT mode no command is taken, no access is made and nothing of the sequencer changes until reset (rule
R244). -/
def Obligations.FaultModeLeftOnlyByReset : Prop :=
  ∀ s t : State, s.seq.mode = .fault → step s = .next t →
    s.faultOut = true ∧ s.busy = false ∧ s.cmdReady = false ∧
    ((∃ k, s.nextTurn = .resetLow k) ∨
     (t.seq = s.seq ∧ t.port.done = false ∧
      ∃ new, t.events = new ++ s.events ∧ new.filterMap (busAccess s.cfg) = [] ∧
        ∀ op arg, Event.accept op arg ∉ new))

/-- HOST's presenting puts the command word on the port, where a word already presented is held and none is held during
reset (log 18); a command presented while a program runs waits unchanged; only reset drops it (rules R220, R225,
R270). -/
def Obligations.PresentedCommandWaits : Prop :=
  (∀ (s : State) (w : CmdWord),
    (s.port.rstN = true → s.port.cmdIn = none →
      runTurn (.present w) s = .next { s with port := { s.port with cmdIn := some w } }) ∧
    (s.port.cmdIn ≠ none → runTurn (.present w) s = .next s) ∧
    (s.port.rstN = false → runTurn (.present w) s = .next s)) ∧
  (∀ (s t : State) (w : CmdWord), step s = .next t → s.busy = true → s.port.cmdIn = some w →
    t.port.cmdIn = some w ∨ ∃ k, s.nextTurn = .resetLow k)

/-- Without a limit a POLLEQ whose condition is false reads for ever: after any number of SEQ's steps `upc` and
`mode` stand, and the trace holds that many equal reads (rules R133, R241). -/
def Obligations.UnansweredPollHangs : Prop :=
  ∀ (n : Nat) (s : State) (r : RegId) (a b : Word), s.seqReady = true →
    decodeMicroOp s.fetch = .ok (.pollEq r a b) → s.regRead r &&& a ≠ b → s.cfg.pollLimit = none →
    ∃ t, turns .seq n s = .next t ∧ t.seq.upc = s.seq.upc ∧ t.busy = true ∧ t.regs = s.regs ∧
      t.events = List.replicate n (.rd r (s.regRead r)) ++ s.events

/-! ## The environment -/

/-- ENV.HSE (rule R73): ready after the enable bit is 1; not ready again after it is 0 (the moment of the fall is
the model's, log 13). -/
def Obligations.OscillatorReports : Prop :=
  ∀ s : State, s.cfg.bind.wf = true →
    (s.hseOn = true → s.hseReady = false →
      ∃ t, runTurn .hse s = .next t ∧ FlagMoved s t s.cfg.bind.hserdy true (.env .hse .hserdy 1#32)) ∧
    (s.hseOn = false → s.hseReady = true →
      ∃ t, runTurn .hse s = .next t ∧ FlagMoved s t s.cfg.bind.hserdy false (.env .hse .hserdy 0#32)) ∧
    (s.hseOn = s.hseReady → runTurn .hse s = .next s)

/-- ENV.PLL (rule R74). -/
def Obligations.PllLocksWithReadySource : Prop :=
  ∀ s : State, s.cfg.bind.wf = true →
    let enabled := s.pllOn = true ∧ s.pllLocked = false ∧
      ((s.pllFromHse = true ∧ s.hseReady = true) ∨ (s.pllFromHse = false ∧ s.hsiReady = true))
    (enabled → ∃ t, runTurn .pll s = .next t ∧
      FlagMoved s t s.cfg.bind.pllrdy true (.env .pll .pllrdy 1#32)) ∧
    (¬ enabled → runTurn .pll s = .next s)

/-- ENV.SW (rule R75). That the code 3, which selects no source, changes nothing is log 15. -/
def Obligations.SwitchFollowsReadySource : Prop :=
  ∀ s : State, s.cfg.bind.wf = true →
    let enabled := s.sws ≠ s.sw ∧
      ((s.sw = 0b00#2 ∧ s.hsiReady = true) ∨ (s.sw = 0b01#2 ∧ s.hseReady = true) ∨
       (s.sw = 0b10#2 ∧ s.pllLocked = true))
    (enabled → ∃ t, runTurn .sw s = .next t ∧ t.sws = s.sw ∧ t.sw = s.sw ∧
      t.regs.rccCfgr &&& ~~~s.cfg.bind.sws.mask = s.regs.rccCfgr &&& ~~~s.cfg.bind.sws.mask ∧
      t = { s with
        regs := { s.regs with rccCfgr := t.regs.rccCfgr }
        events := .env .sw .sws (s.sw.setWidth 32) :: s.events }) ∧
    (¬ enabled → runTurn .sw s = .next s)

/-- ENV.HSI (rule R76; "the running PLL" is the PLL that is on, log 15). -/
def Obligations.InternalOscillatorStopsUnused : Prop :=
  ∀ s : State, s.cfg.bind.wf = true →
    let enabled := s.hsiOn = false ∧ s.hsiReady = true ∧ s.sws ≠ 0b00#2 ∧
      ¬ (s.pllOn = true ∧ s.pllFromHse = false)
    (enabled → ∃ t, runTurn .hsi s = .next t ∧
      FlagMoved s t s.cfg.bind.hsirdy false (.env .hsi .hsirdy 0#32)) ∧
    (¬ enabled → runTurn .hsi s = .next s)

/-- ENV.DIV applies one divider at a time, the programmed codes are not changed, and SEQ has no step while a
divider in effect differs (rule R77). -/
def Obligations.DividersFollowOneAtATime : Prop :=
  ∀ (s : State) (b c : Bus),
    (s.effPpre b ≠ s.ppre b →
      runTurn .seq s = .next s ∧
      ∃ t, runTurn (.div b) s = .next t ∧ t.effPpre b = s.ppre b ∧ (c ≠ b → t.effPpre c = s.effPpre c) ∧
        t.regs = s.regs ∧ t.seq = s.seq ∧
        t.events = .env .div (if b = .one then .ppre1 else .ppre2) ((s.ppre b).setWidth 32) :: s.events) ∧
    (s.effPpre b = s.ppre b → runTurn (.div b) s = .next s)

/-- ENV.TICK (rule R78), in the states of the structural invariant: the counter goes up by one, wraps to 0 at
`arr` and there takes the prescaler over; it stands while it is off or frozen. -/
def Obligations.CounterCountsAndWraps : Prop :=
  ∀ s : State, s.cfg.wf = true → s.Inv →
    let enabled := s.counterOn = true ∧ ¬ (s.freezeOn = true ∧ s.hidden.coreHalted = true)
    (enabled → s.regs.timCnt = s.hidden.arr →
      runTurn .tick s = .next
        { s with
          regs := { s.regs with timCnt := 0 }
          hidden := { s.hidden with pscEff := s.cfg.bind.psc.get s.regs.timPsc }
          events := .tick 0 :: s.events }) ∧
    (enabled → s.regs.timCnt ≠ s.hidden.arr →
      runTurn .tick s = .next
        { s with
          regs := { s.regs with timCnt := s.regs.timCnt + 1 }
          events := .tick (s.regs.timCnt + 1) :: s.events }) ∧
    (¬ enabled → runTurn .tick s = .next s)

/-- While the core is halted SEQ has no step, and with the freeze bit set the counter stands: a wait goes on where
it stood (rules R80, R203). -/
def Obligations.DebuggerSuspendsWait : Prop :=
  ∀ s : State, s.hidden.coreHalted = true →
    runTurn .seq s = .next s ∧ (s.freezeOn = true → runTurn .tick s = .next s) ∧
    ∃ t, runTurn (.halt false) s = .next t ∧ t.seq = s.seq ∧ t.regs = s.regs ∧ t.hidden.coreHalted = false

/-! ## Clock tree, flash and timer -/

/-- The PLL chain of a well-formed configuration divides exactly and lies in its ranges (rules R8, R160). -/
def Obligations.PllChainExact : Prop :=
  ∀ c : Config, c.wf = true →
    c.fCore * c.pllP * c.pllM = c.fHse * c.pllN ∧ c.fVco * c.pllM = c.fHse * c.pllN ∧
    c.vcoInMin ≤ c.fHse / c.pllM ∧ c.fHse / c.pllM ≤ c.vcoInMax ∧ c.vcoMin ≤ c.fVco ∧ c.fVco ≤ c.vcoMax ∧
    c.fCore ≤ c.fCoreMax

/-- With `RCC_PLLCFGR` as step 3 leaves it, the PLL runs at `F_CORE` (rules R161, R165). -/
def Obligations.PllRunsAtProgrammedFrequency : Prop :=
  ∀ s : State, s.cfg.wf = true → s.pllConfigured → s.fPll = s.cfg.fCore

/-- `fwp(f)` is the wait-state count of the first row whose bound is at least `f`, and has no value for 0 and above
the last bound (rules R141, R147). -/
def Obligations.FwpIsFirstSufficientRow : Prop :=
  ∀ (c : Config) (f ws : Nat),
    (c.fwp f = some ws ↔
      0 < f ∧ ∃ pre bound post, c.wsTable = pre ++ (bound, ws) :: post ∧ f ≤ bound ∧
        ∀ row ∈ pre, row.1 < f) ∧
    (c.fwp f = none ↔ f = 0 ∨ ∀ row ∈ c.wsTable, row.1 < f)

/-- `fwp` is monotone when the table's counts do not fall (rule R141, whose bands rise; that a table with falling counts
is accepted is log 36); the default table's do not (rule R142). -/
def Obligations.FwpMonotone : Prop :=
  (∀ (c : Config) (f1 f2 w1 w2 : Nat), (c.wsTable.map Prod.snd).Pairwise (· ≤ ·) → f1 ≤ f2 →
    c.fwp f1 = some w1 → c.fwp f2 = some w2 → w1 ≤ w2) ∧
  (Config.default.wsTable.map Prod.snd).Pairwise (· ≤ ·)

/-- After a re-arm at the programmed core frequency with the programmed prescaler in the field `PSC` (log 39), the kernel clock is exactly
`TICK_HZ` times the cycles of one tick (rules R192, R193, R195). -/
def Obligations.TickRateIsTickHz : Prop :=
  ∀ s : State, s.cfg.wf = true → s.fCore = s.cfg.fCore →
    s.cfg.bind.psc.get s.regs.timPsc = BitVec.ofNat 16 s.cfg.pscVal →
    ∃ cycles, s.rearm.tickPeriod = (cycles, s.cfg.fCore) ∧ s.cfg.fCore = s.cfg.tickHz * cycles

/-- The INIT program of rule R153 and the DELAY program of rule R205 stand in the ROM of every well-formed configuration
at their entry addresses (0 and 24 by default), word by word and in that order, and every other word is all zeros (rules
R61, R150, R153, R205). -/
def Obligations.ProgramsStandInRom : Prop :=
  (Config.default.initEntry = 0#5 ∧ Config.default.delayEntry = 24#5) ∧
  ∀ c : Config, c.wf = true →
    (∀ n i, (listing153 c)[n]? = some i →
      decodeMicroOp (Rom.read c.rom (c.initEntry + BitVec.ofNat 5 n)) = .ok i) ∧
    (∀ n w, listing205[n]? = some w → Rom.read c.rom (c.delayEntry + BitVec.ofNat 5 n) = w) ∧
    (∀ a : RomAddr, (a.toNat < c.initEntry.toNat ∨ c.initEntry.toNat + 19 ≤ a.toNat) →
      (a.toNat < c.delayEntry.toNat ∨ c.delayEntry.toNat + 3 ≤ a.toNat) → Rom.read c.rom a = 0)

/-! ## Reset -/

/-- The sequencer and the outputs after reset (rule R27). -/
def Obligations.SequencerResetValues : Prop :=
  State.reset.seq = ⟨.idle, 0#5, 0#32, 0#32, .read, 0, 0#4, false⟩ ∧ State.reset.busy = false ∧
  State.reset.faultOut = false ∧ State.reset.cmdReady = true ∧ State.reset.port.done = false ∧
  State.reset.port.resp = 0#32 ∧ State.reset.busTrace = []

/-- The register interface's words and the hidden state after reset, for every value of the OPEN parameters and with any
`HSICAL` (rule R272); the regulator is then at scale 2, up to 84 MHz, below the scale of step 1's code (rule R109). -/
def Obligations.RegisterResetWords : Prop :=
  ∀ (c : Config) (h : BitVec 8), c.closedDefault → ∀ r, r = Regs.reset c h →
    r.pwrCr = 0x00008000#32 ∧ r.rccCr = 0x00000083#32 ||| (h.setWidth 32 <<< 8) ∧
    r.rccPllcfgr = 0x24003010#32 ∧ r.rccCfgr = 0#32 ∧ r.rccAhb1enr = 0#32 ∧ r.flashAcr = 0#32 ∧
    r.dbgApb1fz = 0#32 ∧ r.timCr1 = 0#32 ∧ r.timCnt = 0#32 ∧ r.timPsc = 0#32 ∧ r.vtor = 0#32 ∧
    (State.resetWith c).regRead .timEgr = 0#32 ∧
    Hidden.reset c = ⟨0#16, BitVec.ofNat 32 (2 ^ c.cntWidth - 1), false, 0#3, 0#3⟩ ∧
    (vosScale (c.bind.vos.get r.pwrCr) = 2 ∧ vosMaxHz (c.bind.vos.get r.pwrCr) = 84000000 ∧
      vosMaxHz (c.bind.vos.get r.pwrCr) < c.fCore ∧ c.fCore ≤ vosMaxHz (BitVec.ofNat 2 c.vosCode))

/-- Reset from any state, FAULT mode and a hang included: the sequencer takes its reset values, no command is
taken while `rst_n = 0`, a pending command is dropped; the registers stay if the block alone is reset, are clean after
a power-on reset, and after a system reset are clean but for the debug unit's freeze register, which stays; the release
changes only `rst_n` (rules R270 to R272; the kinds of reset are log 18). -/
def Obligations.ResetFromAnyState : Prop :=
  ∀ (s : State) (k : ResetKind), s.cfg.bind.wf = true →
    ∃ t u, runTurn (.resetLow k) s = .next t ∧ runTurn .resetHigh t = .next u ∧
      t.seq = Seq.reset ∧ t.cmdReady = false ∧ t.port.cmdIn = none ∧ t.port.done = false ∧
      t.port.resp = 0#32 ∧ runTurn .seq t = .next t ∧ runTurn .take t = .next t ∧
      (k = .blockOnly → t.regs = s.regs ∧ t.hidden = s.hidden) ∧ (k = .powerOn → t.CleanReset) ∧
      (k = .system → t.regs.dbgApb1fz = s.regs.dbgApb1fz ∧
        ({ t with regs := { t.regs with dbgApb1fz := s.cfg.bind.resetWord.dbgApb1fz } } : State).CleanReset) ∧
      u.seq = Seq.reset ∧ u.cmdReady = true ∧ u.regs = t.regs ∧ u.hidden = t.hidden

/-! ## Invariants -/

/-- The structural invariant holds after reset. -/
def Obligations.StructuralInvAtReset : Prop := State.reset.Inv

/-- Every step keeps the structural invariant: the ROM's canonical form, the bits the counter and the prescaler
have, `arr` at `ARR_RESET` and the counter not above it, FAULT mode only with a limit, the write phase only inside an
RMW, reset values while `rst_n = 0` (rules R22, R25, R39, R40, R43, R61, R78, R270). -/
def Obligations.StructuralInvKept : Prop := ∀ s t : State, s.Inv → step s = .next t → t.Inv

/-- The invariant of the block's own programs holds after reset. -/
def Obligations.BringUpInvAtReset : Prop := State.reset.InitInv

/-- Every step of any agent, resets included, keeps the invariant of the block's own programs, for every value of
the OPEN parameters (rules R150, R163 to R171, R181). -/
def Obligations.BringUpInvKept : Prop := ∀ s t : State, s.InitInv → step s = .next t → t.InitInv

/-- No safety predicate fails in a state of that invariant: the bring-up never overclocks a bus, never selects an
unlocked PLL, never starves the flash of wait-states and never stops the oscillator in use, at any instant (rules
R176 to R179, R181). -/
def Obligations.BringUpIsSafe : Prop :=
  ∀ s : State, s.InitInv → s.violation = none ∧ (s.fCore = 16000000 ∨ s.fCore = 96000000)

/-- Every step keeps: the counter shows no more than the ticks since SEQ's last re-arm (rules R78, R79, R195). -/
def Obligations.CounterNeverAheadOfTicks : Prop :=
  ∀ s t : State, s.CounterInv → step s = .next t → t.CounterInv

/-- A wait is never short: when POLLGE advances, at least `x[0]` ticks have passed since the re-arm (rules R196,
R198). -/
def Obligations.DelayNeverShort : Prop :=
  ∀ s t : State, s.CounterInv → exec (.pollGe .timCnt) s = .next t → t.seq.upc ≠ s.seq.upc →
    ∀ k, ticksSinceRearm s.cfg.bind s.events = some k → s.seq.us.toNat ≤ k

/-- Another user's trigger of the timer re-arms the counter, as the block's own does (rules R79, R81, R201), after
bring-up and with no program running; at any other moment the model refuses it by name. That it is a move of its own,
and when it is one, is log 25. -/
def Obligations.ForeignTriggerRearms : Prop :=
  ∀ s : State,
    (s.seq.mode = .idle ∧ s.seq.initDone = true →
      runTurn .foreignUg s = .next
        { s with
          regs := { s.regs with timCnt := 0 }
          hidden := { s.hidden with pscEff := s.cfg.bind.psc.get s.regs.timPsc } }) ∧
    (¬ (s.seq.mode = .idle ∧ s.seq.initDone = true) → runTurn .foreignUg s = .refused .foreignAccess)

/-- A wait that polls is long by less than one poll: if a read of the counter does not satisfy POLLGE, the counter moves
`n` times and the next read satisfies it, and the trace keeps the premise `TICKS_PER_POLL_MAX`, the value read exceeds `x[0]`
by less than that many ticks (rule R198). -/
def Obligations.DelayLongByAtMostOnePoll : Prop :=
  ∀ (s t u w : State) (n : Nat), exec (.pollGe .timCnt) s = .next t → t.seq.upc = s.seq.upc →
    turns .tick n t = .next u → exec (.pollGe .timCnt) u = .next w → w.seq.upc ≠ u.seq.upc →
    ticksPerPollOk s.cfg.ticksPerPollMax none w.events = true →
    w.seq.us.toNat ≤ w.seq.rd.toNat ∧ w.seq.rd.toNat < w.seq.us.toNat + s.cfg.ticksPerPollMax
end

