-- ==== Sys2Proof/Laws/Fields.lean ====
section
/-! SUPPORT. The laws of bit fields: which bits a mask and an encoded value have, reading after writing the same
field, and reading a field apart from the one written (rule R10). -/

namespace Sys2Proof

variable {k : Nat}

theorem BitField.mask_getLsbD (f : BitField k) (i : Nat) :
    f.mask.getLsbD i = (decide (i < 32) && (decide (f.lo ≤ i) && decide (i < f.lo + k))) := by
  rw [Bool.eq_iff_iff]
  simp [BitField.mask]
  omega

theorem BitField.enc_getLsbD (f : BitField k) (v : BitVec k) (i : Nat) :
    (f.enc v).getLsbD i = (decide (i < 32) && (decide (f.lo ≤ i) && v.getLsbD (i - f.lo))) := by
  by_cases h1 : i < 32 <;> by_cases h2 : i < f.lo <;> simp [BitField.enc, h1, h2]
  omega

theorem BitField.get_getLsbD (f : BitField k) (w : Word) (i : Nat) :
    (f.get w).getLsbD i = (decide (i < k) && w.getLsbD (f.lo + i)) := by
  simp [BitField.get]

/-- An encoded value has no bit outside its field's mask. -/
theorem BitField.enc_outside_mask (f : BitField k) (v : BitVec k) : f.enc v &&& ~~~f.mask = 0 := by
  ext i hi
  have hk : k ≤ i - f.lo → v.getLsbD (i - f.lo) = false := BitVec.getLsbD_of_ge v _
  simp [← BitVec.getLsbD_eq_getElem, f.enc_getLsbD, f.mask_getLsbD, hi]
  intro h1 h2
  refine ⟨h1, ?_⟩
  by_contra hlt
  exact absurd (hk (by omega)) (by simp [h2])

/-- A field reads what was put into it. -/
theorem BitField.get_put_same (f : BitField k) (h : f.fits = true) (v : BitVec k) (w : Word) :
    f.get (f.put v w) = v := by
  simp only [BitField.fits, decide_eq_true_eq] at h
  ext i hi
  simp [← BitVec.getLsbD_eq_getElem, BitField.get_getLsbD, BitField.put, f.mask_getLsbD, f.enc_getLsbD, hi]
  omega

/-- A field apart from the one that was put reads as before. -/
theorem BitField.get_put_apart {m : Nat} (f : BitField k) (g : BitField m) (h : f.mask &&& g.mask = 0)
    (hf : f.fits = true) (v : BitVec m) (w : Word) : f.get (g.put v w) = f.get w := by
  simp only [BitField.fits, decide_eq_true_eq] at hf
  ext i hi
  have hb := congrArg (fun x => x.getLsbD (f.lo + i)) h
  have hk : m ≤ f.lo + i - g.lo → v.getLsbD (f.lo + i - g.lo) = false := BitVec.getLsbD_of_ge v _
  simp [f.mask_getLsbD, g.mask_getLsbD] at hb
  simp [← BitVec.getLsbD_eq_getElem, BitField.get_getLsbD, BitField.put, g.mask_getLsbD, g.enc_getLsbD, hi]
  have h32 : f.lo + i < 32 := by omega
  by_cases h1 : g.lo ≤ f.lo + i
  · have h2 : m ≤ f.lo + i - g.lo := by have := hb h32 hi; omega
    have : ¬ (f.lo + i < g.lo + m) := by omega
    simp [hk h2, h32, h1, this]
  · simp [h32, h1]

/-- Bits outside a field's mask are not changed by putting the field. -/
theorem BitField.put_outside_mask (f : BitField k) (v : BitVec k) (w : Word) :
    f.put v w &&& ~~~f.mask = w &&& ~~~f.mask := by
  have h := f.enc_outside_mask v
  ext i hi
  have hb := congrArg (fun x => x.getLsbD i) h
  simp [← BitVec.getLsbD_eq_getElem, BitField.put, hi] at hb ⊢
  grind

/-- A field reads the same in two words that agree on a mask it lies in. -/
theorem BitField.get_eq_of_agree (f : BitField k) (m x y : Word) (hm : f.mask &&& ~~~m = 0)
    (h : x &&& m = y &&& m) : f.get x = f.get y := by
  ext i hi
  have hb := congrArg (fun z => z.getLsbD (f.lo + i)) h
  have hk := congrArg (fun z => z.getLsbD (f.lo + i)) hm
  simp [f.mask_getLsbD] at hb hk
  simp [← BitVec.getLsbD_eq_getElem, BitField.get_getLsbD]
  grind

/-- In a binding a model accepts, the fields of `RCC_CR`, of `RCC_PLLCFGR` and of `RCC_CFGR` lie apart. -/
theorem Bind.wf_apart (b : Bind) (h : b.wf = true) :
    disjointMasks [b.hsion.mask, b.hsirdy.mask, b.hsical.mask, b.hseon.mask, b.hserdy.mask, b.pllon.mask,
      b.pllrdy.mask] = true ∧
    disjointMasks [b.pllm.mask, b.plln.mask, b.pllp.mask, b.pllsrc.mask, b.pllq.mask] = true ∧
    disjointMasks [b.sw.mask, b.sws.mask, b.hpre.mask, b.ppre1.mask, b.ppre2.mask] = true := by
  simp only [Bind.wf, Bool.and_eq_true] at h
  exact ⟨h.1.1.1.1.2, h.1.1.1.2, h.1.1.2⟩

/-- No bit is both `rw` and `ro` (rule R46). -/
theorem Config.rw_ro_apart (c : Config) (h : c.bind.wf = true) (r : RegId) : c.rwMask r &&& c.roMask r = 0 := by
  obtain ⟨h1, _, h3⟩ := Bind.wf_apart _ h
  cases r <;> simp [Config.rwMask, Config.roMask]
  · simp only [disjointMasks, List.all_cons, List.all_nil, Bool.and_eq_true, decide_eq_true_eq] at h1
    obtain ⟨⟨a1, a2, a3, a4, a5, a6, _⟩, ⟨b1, b2, b3, b4, b5, _⟩, ⟨c1, c2, c3, c4, _⟩, ⟨d1, d2, d3, _⟩, ⟨e1, e2, _⟩,
      ⟨f1, _⟩, _⟩ := h1
    ext i hi
    have bit := fun (x : Word) (hx : x = 0#32) => congrArg (fun y => y.getLsbD i) hx
    replace a1 := bit _ a1; replace a2 := bit _ a2; replace a4 := bit _ a4; replace a6 := bit _ a6
    replace b2 := bit _ b2; replace b4 := bit _ b4; replace c1 := bit _ c1; replace c3 := bit _ c3
    replace d1 := bit _ d1; replace d3 := bit _ d3; replace e1 := bit _ e1; replace f1 := bit _ f1
    simp [hi] at *
    grind
  · simp only [disjointMasks, List.all_cons, List.all_nil, Bool.and_eq_true, decide_eq_true_eq] at h3
    obtain ⟨⟨a1, a2, a3, a4, _⟩, ⟨b1, b2, b3, _⟩, _⟩ := h3
    ext i hi
    have bit := fun (x : Word) (hx : x = 0#32) => congrArg (fun y => y.getLsbD i) hx
    replace a1 := bit _ a1; replace b2 := bit _ b2; replace b3 := bit _ b3
    simp [hi] at *
    grind

end Sys2Proof
end

