-- ==== Sys2Proof/Laws/State.lean ====
section
/-! SUPPORT. What every state update leaves in every field, one lemma per field and update: no later proof
unfolds a record update. -/

namespace Sys2Proof.Machine

variable (s : State)

@[simp] theorem State.emit_cfg (e : Event) : (s.emit e).cfg = s.cfg := rfl
@[simp] theorem State.emit_rom (e : Event) : (s.emit e).rom = s.rom := rfl
@[simp] theorem State.emit_seq (e : Event) : (s.emit e).seq = s.seq := rfl
@[simp] theorem State.emit_regs (e : Event) : (s.emit e).regs = s.regs := rfl
@[simp] theorem State.emit_hidden (e : Event) : (s.emit e).hidden = s.hidden := rfl
@[simp] theorem State.emit_port (e : Event) : (s.emit e).port = s.port := rfl
@[simp] theorem State.emit_events (e : Event) : (s.emit e).events = e :: s.events := rfl
@[simp] theorem State.emit_accessible (e : Event) : (s.emit e).accessible = s.accessible := rfl
@[simp] theorem State.emit_sched (e : Event) : (s.emit e).sched = s.sched := rfl
@[simp] theorem State.emit_freeCount (e : Event) : (s.emit e).freeCount = s.freeCount := rfl

@[simp] theorem State.setSeq_cfg (q : Seq) : (s.setSeq q).cfg = s.cfg := rfl
@[simp] theorem State.setSeq_rom (q : Seq) : (s.setSeq q).rom = s.rom := rfl
@[simp] theorem State.setSeq_seq (q : Seq) : (s.setSeq q).seq = q := rfl
@[simp] theorem State.setSeq_regs (q : Seq) : (s.setSeq q).regs = s.regs := rfl
@[simp] theorem State.setSeq_hidden (q : Seq) : (s.setSeq q).hidden = s.hidden := rfl
@[simp] theorem State.setSeq_port (q : Seq) : (s.setSeq q).port = s.port := rfl
@[simp] theorem State.setSeq_events (q : Seq) : (s.setSeq q).events = s.events := rfl
@[simp] theorem State.setSeq_accessible (q : Seq) : (s.setSeq q).accessible = s.accessible := rfl
@[simp] theorem State.setSeq_sched (q : Seq) : (s.setSeq q).sched = s.sched := rfl
@[simp] theorem State.setSeq_freeCount (q : Seq) : (s.setSeq q).freeCount = s.freeCount := rfl

@[simp] theorem State.setRegs_cfg (r : Regs) : (s.setRegs r).cfg = s.cfg := rfl
@[simp] theorem State.setRegs_rom (r : Regs) : (s.setRegs r).rom = s.rom := rfl
@[simp] theorem State.setRegs_seq (r : Regs) : (s.setRegs r).seq = s.seq := rfl
@[simp] theorem State.setRegs_regs (r : Regs) : (s.setRegs r).regs = r := rfl
@[simp] theorem State.setRegs_hidden (r : Regs) : (s.setRegs r).hidden = s.hidden := rfl
@[simp] theorem State.setRegs_port (r : Regs) : (s.setRegs r).port = s.port := rfl
@[simp] theorem State.setRegs_events (r : Regs) : (s.setRegs r).events = s.events := rfl
@[simp] theorem State.setRegs_accessible (r : Regs) : (s.setRegs r).accessible = s.accessible := rfl
@[simp] theorem State.setRegs_sched (r : Regs) : (s.setRegs r).sched = s.sched := rfl
@[simp] theorem State.setRegs_freeCount (r : Regs) : (s.setRegs r).freeCount = s.freeCount := rfl

@[simp] theorem State.setHidden_cfg (h : Hidden) : (s.setHidden h).cfg = s.cfg := rfl
@[simp] theorem State.setHidden_rom (h : Hidden) : (s.setHidden h).rom = s.rom := rfl
@[simp] theorem State.setHidden_seq (h : Hidden) : (s.setHidden h).seq = s.seq := rfl
@[simp] theorem State.setHidden_regs (h : Hidden) : (s.setHidden h).regs = s.regs := rfl
@[simp] theorem State.setHidden_hidden (h : Hidden) : (s.setHidden h).hidden = h := rfl
@[simp] theorem State.setHidden_port (h : Hidden) : (s.setHidden h).port = s.port := rfl
@[simp] theorem State.setHidden_events (h : Hidden) : (s.setHidden h).events = s.events := rfl
@[simp] theorem State.setHidden_accessible (h : Hidden) : (s.setHidden h).accessible = s.accessible := rfl
@[simp] theorem State.setHidden_sched (h : Hidden) : (s.setHidden h).sched = s.sched := rfl
@[simp] theorem State.setHidden_freeCount (h : Hidden) : (s.setHidden h).freeCount = s.freeCount := rfl

@[simp] theorem State.setPort_cfg (p : Port) : (s.setPort p).cfg = s.cfg := rfl
@[simp] theorem State.setPort_rom (p : Port) : (s.setPort p).rom = s.rom := rfl
@[simp] theorem State.setPort_seq (p : Port) : (s.setPort p).seq = s.seq := rfl
@[simp] theorem State.setPort_regs (p : Port) : (s.setPort p).regs = s.regs := rfl
@[simp] theorem State.setPort_hidden (p : Port) : (s.setPort p).hidden = s.hidden := rfl
@[simp] theorem State.setPort_port (p : Port) : (s.setPort p).port = p := rfl
@[simp] theorem State.setPort_events (p : Port) : (s.setPort p).events = s.events := rfl
@[simp] theorem State.setPort_accessible (p : Port) : (s.setPort p).accessible = s.accessible := rfl
@[simp] theorem State.setPort_sched (p : Port) : (s.setPort p).sched = s.sched := rfl
@[simp] theorem State.setPort_freeCount (p : Port) : (s.setPort p).freeCount = s.freeCount := rfl

@[simp] theorem State.setSched_cfg (ts : List Turn) : (s.setSched ts).cfg = s.cfg := rfl
@[simp] theorem State.setSched_rom (ts : List Turn) : (s.setSched ts).rom = s.rom := rfl
@[simp] theorem State.setSched_seq (ts : List Turn) : (s.setSched ts).seq = s.seq := rfl
@[simp] theorem State.setSched_regs (ts : List Turn) : (s.setSched ts).regs = s.regs := rfl
@[simp] theorem State.setSched_hidden (ts : List Turn) : (s.setSched ts).hidden = s.hidden := rfl
@[simp] theorem State.setSched_port (ts : List Turn) : (s.setSched ts).port = s.port := rfl
@[simp] theorem State.setSched_events (ts : List Turn) : (s.setSched ts).events = s.events := rfl
@[simp] theorem State.setSched_accessible (ts : List Turn) : (s.setSched ts).accessible = s.accessible := rfl
@[simp] theorem State.setSched_sched (ts : List Turn) : (s.setSched ts).sched = ts := rfl
@[simp] theorem State.setSched_freeCount (ts : List Turn) : (s.setSched ts).freeCount = s.freeCount := rfl

@[simp] theorem State.spend_cfg : s.spend.cfg = s.cfg := rfl
@[simp] theorem State.spend_rom : s.spend.rom = s.rom := rfl
@[simp] theorem State.spend_seq : s.spend.seq = s.seq := rfl
@[simp] theorem State.spend_regs : s.spend.regs = s.regs := rfl
@[simp] theorem State.spend_hidden : s.spend.hidden = s.hidden := rfl
@[simp] theorem State.spend_port : s.spend.port = s.port := rfl
@[simp] theorem State.spend_events : s.spend.events = s.events := rfl
@[simp] theorem State.spend_accessible : s.spend.accessible = s.accessible := rfl
@[simp] theorem State.spend_sched : s.spend.sched = s.sched := rfl
@[simp] theorem State.spend_freeCount : s.spend.freeCount = s.freeCount + 1 := rfl

@[simp] theorem State.setPhase_cfg (p : Phase) : (s.setPhase p).cfg = s.cfg := rfl
@[simp] theorem State.setPhase_rom (p : Phase) : (s.setPhase p).rom = s.rom := rfl
@[simp] theorem State.setPhase_seq (p : Phase) : (s.setPhase p).seq = { s.seq with phase := p } := rfl
@[simp] theorem State.setPhase_regs (p : Phase) : (s.setPhase p).regs = s.regs := rfl
@[simp] theorem State.setPhase_hidden (p : Phase) : (s.setPhase p).hidden = s.hidden := rfl
@[simp] theorem State.setPhase_port (p : Phase) : (s.setPhase p).port = s.port := rfl
@[simp] theorem State.setPhase_events (p : Phase) : (s.setPhase p).events = s.events := rfl
@[simp] theorem State.setPhase_accessible (p : Phase) : (s.setPhase p).accessible = s.accessible := rfl
@[simp] theorem State.setPhase_sched (p : Phase) : (s.setPhase p).sched = s.sched := rfl
@[simp] theorem State.setPhase_freeCount (p : Phase) : (s.setPhase p).freeCount = s.freeCount := rfl

@[simp] theorem State.setPollcnt_cfg (n : Nat) : (s.setPollcnt n).cfg = s.cfg := rfl
@[simp] theorem State.setPollcnt_rom (n : Nat) : (s.setPollcnt n).rom = s.rom := rfl
@[simp] theorem State.setPollcnt_seq (n : Nat) : (s.setPollcnt n).seq = { s.seq with pollcnt := n } := rfl
@[simp] theorem State.setPollcnt_regs (n : Nat) : (s.setPollcnt n).regs = s.regs := rfl
@[simp] theorem State.setPollcnt_hidden (n : Nat) : (s.setPollcnt n).hidden = s.hidden := rfl
@[simp] theorem State.setPollcnt_port (n : Nat) : (s.setPollcnt n).port = s.port := rfl
@[simp] theorem State.setPollcnt_events (n : Nat) : (s.setPollcnt n).events = s.events := rfl
@[simp] theorem State.setPollcnt_accessible (n : Nat) : (s.setPollcnt n).accessible = s.accessible := rfl
@[simp] theorem State.setPollcnt_sched (n : Nat) : (s.setPollcnt n).sched = s.sched := rfl
@[simp] theorem State.setPollcnt_freeCount (n : Nat) : (s.setPollcnt n).freeCount = s.freeCount := rfl

@[simp] theorem State.setRccCr_cfg (w : Word) : (s.setRccCr w).cfg = s.cfg := rfl
@[simp] theorem State.setRccCr_rom (w : Word) : (s.setRccCr w).rom = s.rom := rfl
@[simp] theorem State.setRccCr_seq (w : Word) : (s.setRccCr w).seq = s.seq := rfl
@[simp] theorem State.setRccCr_regs (w : Word) : (s.setRccCr w).regs = { s.regs with rccCr := w } := rfl
@[simp] theorem State.setRccCr_hidden (w : Word) : (s.setRccCr w).hidden = s.hidden := rfl
@[simp] theorem State.setRccCr_port (w : Word) : (s.setRccCr w).port = s.port := rfl
@[simp] theorem State.setRccCr_events (w : Word) : (s.setRccCr w).events = s.events := rfl
@[simp] theorem State.setRccCr_accessible (w : Word) : (s.setRccCr w).accessible = s.accessible := rfl
@[simp] theorem State.setRccCr_sched (w : Word) : (s.setRccCr w).sched = s.sched := rfl
@[simp] theorem State.setRccCr_freeCount (w : Word) : (s.setRccCr w).freeCount = s.freeCount := rfl

@[simp] theorem State.readReg_cfg (r : RegId) : (s.readReg r).cfg = s.cfg := rfl
@[simp] theorem State.readReg_rom (r : RegId) : (s.readReg r).rom = s.rom := rfl
@[simp] theorem State.readReg_seq (r : RegId) : (s.readReg r).seq = { s.seq with rd := s.regRead r } := rfl
@[simp] theorem State.readReg_regs (r : RegId) : (s.readReg r).regs = s.regs := rfl
@[simp] theorem State.readReg_hidden (r : RegId) : (s.readReg r).hidden = s.hidden := rfl
@[simp] theorem State.readReg_port (r : RegId) : (s.readReg r).port = s.port := rfl
@[simp] theorem State.readReg_events (r : RegId) : (s.readReg r).events = .rd r (s.regRead r) :: s.events := rfl
@[simp] theorem State.readReg_accessible (r : RegId) : (s.readReg r).accessible = s.accessible := rfl
@[simp] theorem State.readReg_sched (r : RegId) : (s.readReg r).sched = s.sched := rfl
@[simp] theorem State.readReg_freeCount (r : RegId) : (s.readReg r).freeCount = s.freeCount := rfl

@[simp] theorem State.rearm_cfg : s.rearm.cfg = s.cfg := rfl
@[simp] theorem State.rearm_rom : s.rearm.rom = s.rom := rfl
@[simp] theorem State.rearm_seq : s.rearm.seq = s.seq := rfl
@[simp] theorem State.rearm_regs : s.rearm.regs = { s.regs with timCnt := 0 } := rfl
@[simp] theorem State.rearm_hidden :
    s.rearm.hidden = { s.hidden with pscEff := s.cfg.bind.psc.get s.regs.timPsc } := rfl
@[simp] theorem State.rearm_port : s.rearm.port = s.port := rfl
@[simp] theorem State.rearm_events : s.rearm.events = s.events := rfl
@[simp] theorem State.rearm_accessible : s.rearm.accessible = s.accessible := rfl
@[simp] theorem State.rearm_sched : s.rearm.sched = s.sched := rfl
@[simp] theorem State.rearm_freeCount : s.rearm.freeCount = s.freeCount := rfl

@[simp] theorem State.store_cfg (r : RegId) (v : Word) : (s.store r v).cfg = s.cfg := rfl
@[simp] theorem State.store_rom (r : RegId) (v : Word) : (s.store r v).rom = s.rom := rfl
@[simp] theorem State.store_seq (r : RegId) (v : Word) : (s.store r v).seq = s.seq := rfl
@[simp] theorem State.store_regs (r : RegId) (v : Word) :
    (s.store r v).regs = s.regs.set r (s.storedWord r v) := rfl
@[simp] theorem State.store_hidden (r : RegId) (v : Word) : (s.store r v).hidden = s.hidden := rfl
@[simp] theorem State.store_port (r : RegId) (v : Word) : (s.store r v).port = s.port := rfl
@[simp] theorem State.store_events (r : RegId) (v : Word) : (s.store r v).events = s.events := rfl
@[simp] theorem State.store_accessible (r : RegId) (v : Word) : (s.store r v).accessible = s.accessible := rfl
@[simp] theorem State.store_sched (r : RegId) (v : Word) : (s.store r v).sched = s.sched := rfl
@[simp] theorem State.store_freeCount (r : RegId) (v : Word) : (s.store r v).freeCount = s.freeCount := rfl

@[simp] theorem State.enterFault_cfg : s.enterFault.cfg = s.cfg := rfl
@[simp] theorem State.enterFault_rom : s.enterFault.rom = s.rom := rfl
@[simp] theorem State.enterFault_seq : s.enterFault.seq = { s.seq with mode := .fault } := rfl
@[simp] theorem State.enterFault_regs : s.enterFault.regs = s.regs := rfl
@[simp] theorem State.enterFault_hidden : s.enterFault.hidden = s.hidden := rfl
@[simp] theorem State.enterFault_port : s.enterFault.port = s.port := rfl
@[simp] theorem State.enterFault_events : s.enterFault.events = .fault (.pollLimit s.seq.upc) :: s.events := rfl
@[simp] theorem State.enterFault_accessible : s.enterFault.accessible = s.accessible := rfl
@[simp] theorem State.enterFault_sched : s.enterFault.sched = s.sched := rfl
@[simp] theorem State.enterFault_freeCount : s.enterFault.freeCount = s.freeCount := rfl

@[simp] theorem State.accept_cfg (op : Nibble) (arg : Word) : (s.accept op arg).cfg = s.cfg := rfl
@[simp] theorem State.accept_rom (op : Nibble) (arg : Word) : (s.accept op arg).rom = s.rom := rfl
@[simp] theorem State.accept_seq (op : Nibble) (arg : Word) : (s.accept op arg).seq = s.seq := rfl
@[simp] theorem State.accept_regs (op : Nibble) (arg : Word) : (s.accept op arg).regs = s.regs := rfl
@[simp] theorem State.accept_hidden (op : Nibble) (arg : Word) : (s.accept op arg).hidden = s.hidden := rfl
@[simp] theorem State.accept_port (op : Nibble) (arg : Word) :
    (s.accept op arg).port = { s.port with cmdIn := none } := rfl
@[simp] theorem State.accept_events (op : Nibble) (arg : Word) :
    (s.accept op arg).events = .accept op arg :: s.events := rfl
@[simp] theorem State.accept_accessible (op : Nibble) (arg : Word) :
    (s.accept op arg).accessible = s.accessible := rfl
@[simp] theorem State.accept_sched (op : Nibble) (arg : Word) : (s.accept op arg).sched = s.sched := rfl
@[simp] theorem State.accept_freeCount (op : Nibble) (arg : Word) :
    (s.accept op arg).freeCount = s.freeCount := rfl

@[simp] theorem State.complete_cfg (op : Nibble) (resp : Word) : (s.complete op resp).cfg = s.cfg := rfl
@[simp] theorem State.complete_rom (op : Nibble) (resp : Word) : (s.complete op resp).rom = s.rom := rfl
@[simp] theorem State.complete_seq (op : Nibble) (resp : Word) : (s.complete op resp).seq = s.seq := rfl
@[simp] theorem State.complete_regs (op : Nibble) (resp : Word) : (s.complete op resp).regs = s.regs := rfl
@[simp] theorem State.complete_hidden (op : Nibble) (resp : Word) : (s.complete op resp).hidden = s.hidden := rfl
@[simp] theorem State.complete_port (op : Nibble) (resp : Word) :
    (s.complete op resp).port = { s.port with done := true, resp := resp } := rfl
@[simp] theorem State.complete_events (op : Nibble) (resp : Word) :
    (s.complete op resp).events = .done op resp :: s.events := rfl
@[simp] theorem State.complete_accessible (op : Nibble) (resp : Word) :
    (s.complete op resp).accessible = s.accessible := rfl
@[simp] theorem State.complete_sched (op : Nibble) (resp : Word) : (s.complete op resp).sched = s.sched := rfl
@[simp] theorem State.complete_freeCount (op : Nibble) (resp : Word) :
    (s.complete op resp).freeCount = s.freeCount := rfl

@[simp] theorem State.reject_cfg (op : Nibble) (why : RefuseReason) : (s.reject op why).cfg = s.cfg := rfl
@[simp] theorem State.reject_rom (op : Nibble) (why : RefuseReason) : (s.reject op why).rom = s.rom := rfl
@[simp] theorem State.reject_seq (op : Nibble) (why : RefuseReason) : (s.reject op why).seq = s.seq := rfl
@[simp] theorem State.reject_regs (op : Nibble) (why : RefuseReason) : (s.reject op why).regs = s.regs := rfl
@[simp] theorem State.reject_hidden (op : Nibble) (why : RefuseReason) : (s.reject op why).hidden = s.hidden := rfl
@[simp] theorem State.reject_port (op : Nibble) (why : RefuseReason) :
    (s.reject op why).port = { s.port with done := true, resp := 0xFFFFFFFF#32 } := rfl
@[simp] theorem State.reject_events (op : Nibble) (why : RefuseReason) :
    (s.reject op why).events = .refused op why :: s.events := rfl
@[simp] theorem State.reject_accessible (op : Nibble) (why : RefuseReason) :
    (s.reject op why).accessible = s.accessible := rfl
@[simp] theorem State.reject_sched (op : Nibble) (why : RefuseReason) : (s.reject op why).sched = s.sched := rfl
@[simp] theorem State.reject_freeCount (op : Nibble) (why : RefuseReason) :
    (s.reject op why).freeCount = s.freeCount := rfl

@[simp] theorem State.assertReset_cfg (k : ResetKind) : (s.assertReset k).cfg = s.cfg := rfl
@[simp] theorem State.assertReset_rom (k : ResetKind) : (s.assertReset k).rom = s.rom := rfl
@[simp] theorem State.assertReset_seq (k : ResetKind) : (s.assertReset k).seq = Seq.reset := rfl
@[simp] theorem State.assertReset_regs (k : ResetKind) : (s.assertReset k).regs = s.resetRegs k := rfl
@[simp] theorem State.assertReset_hidden (k : ResetKind) : (s.assertReset k).hidden = s.resetHidden k := rfl
@[simp] theorem State.assertReset_port (k : ResetKind) :
    (s.assertReset k).port = { Port.reset with rstN := false } := rfl
@[simp] theorem State.assertReset_events (k : ResetKind) : (s.assertReset k).events = [] := rfl
@[simp] theorem State.assertReset_accessible (k : ResetKind) : (s.assertReset k).accessible = s.accessible := rfl
@[simp] theorem State.assertReset_sched (k : ResetKind) : (s.assertReset k).sched = s.sched := rfl
@[simp] theorem State.assertReset_freeCount (k : ResetKind) : (s.assertReset k).freeCount = s.freeCount := rfl

@[simp] theorem State.releaseReset_cfg : s.releaseReset.cfg = s.cfg := rfl
@[simp] theorem State.releaseReset_rom : s.releaseReset.rom = s.rom := rfl
@[simp] theorem State.releaseReset_seq : s.releaseReset.seq = s.seq := rfl
@[simp] theorem State.releaseReset_regs : s.releaseReset.regs = s.regs := rfl
@[simp] theorem State.releaseReset_hidden : s.releaseReset.hidden = s.hidden := rfl
@[simp] theorem State.releaseReset_port : s.releaseReset.port = { s.port with rstN := true } := rfl
@[simp] theorem State.releaseReset_events : s.releaseReset.events = s.events := rfl
@[simp] theorem State.releaseReset_accessible : s.releaseReset.accessible = s.accessible := rfl
@[simp] theorem State.releaseReset_sched : s.releaseReset.sched = s.sched := rfl
@[simp] theorem State.releaseReset_freeCount : s.releaseReset.freeCount = s.freeCount := rfl

end Sys2Proof.Machine
end

