-- ==== Sys2Proof/Laws/Ops.lean ====
section
/-! SUPPORT. What each shared operation can do, said once: the register file, register writes, advancing `upc`,
polls, launches, the end of a pulse. -/

namespace Sys2Proof.Machine

/-- A register reads what was stored in it. -/
theorem Regs.get_set_same (r : Regs) (id : RegId) (v : Word) (h : id ≠ .timEgr) : (r.set id v).get id = v := by
  cases id <;> first | rfl | exact absurd rfl h

/-- Storing in one register leaves the others. -/
theorem Regs.get_set_ne (r : Regs) (id id' : RegId) (v : Word) (h : id ≠ id') :
    (r.set id v).get id' = r.get id' := by
  cases id <;> cases id' <;> first | rfl | exact absurd rfl h

@[simp] theorem Regs.set_timEgr (r : Regs) (v : Word) : r.set .timEgr v = r := rfl

/-- A write to any register but `TIM_EGR` stores. -/
theorem State.regWrite_eq_store (s : State) (r : RegId) (v : Word) (h : r ≠ .timEgr) :
    s.regWrite r v = s.store r v := by
  cases r <;> first | rfl | exact absurd rfl h

/-- A write to `TIM_EGR` with `UG` set re-arms the counter (rule R79). -/
theorem State.regWrite_ug (s : State) (v : Word) (h : isSet s.cfg.bind.ug v = true) :
    s.regWrite .timEgr v = s.rearm := by simp [State.regWrite, h]

/-- A write to `TIM_EGR` without `UG` changes nothing. -/
theorem State.regWrite_noUg (s : State) (v : Word) (h : isSet s.cfg.bind.ug v = false) :
    s.regWrite .timEgr v = s := by simp [State.regWrite, h]

/-- A register write changes the registers and the hidden state only. -/
theorem State.regWrite_frame (s : State) (r : RegId) (v : Word) :
    (s.regWrite r v).cfg = s.cfg ∧ (s.regWrite r v).rom = s.rom ∧ (s.regWrite r v).seq = s.seq ∧
    (s.regWrite r v).port = s.port ∧ (s.regWrite r v).events = s.events ∧
    (s.regWrite r v).accessible = s.accessible ∧ (s.regWrite r v).sched = s.sched ∧
    (s.regWrite r v).freeCount = s.freeCount := by
  by_cases h : r = .timEgr
  · subst h
    by_cases hu : isSet s.cfg.bind.ug v = true
    · rw [State.regWrite_ug s v hu]; simp
    · rw [State.regWrite_noUg s v (by simpa using hu)]; simp
  · rw [State.regWrite_eq_store s r v h]; simp

@[simp] theorem State.regWrite_cfg (s : State) (r : RegId) (v : Word) : (s.regWrite r v).cfg = s.cfg :=
  (s.regWrite_frame r v).1
@[simp] theorem State.regWrite_rom (s : State) (r : RegId) (v : Word) : (s.regWrite r v).rom = s.rom :=
  (s.regWrite_frame r v).2.1
@[simp] theorem State.regWrite_seq (s : State) (r : RegId) (v : Word) : (s.regWrite r v).seq = s.seq :=
  (s.regWrite_frame r v).2.2.1
@[simp] theorem State.regWrite_port (s : State) (r : RegId) (v : Word) : (s.regWrite r v).port = s.port :=
  (s.regWrite_frame r v).2.2.2.1
@[simp] theorem State.regWrite_events (s : State) (r : RegId) (v : Word) : (s.regWrite r v).events = s.events :=
  (s.regWrite_frame r v).2.2.2.2.1
@[simp] theorem State.regWrite_accessible (s : State) (r : RegId) (v : Word) :
    (s.regWrite r v).accessible = s.accessible := (s.regWrite_frame r v).2.2.2.2.2.1
@[simp] theorem State.regWrite_sched (s : State) (r : RegId) (v : Word) : (s.regWrite r v).sched = s.sched :=
  (s.regWrite_frame r v).2.2.2.2.2.2.1
@[simp] theorem State.regWrite_freeCount (s : State) (r : RegId) (v : Word) :
    (s.regWrite r v).freeCount = s.freeCount := (s.regWrite_frame r v).2.2.2.2.2.2.2

/-- A write reaches `rw` bits only. -/
theorem State.rwNow_within (s : State) (r : RegId) : s.rwNow r &&& ~~~s.cfg.rwMask r = 0 := by
  unfold State.rwNow
  split
  · simp
  · ext i hi; simp

/-- What a stored word holds, said once (rules R46, R67): the written bits where a write reaches, and every other bit as
held. -/
theorem State.storedWord_bits (s : State) (r : RegId) (v : Word) :
    s.storedWord r v &&& s.rwNow r = v &&& s.rwNow r ∧
    s.storedWord r v &&& ~~~s.rwNow r = s.regs.get r &&& ~~~s.rwNow r := by
  unfold State.storedWord
  constructor <;> (ext i hi; simp; grind)

/-- A write leaves every bit that is not `rw` as held. -/
theorem State.storedWord_keeps (s : State) (r : RegId) (v : Word) :
    s.storedWord r v &&& ~~~s.cfg.rwMask r = s.regs.get r &&& ~~~s.cfg.rwMask r := by
  have h1 := s.rwNow_within r
  unfold State.storedWord
  ext i hi
  have b := congrArg (fun y => y.getLsbD i) h1
  simp [hi] at b ⊢
  grind

/-- Writing the same word twice stores what writing it once stores (rule R67). -/
theorem State.storedWord_idem (s t : State) (r : RegId) (v : Word) (hm : t.rwNow r = s.rwNow r)
    (hg : t.regs.get r = s.storedWord r v) : t.storedWord r v = s.storedWord r v := by
  unfold State.storedWord at hg ⊢
  rw [hm, hg]
  ext i hi; simp; grind

/-- A register out of a write's reach is not changed by it. -/
theorem State.storedWord_none (s : State) (r : RegId) (v : Word) (h : s.rwNow r = 0) :
    s.storedWord r v = s.regs.get r := by
  unfold State.storedWord
  rw [h]
  show v &&& 0#32 ||| s.regs.get r &&& BitVec.allOnes 32 = s.regs.get r
  rw [BitVec.and_zero, BitVec.zero_or, BitVec.and_allOnes]

/-- Storing back what a register holds changes nothing. -/
theorem Regs.set_get (r : Regs) (id : RegId) : r.set id (r.get id) = r := by cases id <;> rfl

/-- The registers after `RegWrite`, apart from a re-arm: only the written one changes. -/
theorem State.regWrite_get_ne (s : State) (r r' : RegId) (v : Word) (hr : r ≠ .timEgr) (h : r ≠ r') :
    (s.regWrite r v).regs.get r' = s.regs.get r' := by
  rw [State.regWrite_eq_store s r v hr]
  exact Regs.get_set_ne _ _ _ _ h

/-- The hidden state after `RegWrite`, apart from a re-arm: unchanged. -/
theorem State.regWrite_hidden (s : State) (r : RegId) (v : Word) (hr : r ≠ .timEgr) :
    (s.regWrite r v).hidden = s.hidden := by
  rw [State.regWrite_eq_store s r v hr]; simp

/-- `upc <- upc + 1` answers a next state exactly when `upc` is not 31. -/
theorem State.nextUpc_next_iff (s t : State) :
    s.nextUpc = .next t ↔ s.seq.upc ≠ 31#5 ∧ t = s.setSeq { s.seq with upc := s.seq.upc + 1#5 } := by
  unfold State.nextUpc
  by_cases h : s.seq.upc = 31#5 <;> simp [h, eq_comm]

/-- An unsatisfied poll changes the sequencer and the trace only. -/
theorem State.pollAgain_frame (s : State) :
    s.pollAgain.cfg = s.cfg ∧ s.pollAgain.rom = s.rom ∧ s.pollAgain.regs = s.regs ∧
    s.pollAgain.hidden = s.hidden ∧ s.pollAgain.port = s.port ∧ s.pollAgain.accessible = s.accessible ∧
    s.pollAgain.sched = s.sched ∧ s.pollAgain.freeCount = s.freeCount := by
  unfold State.pollAgain
  by_cases h : limitReached s.cfg.pollLimit (s.seq.pollcnt + 1) = true <;> simp [h]

/-- An unsatisfied poll leaves `upc`, `x[0]`, `x[1]`, `phase`, `cmd` and `init_done`. -/
theorem State.pollAgain_seq (s : State) :
    s.pollAgain.seq.upc = s.seq.upc ∧ s.pollAgain.seq.us = s.seq.us ∧ s.pollAgain.seq.rd = s.seq.rd ∧
    s.pollAgain.seq.phase = s.seq.phase ∧ s.pollAgain.seq.cmd = s.seq.cmd ∧
    s.pollAgain.seq.initDone = s.seq.initDone ∧ s.pollAgain.seq.pollcnt = s.seq.pollcnt + 1 := by
  unfold State.pollAgain
  by_cases h : limitReached s.cfg.pollLimit (s.seq.pollcnt + 1) = true <;> simp [h]

/-- Without a limit an unsatisfied poll is only counted. -/
theorem State.pollAgain_noLimit (s : State) (h : s.cfg.pollLimit = none) :
    s.pollAgain = s.setPollcnt (s.seq.pollcnt + 1) := by
  simp [State.pollAgain, h, limitReached]

/-- A launch answers a next state exactly when the registers are reachable. -/
theorem State.launch_next_iff (s t : State) (q : Seq) :
    s.launch q = .next t ↔ s.accessible = true ∧ t = s.setSeq q := by
  unfold State.launch
  by_cases h : s.accessible = true <;> simp [h, eq_comm]

/-- The end of the pulse changes the ports and the count of free values only. -/
theorem State.endPulse_frame (s : State) :
    s.endPulse.cfg = s.cfg ∧ s.endPulse.rom = s.rom ∧ s.endPulse.seq = s.seq ∧ s.endPulse.regs = s.regs ∧
    s.endPulse.hidden = s.hidden ∧ s.endPulse.events = s.events ∧ s.endPulse.accessible = s.accessible ∧
    s.endPulse.sched = s.sched ∧ s.endPulse.port.rstN = s.port.rstN ∧ s.endPulse.port.cmdIn = s.port.cmdIn ∧
    s.endPulse.port.done = false := by
  unfold State.endPulse
  by_cases h : s.port.done = true
  · simp [h]
  · simp [h]

/-- With no pulse to end nothing changes. -/
theorem State.endPulse_eq (s : State) (h : s.port.done = false) : s.endPulse = s := by
  simp [State.endPulse, h]

/-- What RMW can do: read, or write and advance. -/
theorem execRmw_next (reg : RegId) (a b : Word) (s t : State) (h : execRmw reg a b s = .next t) :
    Instr.wf (.rmw reg a b) = true ∧
    ((s.seq.phase = .read ∧ t = (s.readReg reg).setPhase .write) ∨
     (s.seq.phase = .write ∧ s.seq.upc ≠ 31#5 ∧
      t = ((s.writeReg reg ((s.seq.rd &&& ~~~a) ||| b)).setPhase .read).setSeq
        { s.seq with phase := .read, upc := s.seq.upc + 1#5 })) := by
  unfold execRmw at h
  split at h
  · rename_i hwf
    refine ⟨hwf, ?_⟩
    split at h
    · exact .inl ⟨‹_›, by simpa using h.symm⟩
    · obtain ⟨h1, h2⟩ := (State.nextUpc_next_iff _ _).mp h
      exact .inr ⟨‹_›, by simpa [State.writeReg] using h1, by simpa [State.writeReg] using h2⟩
  · simp [State.refuseIllegal] at h

/-- What WR can do: write and advance. -/
theorem execWr_next (reg : RegId) (b : Word) (s t : State) (h : execWr reg b s = .next t) :
    Instr.wf (.wr reg b) = true ∧ s.seq.upc ≠ 31#5 ∧
      t = (s.writeReg reg b).setSeq { s.seq with upc := s.seq.upc + 1#5 } := by
  unfold execWr at h
  split at h
  · obtain ⟨h1, h2⟩ := (State.nextUpc_next_iff _ _).mp h
    exact ⟨‹_›, by simpa [State.writeReg] using h1, by simpa [State.writeReg] using h2⟩
  · simp [State.refuseIllegal] at h

/-- What POLLEQ can do: advance on a satisfied read, or count and stay. -/
theorem execPollEq_next (reg : RegId) (a b : Word) (s t : State) (h : execPollEq reg a b s = .next t) :
    Instr.wf (.pollEq reg a b) = true ∧
    ((s.regRead reg &&& a = b ∧ s.seq.upc ≠ 31#5 ∧
      t = (s.readReg reg).setSeq
        { s.seq with rd := s.regRead reg, pollcnt := 0, upc := s.seq.upc + 1#5 }) ∨
     (s.regRead reg &&& a ≠ b ∧ t = (s.readReg reg).pollAgain)) := by
  unfold execPollEq at h
  split at h
  · refine ⟨‹_›, ?_⟩
    split at h
    · obtain ⟨h1, h2⟩ := (State.nextUpc_next_iff _ _).mp h
      exact .inl ⟨‹_›, by simpa using h1, by simpa [State.setPollcnt, State.setSeq] using h2⟩
    · exact .inr ⟨‹_›, by simpa using h.symm⟩
  · simp [State.refuseIllegal] at h

/-- What POLLGE can do: advance on a value of at least `x[0]`, or stay. -/
theorem execPollGe_next (reg : RegId) (s t : State) (h : execPollGe reg s = .next t) :
    reg = .timCnt ∧
    ((s.seq.us ≤ s.regRead reg ∧ s.seq.upc ≠ 31#5 ∧
      t = (s.readReg reg).setSeq { s.seq with rd := s.regRead reg, upc := s.seq.upc + 1#5 }) ∨
     (¬ s.seq.us ≤ s.regRead reg ∧ t = s.readReg reg)) := by
  unfold execPollGe at h
  split at h
  · rename_i hwf
    refine ⟨by simpa [Instr.wf] using hwf, ?_⟩
    split at h
    · obtain ⟨h1, h2⟩ := (State.nextUpc_next_iff _ _).mp h
      exact .inl ⟨‹_›, by simpa using h1, by simpa using h2⟩
    · exact .inr ⟨‹_›, by simpa using h.symm⟩
  · simp [State.refuseIllegal] at h

/-- What INIT can do: be refused once the block is initialised, or launch at `INIT_ENTRY`. -/
theorem execInit_next (arg : Word) (s t : State) (h : execInit arg s = .next t) :
    (s.seq.initDone = true ∧ t = (s.accept opInit arg).reject opInit .alreadyInitialised) ∨
    (s.seq.initDone = false ∧ s.accessible = true ∧
      t = (s.accept opInit arg).setSeq
        { s.seq with cmd := opInit, upc := s.cfg.initEntry, phase := .read, pollcnt := 0, mode := .run }) := by
  unfold execInit at h
  split at h
  · exact .inl ⟨‹_›, by simpa using h.symm⟩
  · rename_i hi
    obtain ⟨h1, h2⟩ := (State.launch_next_iff _ _ _).mp h
    exact .inr ⟨by simpa using hi, by simpa using h1, h2⟩

/-- What DELAY can do: be refused before the block is initialised, or launch at `DELAY_ENTRY`. -/
theorem execDelay_next (arg : Word) (s t : State) (h : execDelay arg s = .next t) :
    (s.seq.initDone = false ∧ t = (s.accept opDelay arg).reject opDelay .notInitialised) ∨
    (s.seq.initDone = true ∧ s.accessible = true ∧
      t = (s.accept opDelay arg).setSeq
        { s.seq with us := arg, cmd := opDelay, upc := s.cfg.delayEntry, phase := .read, mode := .run }) := by
  unfold execDelay at h
  split at h
  · exact .inl ⟨‹_›, by simpa using h.symm⟩
  · rename_i hi
    obtain ⟨h1, h2⟩ := (State.launch_next_iff _ _ _).mp h
    exact .inr ⟨by simpa using hi, by simpa using h1, h2⟩

end Sys2Proof.Machine
end

