-- ==== Sys2Proof/Laws/PerInstr.lean ====
section
/-! SUPPORT. Per instruction: the word the encoder gives lies in the instruction's row of the opcode table, under
the row's own mask and match (spec/opcode_table.json; rules R101 to R105). -/

namespace Sys2Proof.Laws.TableRow

/-- A word lies in a row of the opcode table: under the row's mask it is the row's match. -/
def inUopRow (i : Instr) (mask bits : UopWord) : Prop :=
  ∃ w, encode i = .uop w ∧ w &&& mask = bits

/-- A command word lies in a row of the opcode table. -/
def inCmdRow (i : Instr) (mask bits : CmdWord) : Prop :=
  ∃ w, encode i = .cmd w ∧ w &&& mask = bits

/-- The instruction's word lies in its own row. -/
def Statement : Instr → Prop
  | .rmw reg a b => inUopRow (.rmw reg a b) 0xF00000000000000000#72 0x100000000000000000#72
  | .wr reg b => inUopRow (.wr reg b) 0xF0FFFFFFFF00000000#72 0x200000000000000000#72
  | .pollEq reg a b => inUopRow (.pollEq reg a b) 0xF00000000000000000#72 0x300000000000000000#72
  | .pollGe reg =>
    Instr.wf (.pollGe reg) = true → inUopRow (.pollGe reg) 0xFFFFFFFFFFFFFFFFFF#72 0x490000000000000000#72
  | .endProg => inUopRow .endProg 0xFFFFFFFFFFFFFFFFFF#72 0xF00000000000000000#72
  | .init arg => inCmdRow (.init arg) 0xF00000000#36 0x100000000#36
  | .delay arg => inCmdRow (.delay arg) 0xF00000000#36 0x200000000#36
  | .cpuf arg => inCmdRow (.cpuf arg) 0xF00000000#36 0x300000000#36

/-- Masking an assembled word masks its fields. -/
theorem uopWord_and (o r o' r' : Nibble) (a b a' b' : Word) :
    uopWord o r a b &&& uopWord o' r' a' b' = uopWord (o &&& o') (r &&& r') (a &&& a') (b &&& b') := by
  simp only [uopWord]
  rw [← BitVec.and_append, ← BitVec.and_append, ← BitVec.and_append]

/-- Masking an assembled command word masks its fields. -/
theorem cmdWord_and (o o' : Nibble) (a a' : Word) :
    cmdWord o a &&& cmdWord o' a' = cmdWord (o &&& o') (a &&& a') := by
  simp only [cmdWord]
  rw [← BitVec.and_append]

theorem rmw (reg : RegId) (a b : Word) : Statement (.rmw reg a b) := by
  refine ⟨_, rfl, ?_⟩
  rw [show 0xF00000000000000000#72 = uopWord 0xF#4 0 0 0 by decide, uopWord_and]
  simp [opcRmw, uopWord]

theorem wr (reg : RegId) (b : Word) : Statement (.wr reg b) := by
  refine ⟨_, rfl, ?_⟩
  rw [show 0xF0FFFFFFFF00000000#72 = uopWord 0xF#4 0 0xFFFFFFFF#32 0 by decide, uopWord_and]
  simp [opcWr, uopWord]

theorem pollEq (reg : RegId) (a b : Word) : Statement (.pollEq reg a b) := by
  refine ⟨_, rfl, ?_⟩
  rw [show 0xF00000000000000000#72 = uopWord 0xF#4 0 0 0 by decide, uopWord_and]
  simp [opcPollEq, uopWord]

theorem pollGe (reg : RegId) : Statement (.pollGe reg) := by
  intro h
  obtain rfl : reg = .timCnt := by simpa [Instr.wf] using h
  exact ⟨_, rfl, by decide⟩

theorem endProg : Statement .endProg := ⟨_, rfl, by decide⟩

theorem init (arg : Word) : Statement (.init arg) := by
  refine ⟨_, rfl, ?_⟩
  rw [show 0xF00000000#36 = cmdWord 0xF#4 0 by decide, cmdWord_and]
  simp [opInit, cmdWord]

theorem delay (arg : Word) : Statement (.delay arg) := by
  refine ⟨_, rfl, ?_⟩
  rw [show 0xF00000000#36 = cmdWord 0xF#4 0 by decide, cmdWord_and]
  simp [opDelay, cmdWord]

theorem cpuf (arg : Word) : Statement (.cpuf arg) := by
  refine ⟨_, rfl, ?_⟩
  rw [show 0xF00000000#36 = cmdWord 0xF#4 0 by decide, cmdWord_and]
  simp [opCpuf, cmdWord]

end Sys2Proof.Laws.TableRow
end

