-- ==== Sys2Proof/Laws/Rom.lean ====
section
/-! SUPPORT. The laws of the ROM: reading after placing a word, and that every operation keeps the canonical form
(rule R61). -/

namespace Sys2Proof

theorem Rom.read_write_same (rom : Rom) (a : RomAddr) (w : UopWord) (lo : Nat) (h : romWfFrom lo rom = true) :
    Rom.read (Rom.write rom a w) a = w := by
  induction rom generalizing lo with
  | nil => by_cases hw : w = 0#72 <;> simp [Rom.write, Rom.read, hw]
  | cons p rest ih =>
    obtain ⟨k, v⟩ := p
    simp only [romWfFrom, Bool.and_eq_true, decide_eq_true_eq] at h
    obtain ⟨⟨⟨_, _⟩, _⟩, hrest⟩ := h
    have absent : ∀ (r : Rom) (m : Nat), romWfFrom m r = true → a.toNat < m → Rom.read r a = 0 := by
      intro r
      induction r with
      | nil => intros; rfl
      | cons q r ihr =>
        intro m hm hlt
        simp only [romWfFrom, Bool.and_eq_true, decide_eq_true_eq] at hm
        have hne : ¬ q.1 = a.toNat := by omega
        simp only [Rom.read, hne, if_false]
        exact ihr _ hm.2 (by omega)
    by_cases h1 : a.toNat < k
    · by_cases hw : w = 0#72
      · have hne : ¬ k = a.toNat := by omega
        simp [Rom.write, h1, hw, Rom.read, hne, absent rest (k + 1) hrest (by omega)]
      · simp [Rom.write, h1, hw, Rom.read]
    · by_cases h2 : a.toNat = k
      · by_cases hw : w = 0#72
        · simp [Rom.write, h2, hw, absent rest (k + 1) hrest (by omega)]
        · simp [Rom.write, h2, hw, Rom.read]
      · have hne : ¬ k = a.toNat := by omega
        simp [Rom.write, h1, h2, Rom.read, hne, ih _ hrest]

theorem Rom.read_write_ne (rom : Rom) (a b : RomAddr) (w : UopWord) (hab : b ≠ a) (lo : Nat)
    (h : romWfFrom lo rom = true) : Rom.read (Rom.write rom a w) b = Rom.read rom b := by
  have hab' : ¬ a.toNat = b.toNat := fun e => hab (BitVec.eq_of_toNat_eq e.symm)
  induction rom generalizing lo with
  | nil => by_cases hw : w = 0#72 <;> simp [Rom.write, Rom.read, hw, hab']
  | cons p rest ih =>
    obtain ⟨k, v⟩ := p
    simp only [romWfFrom, Bool.and_eq_true, decide_eq_true_eq] at h
    by_cases h1 : a.toNat < k
    · by_cases hw : w = 0#72 <;> simp [Rom.write, h1, hw, Rom.read, hab']
    · by_cases h2 : a.toNat = k
      · subst h2
        by_cases hw : w = 0#72 <;> simp [Rom.write, hw, Rom.read, hab']
      · simp [Rom.write, h1, h2, Rom.read, ih _ h.2]

theorem romWfFrom_mono (rom : Rom) (lo lo' : Nat) (h : romWfFrom lo rom = true) (hl : lo' ≤ lo) :
    romWfFrom lo' rom = true := by
  cases rom with
  | nil => rfl
  | cons p rest =>
    simp only [romWfFrom, Bool.and_eq_true, decide_eq_true_eq] at h ⊢
    exact ⟨⟨⟨by omega, h.1.1.2⟩, h.1.2⟩, h.2⟩

/-- Placing a word keeps the canonical form. -/
theorem Rom.write_wfFrom (rom : Rom) (a : RomAddr) (w : UopWord) (lo : Nat) (h : romWfFrom lo rom = true)
    (hlo : lo ≤ a.toNat) : romWfFrom lo (Rom.write rom a w) = true := by
  have ha : a.toNat < 32 := a.isLt
  induction rom generalizing lo with
  | nil => by_cases hw : w = 0#72 <;> simp [Rom.write, romWfFrom, hw, hlo, ha]
  | cons p rest ih =>
    obtain ⟨k, v⟩ := p
    simp only [romWfFrom, Bool.and_eq_true, decide_eq_true_eq] at h
    obtain ⟨⟨⟨h1, h2⟩, h3⟩, h4⟩ := h
    replace h3 : ¬ v = 0#72 := h3
    by_cases hlt : a.toNat < k
    · by_cases hw : w = 0#72
      · simp [Rom.write, hlt, hw, romWfFrom, h1, h2, h3, h4]
      · have : a.toNat + 1 ≤ k := by omega
        simp [Rom.write, hlt, hw, romWfFrom, this, h2, h3, h4, hlo, ha]
    · by_cases heq : a.toNat = k
      · by_cases hw : w = 0#72
        · simp [Rom.write, heq, hw, romWfFrom_mono rest _ lo h4 (by omega)]
        · simp [Rom.write, heq, hw, romWfFrom, h1, h2, h4]
      · simp [Rom.write, hlt, heq, romWfFrom, h1, h2, h3, ih _ h4 (by omega)]

theorem Rom.write_wf (rom : Rom) (a : RomAddr) (w : UopWord) (h : Rom.wf rom = true) :
    Rom.wf (Rom.write rom a w) = true := Rom.write_wfFrom rom a w 0 h (Nat.zero_le _)

/-- The opcode of an assembled word is the one it was assembled with. -/
theorem uopOpc_uopWord (opc reg : Nibble) (a b : Word) : uopOpc (uopWord opc reg a b) = opc := by
  ext i hi
  simp only [uopOpc, uopWord, ← BitVec.getLsbD_eq_getElem]
  simp only [BitVec.getLsbD_extractLsb', BitVec.getLsbD_append, hi, decide_true, Bool.true_and]
  rw [if_neg (by omega), if_neg (by omega), if_neg (by omega)]
  congr 1; omega

/-- The register id of an assembled word is the one it was assembled with. -/
theorem uopReg_uopWord (opc reg : Nibble) (a b : Word) : uopReg (uopWord opc reg a b) = reg := by
  ext i hi
  simp only [uopReg, uopWord, ← BitVec.getLsbD_eq_getElem, BitVec.getLsbD_extractLsb', BitVec.getLsbD_append]
  grind

/-- The first operand of an assembled word is the one it was assembled with. -/
theorem uopA_uopWord (opc reg : Nibble) (a b : Word) : uopA (uopWord opc reg a b) = a := by
  ext i hi
  simp only [uopA, uopWord, ← BitVec.getLsbD_eq_getElem, BitVec.getLsbD_extractLsb', BitVec.getLsbD_append]
  grind

/-- The second operand of an assembled word is the one it was assembled with. -/
theorem uopB_uopWord (opc reg : Nibble) (a b : Word) : uopB (uopWord opc reg a b) = b := by
  ext i hi
  simp only [uopB, uopWord, ← BitVec.getLsbD_eq_getElem, BitVec.getLsbD_extractLsb', BitVec.getLsbD_append]
  grind

/-- The op code of an assembled command word is the one it was assembled with. -/
theorem cmdOp_cmdWord (op : Nibble) (arg : Word) : cmdOp (cmdWord op arg) = op := by
  ext i hi
  simp only [cmdOp, cmdWord, ← BitVec.getLsbD_eq_getElem, BitVec.getLsbD_extractLsb', BitVec.getLsbD_append]
  grind

/-- The argument of an assembled command word is the one it was assembled with. -/
theorem cmdArg_cmdWord (op : Nibble) (arg : Word) : cmdArg (cmdWord op arg) = arg := by
  ext i hi
  simp only [cmdArg, cmdWord, ← BitVec.getLsbD_eq_getElem, BitVec.getLsbD_extractLsb', BitVec.getLsbD_append]
  grind

/-- A register's id selects the register. -/
theorem RegId.ofCode_code (r : RegId) : RegId.ofCode r.code = some r := by cases r <;> rfl

theorem uopWord_ne_zero (opc reg : Nibble) (a b : Word) (h : opc ≠ 0) : uopWord opc reg a b ≠ 0 := by
  intro h0
  apply h
  have := uopOpc_uopWord opc reg a b
  rw [h0] at this
  rw [← this]
  decide

/-- Every word of the block's own programs is other than all zeros. -/
theorem placeProgram_wfFrom (is : List Instr) (start : Nat) (tail : Rom) (hlen : start + is.length ≤ 32)
    (hnz : ∀ i ∈ is, uopBits i ≠ 0) (htail : romWfFrom (start + is.length) tail = true) :
    romWfFrom start (placeProgram start is ++ tail) = true := by
  induction is generalizing start with
  | nil => simpa [placeProgram] using htail
  | cons i is ih =>
    simp only [List.length_cons] at hlen htail
    simp only [placeProgram, List.cons_append, romWfFrom, Bool.and_eq_true, decide_eq_true_eq]
    refine ⟨⟨⟨le_refl _, by omega⟩, hnz i (by simp)⟩, ?_⟩
    refine ih (start + 1) (by omega) (fun j hj => hnz j (by simp [hj])) ?_
    rwa [show start + 1 + is.length = start + (is.length + 1) by omega]

/-- No word of the block's own programs is all zeros. -/
theorem Config.program_ne_zero (c : Config) : ∀ i ∈ c.initProgram ++ delayProgram, uopBits i ≠ 0 := by
  intro i hi
  simp only [Config.initProgram, delayProgram, setb, clrb, wrf, waitset, waitclr, waiteq, List.mem_append,
    List.mem_cons, List.not_mem_nil, or_false] at hi
  rcases hi with hi | hi
  · rcases hi with h | h | h | h | h | h | h | h | h | h | h | h | h | h | h | h | h | h | h <;>
      (subst h; exact uopWord_ne_zero _ _ _ _ (by decide))
  · rcases hi with h | h | h <;> (subst h; exact uopWord_ne_zero _ _ _ _ (by decide))

/-- The parts of a well-formed configuration that its ROM and its timer rest on. -/
theorem Config.wf_parts (c : Config) (h : c.wf = true) :
    c.timerWf = true ∧ c.pllWf = true ∧ c.layoutWf = true ∧ c.bind.wf = true := by
  simp only [Config.wf, Bool.and_eq_true] at h
  exact ⟨h.1.1.1.1.1.2, h.1.1.1.1.2, h.1.1.1.1.1.1, h.2⟩

/-- The two programs lie in the ROM and apart from each other. -/
theorem Config.entries_apart (c : Config) (h : c.layoutWf = true) :
    (c.initEntry.toNat + 19 ≤ c.delayEntry.toNat ∧ c.delayEntry.toNat + 3 ≤ 32) ∨
    (c.delayEntry.toNat + 3 ≤ c.initEntry.toNat ∧ c.initEntry.toNat + 19 ≤ 32) := by
  simp only [Config.layoutWf, Bool.and_eq_true, decide_eq_true_eq] at h
  exact h.2

/-- Two programs one after the other are in canonical form. -/
theorem placeTwo_wf (p q : List Instr) (a b : Nat) (hab : a + p.length ≤ b) (hb : b + q.length ≤ 32)
    (hp : ∀ i ∈ p, uopBits i ≠ 0) (hq : ∀ i ∈ q, uopBits i ≠ 0) :
    Rom.wf (placeProgram a p ++ placeProgram b q) = true := by
  refine romWfFrom_mono _ a 0 (placeProgram_wfFrom p a _ (by omega) hp ?_) (Nat.zero_le _)
  refine romWfFrom_mono _ b _ ?_ hab
  have h := placeProgram_wfFrom q b [] hb hq rfl
  rwa [List.append_nil] at h

/-- The ROM of every configuration whose layout is well formed is in canonical form. -/
theorem Config.rom_wf (c : Config) (h : c.layoutWf = true) : Rom.wf c.rom = true := by
  have nz := c.program_ne_zero
  have h1 : c.initProgram.length = 19 := rfl
  have h2 : delayProgram.length = 3 := rfl
  unfold Config.rom
  split
  · exact placeTwo_wf _ _ _ _ (by have := c.entries_apart h; omega) (by have := c.entries_apart h; omega)
      (fun i hi => nz i (List.mem_append_left _ hi)) (fun i hi => nz i (List.mem_append_right _ hi))
  · exact placeTwo_wf _ _ _ _ (by have := c.entries_apart h; omega) (by have := c.entries_apart h; omega)
      (fun i hi => nz i (List.mem_append_right _ hi)) (fun i hi => nz i (List.mem_append_left _ hi))

/-- The word at the `n`-th place of a program, and of anything laid out after it. -/
theorem Rom.read_placed (p : List Instr) (a n : Nat) (i : Instr) (tail : Rom) (hi : p[n]? = some i)
    (x : RomAddr) (hx : x.toNat = a + n) : Rom.read (placeProgram a p ++ tail) x = uopBits i := by
  induction p generalizing a n with
  | nil => simp at hi
  | cons q p ih =>
    cases n with
    | zero =>
      obtain rfl : q = i := by simpa using hi
      simp [placeProgram, Rom.read, hx]
    | succ n =>
      have hne : ¬ a = x.toNat := by omega
      simp only [placeProgram, List.cons_append, Rom.read, hne, if_false]
      exact ih (a + 1) n (by simpa using hi) (by omega)

/-- Outside a program's addresses the ROM reads as what is laid out after the program. -/
theorem Rom.read_past (p : List Instr) (a : Nat) (tail : Rom) (x : RomAddr)
    (hx : x.toNat < a ∨ a + p.length ≤ x.toNat) : Rom.read (placeProgram a p ++ tail) x = Rom.read tail x := by
  induction p generalizing a with
  | nil => rfl
  | cons q p ih =>
    simp only [List.length_cons] at hx
    have hne : ¬ a = x.toNat := by omega
    simp only [placeProgram, List.cons_append, Rom.read, hne, if_false]
    exact ih (a + 1) (by omega)

end Sys2Proof

namespace Sys2Proof.Machine

/-- The ROM after reset is in canonical form. -/
theorem State.reset_rom_wf : Rom.wf State.reset.rom = true :=
  Config.rom_wf Config.default (by decide)

end Sys2Proof.Machine
end

