-- ==== Sys2Proof/Laws/Step.lean ====
section
/-! SUPPORT. What one step can do, and what the environment's steps leave alone: every statement about a step
starts from `step_next` and `runTurn`'s cases. -/

namespace Sys2Proof.Machine

/-- A step answers a next state exactly when the configuration is well formed, no safety predicate fails, and
the next move answers it. -/
theorem step_next_iff (s t : State) :
    step s = .next t ↔ s.cfg.wf = true ∧ s.violation = none ∧
      runTurn s.endPulse.nextTurn (s.endPulse.setSched s.sched.tail) = .next t := by
  unfold step State.move
  rw [s.endPulse_frame.2.2.2.2.2.2.2.1]
  by_cases h : s.cfg.wf = true
  · cases hv : s.violation <;> simp [h]
  · simp [h]

/-- A state that violates a safety predicate faults with that predicate's name. -/
theorem step_violation (s : State) (f : Fault) (h : s.cfg.wf = true) (hv : s.violation = some f) :
    step s = .fault f := by simp [step, h, hv]

/-- Ending a pulse does not enable or disable ENV.DIV. -/
theorem State.divEnabled_endPulse (s : State) : s.endPulse.divEnabled = s.divEnabled := by
  obtain ⟨hc, _, _, hr, hh, _⟩ := s.endPulse_frame
  have hd : ∀ b, s.endPulse.divPending b = s.divPending b := by
    intro b
    unfold State.divPending
    rw [decide_eq_decide]
    cases b <;> simp only [State.effPpre, State.ppre, hc, hr, hh]
  simp only [State.divEnabled, hd]

/-- What is ready and what is fetched does not change when a pulse ends and a move is used up. -/
theorem State.ready_endPulse (s : State) (ts : List Turn) :
    (s.endPulse.setSched ts).seqReady = s.seqReady ∧ (s.endPulse.setSched ts).cmdReady = s.cmdReady ∧
      (s.endPulse.setSched ts).fetch = s.fetch := by
  obtain ⟨_, hrom, hq, _, hh, _, _, _, hn, _, _⟩ := s.endPulse_frame
  have hd : (s.endPulse.setSched ts).divEnabled = s.divEnabled := s.divEnabled_endPulse
  refine ⟨?_, ?_, ?_⟩
  · simp only [State.seqReady, hd, State.setSched_seq, State.setSched_hidden, State.setSched_port, hq, hh, hn]
  · simp only [State.cmdReady, State.setSched_seq, State.setSched_port, hq, hn]
  · simp only [State.fetch, State.setSched_seq, State.setSched_rom, hq, hrom]

/-- Ending a pulse does not change whose move it is; only which divider ENV.DIV takes rests on a free value. -/
theorem State.nextTurn_endPulse (s : State) (h : ∀ b, s.nextTurn ≠ .div b) :
    s.endPulse.nextTurn = s.nextTurn := by
  obtain ⟨hc, _, hq, hr, hh, he, _, hs, hn, hi, _⟩ := s.endPulse_frame
  have hde : s.endPulse.divEnabled = s.divEnabled := s.divEnabled_endPulse
  have ht : s.endPulse.tickEnabled = s.tickEnabled := by
    simp only [State.tickEnabled, State.counterOn, State.freezeOn, hc, hr, hh]
  have hj : s.endPulse.justTicked = s.justTicked := by simp only [State.justTicked, he]
  have hsr : s.endPulse.seqReady = s.seqReady := by simp only [State.seqReady, hq, hh, hde, hn]
  have hcr : s.endPulse.cmdReady = s.cmdReady := by simp only [State.cmdReady, hq, hn]
  have hcv : s.endPulse.cmdValid = s.cmdValid := by simp only [State.cmdValid, hi]
  unfold State.nextTurn at h ⊢
  rw [hs]
  cases hl : s.sched with
  | cons t ts => rfl
  | nil =>
    rw [hl] at h
    simp only [State.defaultTurn, hde, ht, hj, hsr, hcr, hcv] at h ⊢
    by_cases hdiv : s.divEnabled = true
    · have hx := h s.divChoice
      simp [hdiv] at hx
    · simp [hdiv]

/-- The micro-op decoder gives micro-ops only. -/
theorem decodeMicroOp_isMicroOp (w : UopWord) (i : Instr) (h : decodeMicroOp w = .ok i) :
    (∀ arg, i ≠ .init arg) ∧ (∀ arg, i ≠ .delay arg) ∧ (∀ arg, i ≠ .cpuf arg) := by
  unfold decodeMicroOp decodeRmw decodeWr decodePollEq decodePollGe decodeEnd at h
  repeat' split at h
  all_goals first | (cases h; done) | (cases h; simp)

/-- What a step does, said once: one move, made after the pulse of the step before has ended and the move is used
up; the move is `nextTurn`, except that which of two dividers ENV.DIV takes may differ. -/
theorem step_cases (s t : State) (h : step s = .next t) :
    s.cfg.wf = true ∧ s.violation = none ∧
      ∃ m, (m = s.nextTurn ∨ ∃ b c, s.nextTurn = .div b ∧ m = .div c) ∧
        runTurn m (s.endPulse.setSched s.sched.tail) = .next t := by
  obtain ⟨h1, h2, h3⟩ := (step_next_iff s t).mp h
  refine ⟨h1, h2, s.endPulse.nextTurn, ?_, h3⟩
  by_cases hd : ∃ b, s.nextTurn = .div b
  · obtain ⟨b, hb⟩ := hd
    by_cases hl : s.sched = []
    · have hde : s.endPulse.divEnabled = s.divEnabled := s.divEnabled_endPulse
      unfold State.nextTurn at hb ⊢
      rw [s.endPulse_frame.2.2.2.2.2.2.2.1, hl]
      rw [hl] at hb
      by_cases hdiv : s.divEnabled = true
      · exact .inr ⟨b, _, hb, by simp only [State.defaultTurn, hde, hdiv, if_true]; rfl⟩
      · simp only [State.defaultTurn, hdiv, Bool.false_eq_true, if_false] at hb
        repeat' split at hb
        all_goals simp at hb
    · obtain ⟨x, xs, hx⟩ := List.exists_cons_of_ne_nil hl
      left
      unfold State.nextTurn
      rw [s.endPulse_frame.2.2.2.2.2.2.2.1, hx]
  · exact .inl (s.nextTurn_endPulse (fun b hb => hd ⟨b, hb⟩))

/-- What SEQ's move can do: nothing without a step, else the meaning of one of the five micro-ops. -/
theorem seqTurn_next (s t : State) (h : s.seqTurn = .next t) :
    (s.seqReady = false ∧ t = s) ∨
    (s.seqReady = true ∧
      ((∃ r a b, decodeMicroOp s.fetch = .ok (.rmw r a b) ∧ execRmw r a b s = .next t) ∨
       (∃ r b, decodeMicroOp s.fetch = .ok (.wr r b) ∧ execWr r b s = .next t) ∨
       (∃ r a b, decodeMicroOp s.fetch = .ok (.pollEq r a b) ∧ execPollEq r a b s = .next t) ∨
       (∃ r, decodeMicroOp s.fetch = .ok (.pollGe r) ∧ execPollGe r s = .next t) ∨
       (decodeMicroOp s.fetch = .ok .endProg ∧ execEndProg s = .next t))) := by
  unfold State.seqTurn at h
  split at h
  · rename_i hr
    refine .inr ⟨hr, ?_⟩
    split at h
    · rename_i i hi
      have hno := decodeMicroOp_isMicroOp s.fetch i hi
      cases i with
      | rmw r a b => exact .inl ⟨r, a, b, hi, h⟩
      | wr r b => exact .inr (.inl ⟨r, b, hi, h⟩)
      | pollEq r a b => exact .inr (.inr (.inl ⟨r, a, b, hi, h⟩))
      | pollGe r => exact .inr (.inr (.inr (.inl ⟨r, hi, h⟩)))
      | endProg => exact .inr (.inr (.inr (.inr ⟨hi, h⟩)))
      | init arg => exact absurd rfl (hno.1 arg)
      | delay arg => exact absurd rfl (hno.2.1 arg)
      | cpuf arg => exact absurd rfl (hno.2.2 arg)
    · simp [State.refuseIllegal] at h
  · rename_i hr
    exact .inl ⟨by simpa using hr, by simpa using h.symm⟩

/-- What the taking of a command can do: nothing, the meaning of one of the three commands, or the refusal of a
reserved one. -/
theorem takeTurn_next (s t : State) (h : s.takeTurn = .next t) :
    t = s ∨
    (s.cmdReady = true ∧ ∃ w, s.port.cmdIn = some w ∧
      ((cmdOp w = opInit ∧ execInit (cmdArg w) s = .next t) ∨
       (cmdOp w = opDelay ∧ execDelay (cmdArg w) s = .next t) ∨
       (cmdOp w = opCpuf ∧ execCpuf (cmdArg w) s = .next t) ∨
       t = s.rejectReserved w)) := by
  unfold State.takeTurn at h
  split at h
  · rename_i hr
    split at h
    · exact .inl (by simpa using h.symm)
    · rename_i w hw
      refine .inr ⟨hr, w, hw, ?_⟩
      by_cases h1 : cmdOp w = opInit
      · exact .inl ⟨h1, by simpa [decodeCommand, h1, exec] using h⟩
      · by_cases h2 : cmdOp w = opDelay
        · exact .inr (.inl ⟨h2, by simpa [decodeCommand, h1, h2, opInit, opDelay, exec] using h⟩)
        · by_cases h3 : cmdOp w = opCpuf
          · exact .inr (.inr (.inl ⟨h3, by
              simpa [decodeCommand, h1, h2, h3, opInit, opDelay, opCpuf, exec] using h⟩))
          · exact .inr (.inr (.inr (by simpa [decodeCommand, h1, h2, h3, eq_comm] using h)))
  · exact .inl (by simpa using h.symm)

/-- SEQ's move is the decoded instruction's meaning. -/
theorem seqTurn_decoded (s : State) (i : Instr) (hr : s.seqReady = true) (hd : decodeMicroOp s.fetch = .ok i) :
    s.seqTurn = exec i s := by simp [State.seqTurn, hr, hd]

/-- Without a step SEQ's move changes nothing. -/
theorem seqTurn_held (s : State) (hr : s.seqReady = false) : s.seqTurn = .next s := by
  simp [State.seqTurn, hr]

/-- The taking of a command is the decoded command's meaning. -/
theorem takeTurn_decoded (s : State) (w : CmdWord) (i : Instr) (hr : s.cmdReady = true)
    (hw : s.port.cmdIn = some w) (hd : decodeCommand w = .ok i) : s.takeTurn = exec i s := by
  simp [State.takeTurn, hr, hw, hd]

/-- An environment step: one that changes neither the sequencer nor the ports, the ROM, the configuration or the
moves to come. -/
def EnvFrame (s t : State) : Prop :=
  t.cfg = s.cfg ∧ t.rom = s.rom ∧ t.seq = s.seq ∧ t.port = s.port ∧ t.accessible = s.accessible ∧
    t.sched = s.sched ∧ t.freeCount = s.freeCount

theorem hseStep_frame (s : State) : EnvFrame s s.hseStep := by
  unfold State.hseStep EnvFrame
  by_cases h : s.hseEnabled = true
  · simp [h]
  · by_cases h' : s.hseFallEnabled = true <;> simp [h, h']

theorem pllStep_frame (s : State) : EnvFrame s s.pllStep := by
  unfold State.pllStep EnvFrame
  by_cases h : s.pllEnabled = true <;> simp [h]

theorem swStep_frame (s : State) : EnvFrame s s.swStep := by
  unfold State.swStep EnvFrame
  by_cases h : s.swEnabled = true <;> simp [h]

theorem hsiStep_frame (s : State) : EnvFrame s s.hsiStep := by
  unfold State.hsiStep EnvFrame
  by_cases h : s.hsiEnabled = true <;> simp [h]

theorem divStep_frame (s : State) (b : Bus) : EnvFrame s (s.divStep b) := by
  unfold State.divStep EnvFrame
  by_cases h : s.divPending b = true
  · cases b <;> simp [h]
  · simp [h]

theorem tickStep_frame (s : State) : EnvFrame s s.tickStep := by
  unfold State.tickStep EnvFrame
  by_cases h : s.tickEnabled = true <;> simp [h]

theorem haltStep_frame (s : State) (b : Bool) : EnvFrame s (s.haltStep b) := by
  simp [State.haltStep, EnvFrame]

end Sys2Proof.Machine
end

