-- ==== Sys2Proof/Tests/Slice0.lean ====
section
/-! SUPPORT. Tests of this row's own: each expected result is taken from the spec's encodings and vectors
(spec/95_test_vectors.md), none from the model. -/

namespace Sys2Proof.Tests

open Sys2Proof.Machine

/-! WellFormed smoke: one ill-formed term for each check (rule R107). -/

theorem test_wf_rmw_counter : Instr.wf (.rmw .timCnt 1#32 1#32) = false := by decide
theorem test_wf_rmw_value_outside : Instr.wf (.rmw .rccCr 1#32 2#32) = false := by decide
theorem test_wf_wr_counter : Instr.wf (.wr .timCnt 5#32) = false := by decide
theorem test_wf_pollEq_value_outside : Instr.wf (.pollEq .rccCr 1#32 2#32) = false := by decide
theorem test_wf_pollGe_other_register : Instr.wf (.pollGe .rccCr) = false := by decide

/-! Decoding: one word per row, written out from the field positions of rules R101 and R102 (95 V6, V13). -/

/-- opc 0001, reg 0001, a = bit 16, b = bit 16 (95 V6). -/
theorem test_decode_rmw :
    decodeMicroOp (0b0001#4 ++ 0b0001#4 ++ 0x00010000#32 ++ 0x00010000#32) =
      .ok (.rmw .rccCr 0x00010000#32 0x00010000#32) := by decide
/-- opc 0010, reg 1010, a = 0, b = 0x5F (95 V6). -/
theorem test_decode_wr :
    decodeMicroOp (0b0010#4 ++ 0b1010#4 ++ 0#32 ++ 0x0000005F#32) = .ok (.wr .timPsc 0x0000005F#32) := by decide
/-- opc 0011, reg 0011, a = 0xC, b = 0x8 (95 V6). -/
theorem test_decode_pollEq :
    decodeMicroOp (0b0011#4 ++ 0b0011#4 ++ 0x0000000C#32 ++ 0x00000008#32) =
      .ok (.pollEq .rccCfgr 0x0000000C#32 0x00000008#32) := by decide
/-- opc 0100, reg 1001 (95 V6). -/
theorem test_decode_pollGe :
    decodeMicroOp (0b0100#4 ++ 0b1001#4 ++ 0#32 ++ 0#32) = .ok (.pollGe .timCnt) := by decide
/-- opc 1111, all else 0 (95 V6). -/
theorem test_decode_endProg : decodeMicroOp (0b1111#4 ++ 0#4 ++ 0#32 ++ 0#32) = .ok .endProg := by decide
/-- op 0001 with any argument (95 V13). -/
theorem test_decode_init : decodeCommand (0b0001#4 ++ 0xDEADBEEF#32) = .ok (.init 0xDEADBEEF#32) := by decide
/-- op 0010, argument 1000 (95 V13). -/
theorem test_decode_delay : decodeCommand (0b0010#4 ++ 0x000003E8#32) = .ok (.delay 1000#32) := by decide
/-- op 0011 (95 V13). -/
theorem test_decode_cpuf : decodeCommand (0b0011#4 ++ 0#32) = .ok (.cpuf 0#32) := by decide

/-- The illegal micro-op words of 95 V12, each with the name it is rejected by. -/
theorem test_decode_illegal :
    decodeMicroOp 0x000000000000000000#72 = .error .illegalOpcode ∧
    decodeMicroOp 0x500000000000000000#72 = .error .illegalOpcode ∧
    decodeMicroOp 0xE00000000000000000#72 = .error .illegalOpcode ∧
    decodeMicroOp 0x1C0000000100000001#72 = .error .reservedRegister ∧
    decodeMicroOp 0x110000000100000002#72 = .error .valueOutsideMask ∧
    decodeMicroOp 0x210000000100000000#72 = .error .operandNotZero ∧
    decodeMicroOp 0x290000000000000005#72 = .error .writesCounter ∧
    decodeMicroOp 0x190000000100000001#72 = .error .writesCounter ∧
    decodeMicroOp 0x410000000000000000#72 = .error .notTheCounter ∧
    decodeMicroOp 0x490000000000000001#72 = .error .operandNotZero ∧
    decodeMicroOp 0xF10000000000000000#72 = .error .operandNotZero := by decide

/-- The reserved command words of 95 V13. -/
theorem test_decode_reserved_commands :
    decodeCommand 0x000000000#36 = .error .reservedCommand ∧
    decodeCommand 0x400000000#36 = .error .reservedCommand ∧
    decodeCommand 0xFFFFFFFFF#36 = .error .reservedCommand := by decide

/-! Configuration and ROM (95 V1 to V5; rules R152, R205). -/

theorem test_default_wf : Config.default.wf = true := by decide
/-- 95 V2: core above its maximum, VCO too low, VCO input too low, no exact division, P and Q out of range, core
no multiple of the tick. -/
theorem test_refused_configs :
    Config.wf { Config.default with pllN := 216 } = false ∧
    Config.wf { Config.default with pllN := 96 } = false ∧
    Config.wf { Config.default with pllM := 50 } = false ∧
    Config.wf { Config.default with pllM := 12, pllN := 96 } = false ∧
    Config.wf { Config.default with pllP := 3 } = false ∧
    Config.wf { Config.default with pllQ := 1 } = false ∧
    Config.wf { Config.default with pllN := 193 } = false ∧
    Config.wf { Config.default with tickHz := 1000 } = false ∧
    Config.wf { Config.default with ppre1Final := 1 } = false := by decide
/-- 95 V2, accepted rows: value operands of ROM addresses 3 and 6 and the prescaler. -/
theorem test_accepted_configs :
    let c := { Config.default with pllN := 336, pllP := 4, pllQ := 7 }
    let d := { Config.default with fHse := 16000000, pllM := 16, pllN := 120, pllP := 4, pllQ := 5 }
    c.wf = true ∧ c.pllValue = 0x07415419#32 ∧ c.flashValue = 0x00000702#32 ∧ c.pscVal = 83 ∧
    d.wf = true ∧ d.pllValue = 0x05411E10#32 ∧ d.flashValue = 0x00000700#32 ∧ d.pscVal = 29 := by decide
/-- The regulator's codes, the reserved one included (rule R109). -/
theorem test_vos_codes :
    ([0b00#2, 0b01#2, 0b10#2, 0b11#2].map vosScale) = [3, 3, 2, 1] ∧
    ([0b00#2, 0b01#2, 0b10#2, 0b11#2].map vosMaxHz) = [64000000, 64000000, 84000000, 100000000] := by decide
/-- A binding with `UG` off bit 0, overlapping programs, and a ROM of another depth are refused (rules R61, R205). -/
theorem test_refused_layouts :
    Config.wf { Config.default with bind := { Config.default.bind with ug := ⟨1⟩ } } = false ∧
    Config.wf { Config.default with delayEntry := 18#5 } = false ∧
    Config.wf { Config.default with romDepth := 64 } = false := by decide
/-- The default ROM, word for word, but the END words (rule R152). -/
theorem test_rom_words_init :
    (List.range 9).map (fun a => Rom.read Config.default.rom (BitVec.ofNat 5 a)) =
      [0x100000C0000000C000#72, 0x110001000000010000#72, 0x310002000000020000#72, 0x120F437FFF04403019#72,
       0x110100000001000000#72, 0x310200000002000000#72, 0x150000070F00000703#72, 0x130000FC000000FC00#72,
       0x130000000300000002#72] := by decide
/-- The rest of the INIT program, the gap and the DELAY program (rules R152, R205). -/
theorem test_rom_words_rest :
    ([9, 10, 11, 12, 13, 14, 15, 16, 17, 18, 19, 24, 25, 26, 31].map
      (fun a => Rom.read Config.default.rom (BitVec.ofNat 5 a))) =
      [0x330000000C00000008#72, 0x110000000100000000#72, 0x310000000200000000#72, 0x130000FC0000001000#72,
       0x140000000700000007#72, 0x160000000100000001#72, 0x2A000000000000005F#72, 0x170000000100000001#72,
       0x2B0000000020000000#72, 0xF00000000000000000#72, 0#72, 0x280000000000000001#72,
       0x490000000000000000#72, 0xF00000000000000000#72, 0#72] := by decide

/-! Micro-ops (95 V7 to V11). -/

/-- A state after reset that runs, with `RCC_CR` given. -/
def withRccCr (w : Word) : State :=
  { State.reset with
    seq := { Seq.reset with mode := .run, cmd := 1#4 }
    regs := { State.reset.regs with rccCr := w } }

/-- A state in the write phase, with `x[1]` and `RCC_CR` given. -/
def inWritePhase (rd w : Word) : State :=
  { withRccCr w with seq := { (withRccCr w).seq with phase := .write, rd := rd } }

/-- A state that polls the counter, with `x[0]` and `TIM_CNT` given. -/
def polling (us cnt : Word) : State :=
  { State.reset with
    seq := { Seq.reset with mode := .run, upc := 25#5, us := us, cmd := 2#4, initDone := true }
    regs := { State.reset.regs with timCnt := cnt } }

/-- What a test looks at in a next state. -/
def look {α : Type} (f : State → α) : Result → Option α
  | .next s => some (f s)
  | .fault _ => none
  | .refused _ => none

/-- 95 V7 (a), first phase. -/
theorem test_rmw_reads :
    look (fun s => (s.seq.rd, s.seq.phase, s.events))
      (exec (.rmw .rccCr 0x00010000#32 0x00010000#32) (withRccCr 0x00000083#32)) =
      some (0x00000083#32, .write, [.rd .rccCr 0x00000083#32]) := by decide
/-- 95 V7 (d): the stale flag in the written word is ignored. -/
theorem test_rmw_keeps_changed_flag :
    look (fun s => (s.regs.rccCr, s.events))
      (exec (.rmw .rccCr 0x01000000#32 0x01000000#32) (inWritePhase 0x00010083#32 0x00030083#32)) =
      some (0x01030083#32, [.wr .rccCr 0x01010083#32]) := by decide
/-- 95 V8 (a): the prescaler in effect does not change at the write. -/
theorem test_wr_prescaler :
    look (fun s => (s.regs.timPsc, s.hidden.pscEff, s.seq.upc))
      (exec (.wr .timPsc 0x0000005F#32) (withRccCr 0#32)) = some (95#32, 0#16, 1#5) := by decide
/-- 95 V8 (b): the re-arm. -/
theorem test_wr_rearm :
    look (fun s => (s.regs.timCnt, s.hidden.pscEff, s.regRead .timEgr))
      (exec (.wr .timEgr 1#32)
        { withRccCr 0#32 with regs := { State.reset.regs with timCnt := 0x1234#32, timPsc := 95#32 } }) =
      some (0#32, 95#16, 0#32) := by decide
/-- The same word written twice equals once (rule R67), bits a write does not reach included. -/
theorem test_wr_twice :
    let once := (withRccCr 0#32).regWrite .pwrCr 0#32
    once.regs.pwrCr = 0#32 ∧ (once.regWrite .pwrCr 0#32).regs = once.regs := by decide
/-- 95 V9 (d): `SWS` = 0b01 does not satisfy, 0b10 does. -/
theorem test_pollEq_field :
    look (fun s => (s.seq.upc, s.seq.pollcnt))
      (exec (.pollEq .rccCfgr 0xC#32 0x8#32)
        { withRccCr 0#32 with regs := { State.reset.regs with rccCfgr := 0x0000FC06#32 } }) = some (0#5, 1) ∧
    look (fun s => (s.seq.upc, s.seq.pollcnt))
      (exec (.pollEq .rccCfgr 0xC#32 0x8#32)
        { withRccCr 0#32 with regs := { State.reset.regs with rccCfgr := 0x0000FC0A#32 } }) = some (1#5, 0) := by
  decide
/-- 95 V9 (f), V19: the limit's last unsatisfied read enters FAULT mode in the same step. -/
theorem test_pollEq_limit :
    look (fun s => (s.seq.mode, s.seq.upc, s.events))
      (exec (.pollEq .rccCr 0x02000000#32 0x02000000#32)
        { State.resetWith { Config.default with pollLimit := some 3 } with
          seq := { Seq.reset with mode := .run, upc := 5#5, pollcnt := 2 } }) =
      some (.fault, 5#5, [.fault (.pollLimit 5#5), .rd .rccCr 0x00000083#32]) := by decide
/-- 95 V10 (a), (c), (d): zero, at least, unsigned. -/
theorem test_pollGe_unsigned :
    look (fun s => s.seq.upc) (exec (.pollGe .timCnt) (polling 0#32 0x1234#32)) = some 26#5 ∧
    look (fun s => s.seq.upc) (exec (.pollGe .timCnt) (polling 3#32 7#32)) = some 26#5 ∧
    look (fun s => s.seq.upc) (exec (.pollGe .timCnt) (polling 0x80000000#32 0x7FFFFFFF#32)) = some 25#5 ∧
    look (fun s => s.seq.upc) (exec (.pollGe .timCnt) (polling 0x80000000#32 0xFFFFFFFF#32)) = some 26#5 := by
  decide
/-- 95 V11: END of INIT sets `init_done`, END of DELAY leaves it; `upc` stays. -/
theorem test_end :
    look (fun s => (s.seq.mode, s.seq.initDone, s.seq.upc, s.events, s.port.done))
      (exec .endProg { withRccCr 0#32 with seq := { Seq.reset with mode := .run, upc := 18#5, cmd := 1#4 } }) =
      some (.idle, true, 18#5, [.done 1#4 0#32], true) ∧
    look (fun s => s.seq.initDone)
      (exec .endProg { withRccCr 0#32 with seq := { Seq.reset with mode := .run, upc := 26#5, cmd := 2#4 } }) =
      some false := by decide

/-! Commands (95 V14, P4). -/

theorem test_delay_before_init :
    look (fun s => (s.events, s.seq, s.port.resp)) (exec (.delay 5#32) State.reset) =
      some ([.refused 2#4 .notInitialised, .accept 2#4 5#32], Seq.reset, 0xFFFFFFFF#32) := by decide
theorem test_cpuf :
    look (fun s => (s.events, s.seq, s.port.resp)) (exec (.cpuf 0x12345678#32) State.reset) =
      some ([.done 3#4 96000000#32, .accept 3#4 0x12345678#32], Seq.reset, 0x05B8D800#32) := by decide
theorem test_init :
    look (fun s => (s.seq.mode, s.seq.upc, s.events)) (exec (.init 0#32) State.reset) =
      some (.run, 0#5, [.accept 1#4 0#32]) := by decide
theorem test_second_init :
    look (fun s => (s.seq.mode, s.events))
      (exec (.init 0#32) { State.reset with seq := { Seq.reset with initDone := true } }) =
      some (.idle, [.refused 1#4 .alreadyInitialised, .accept 1#4 0#32]) := by decide
theorem test_delay :
    look (fun s => (s.seq.mode, s.seq.upc, s.seq.us))
      (exec (.delay 3#32) { State.reset with seq := { Seq.reset with initDone := true } }) =
      some (.run, 24#5, 3#32) := by decide
/-- A reserved command is taken and refused (95 V14). -/
theorem test_reserved_command :
    look (fun s => (s.seq, s.events, s.port.cmdIn))
      (step { State.reset with port := { Port.reset with cmdIn := some 0x700000000#36 } }) =
      some (Seq.reset, [.refused 7#4 .reserved, .accept 7#4 0#32], none) := by decide

/-! The environment (95 V15, V16). -/

theorem test_hse :
    (withRccCr 0x00000083#32).hseEnabled = false ∧ (withRccCr 0x00010083#32).hseEnabled = true ∧
    (withRccCr 0x00010083#32).hseStep.regs.rccCr = 0x00030083#32 := by decide
theorem test_hsi_in_use : (withRccCr 0x00000082#32).hsiEnabled = false := by decide
/-- ENV.PLL waits for its source; ENV.SW for the lock. -/
theorem test_pll_and_switch :
    let s (cr cfgr : Word) : State :=
      { withRccCr cr with
        regs := { (withRccCr cr).regs with rccPllcfgr := 0x24403019#32, rccCfgr := cfgr } }
    (s 0x01010083#32 0#32).pllEnabled = false ∧
    (s 0x01030083#32 0#32).pllStep.regs.rccCr = 0x03030083#32 ∧
    (s 0x03030083#32 0x0000FC02#32).swStep.regs.rccCfgr = 0x0000FC0A#32 ∧
    (s 0x01030083#32 0x00000002#32).swEnabled = false ∧
    (s 0x03030082#32 0x0000FC0A#32).hsiStep.regs.rccCr = 0x03030080#32 := by decide
/-- The counter wraps at `arr` and takes the prescaler over. -/
theorem test_tick_wraps :
    let s : State :=
      { State.reset with
        regs := { State.reset.regs with timCr1 := 1#32, timCnt := 0xFFFFFFFF#32, timPsc := 95#32 } }
    s.tickStep.regs.timCnt = 0#32 ∧ s.tickStep.hidden.pscEff = 95#16 := by decide
/-- Frozen while the core is halted and the freeze bit is set; SEQ has no step. -/
theorem test_freeze :
    let s : State :=
      { State.reset with
        seq := { Seq.reset with mode := .run }
        regs := { State.reset.regs with timCr1 := 1#32, dbgApb1fz := 1#32 }
        hidden := { State.reset.hidden with coreHalted := true } }
    s.tickEnabled = false ∧ s.seqReady = false := by decide

/-! Safety (95 V18) and reset (95 V21). -/

/-- The switch confirmed with the safety pre-step omitted: bus 1 at 96 MHz. -/
theorem test_violation_bus :
    State.violation
      { withRccCr 0x03030083#32 with
        regs :=
          { (withRccCr 0x03030083#32).regs with
            rccPllcfgr := 0x24403019#32, rccCfgr := 0x0000000A#32, flashAcr := 0x703#32 }
        events := [.rd .rccCr 0x03030083#32] } = some .safeBus := by decide
/-- The PLL selected with no read of the lock flag before. -/
theorem test_violation_lock :
    State.violation
      { withRccCr 0x03030083#32 with events := [.wr .rccCfgr 0x2#32] } = some .safeLock := by decide
/-- 95 V18 (e): `HSION` written 0 while `SWS` = 0, judged at the write and at no later event. -/
theorem test_violation_hsi :
    let s (es : List Event) : State := { withRccCr 0x00030082#32 with events := es }
    (s [.wr .rccCr 0x00030082#32]).violation = some .safeHsi ∧
    (s [.rd .rccCr 0x00030082#32, .wr .rccCr 0x00030082#32]).violation = none := by decide
/-- 95 P2's shape: six idle ticks between two waits and one tick between the reads of each. -/
theorem test_ticks_per_poll :
    let wait : List Event := [.done 2#4 0#32, .rd .timCnt 1#32, .tick 1#32, .rd .timCnt 0#32, .wr .timEgr 1#32,
      .accept 2#4 1#32]
    ticksPerPollOk 1 none (wait ++ List.replicate 6 (.tick 9#32) ++ wait) = true ∧
    ticksPerPollOk 1 none [.rd .timCnt 2#32, .tick 2#32, .tick 1#32, .rd .timCnt 0#32] = false := by decide
/-- Reset in FAULT mode leaves it. -/
theorem test_reset_leaves_fault :
    (State.assertReset { State.reset with seq := { Seq.reset with mode := .fault, upc := 5#5 } } .blockOnly).seq =
      Seq.reset := by decide

/-- `step` runs the placed word (the host's two functions): `WR VTOR, 0x20000000`. -/
theorem test_withFetchWord :
    look (fun s => (s.regs.vtor, s.events)) (step (State.reset.withFetchWord 72 0x2B0000000020000000)) =
      some (0x20000000#32, [.wr .vtor 0x20000000#32]) := by decide
theorem test_decodeTableWord :
    decodeTableWord 40 0x2000003E8 = some (.delay 1000#32) ∧ decodeTableWord 72 0 = none := by decide

/-! Witnesses: for each statement with hypotheses, a concrete state and operands that meet all of them, with one
witness at a boundary for each clause. -/

/-- A check of a next state, by evaluation. -/
def nextHas (r : Result) (p : State → Bool) : Bool :=
  match r with
  | .next t => p t
  | .fault _ => false
  | .refused _ => false

theorem next_of (r : Result) (p : State → Bool) (h : nextHas r p = true) : ∃ t, r = .next t ∧ p t = true := by
  cases r with
  | next t => exact ⟨t, rfl, h⟩
  | fault f => exact absurd h (by simp [nextHas])
  | refused f => exact absurd h (by simp [nextHas])

/-- A state that runs at an address of the block's own ROM. -/
def runningAt (upc : RomAddr) : State :=
  { State.reset with seq := { Seq.reset with mode := .run, upc := upc, cmd := 1#4 } }

/-- A state whose next move is settled. -/
def withTurn (t : Turn) (s : State) : State := { s with sched := [t] }

/-- A state that presents a command word. -/
def presenting (w : CmdWord) (s : State) : State := { s with port := { s.port with cmdIn := some w } }

/-- A state with the given `RCC_CR` and `RCC_CFGR`. -/
def withClocks (cr cfgr : Word) (s : State) : State :=
  { s with regs := { s.regs with rccCr := cr, rccCfgr := cfgr, rccPllcfgr := 0x24403019#32 } }

theorem witness_DecodeOfEncode :
    Instr.wf (.rmw .vtor 0xFFFFFFFF#32 0xFFFFFFFF#32) = true ∧ Instr.wf (.wr .timEgr 0#32) = true ∧
    Instr.wf (.pollEq .timCnt 0#32 0#32) = true ∧ Instr.wf (.pollGe .timCnt) = true ∧ Instr.wf .endProg = true ∧
    Instr.wf (.init 0xFFFFFFFF#32) = true ∧ Instr.wf (.delay 0#32) = true ∧ Instr.wf (.cpuf 1#32) = true := by decide
theorem witness_EncodeOfDecode :
    decode (.uop 0x490000000000000000#72) = .ok (.pollGe .timCnt) ∧
    decode (.cmd 0x3FFFFFFFF#36) = .ok (.cpuf 0xFFFFFFFF#32) := by decide
theorem witness_RmwReadsThenWrites :
    let s := runningAt 30#5
    Instr.wf (.rmw .rccCr 0x00010000#32 0x00010000#32) = true ∧ s.seq.phase = .read ∧
    (s.setPhase .write).seq.phase = .write ∧ (s.setPhase .write).seq.upc ≠ 31#5 := by decide
theorem witness_RmwReplacesMaskedBits :
    let s := runningAt 30#5
    Instr.wf (.rmw .rccPllcfgr 0x0F437FFF#32 0x04403019#32) = true ∧
    RegId.rccPllcfgr ≠ .timEgr ∧ 0x0F437FFF#32 &&& ~~~s.rwNow .rccPllcfgr = 0 ∧ s.seq.phase = .read ∧
    s.seq.upc ≠ 31#5 := by decide
theorem witness_WrWritesWholeWord :
    let s := runningAt 30#5
    Instr.wf (.wr .timEgr 1#32) = true ∧ Instr.wf (.wr .vtor 0#32) = true ∧
    isSet s.cfg.bind.ug 1#32 = true ∧ isSet s.cfg.bind.ug 2#32 = false ∧ s.seq.upc ≠ 31#5 := by decide
theorem witness_PllConfigWriteIgnoredWhileOn :
    let s := withClocks 0x01030083#32 0#32 (runningAt 30#5)
    s.pllOn = true ∧ s.seq.upc ≠ 31#5 ∧ Instr.wf (.rmw .rccPllcfgr 0x0F437FFF#32 0x04403019#32) = true ∧
    (s.setPhase .write).pllOn = true ∧ (s.setPhase .write).seq.upc ≠ 31#5 ∧
    (s.setPhase .write).seq.phase = .write := by decide
/-- Satisfied; unsatisfied below the limit; unsatisfied at the limit. -/
theorem witness_PollEqSamplesUntilEqual :
    let s : State := State.resetWith { Config.default with pollLimit := some 3 }
    Instr.wf (.pollEq .rccCr 2#32 2#32) = true ∧ s.regRead .rccCr &&& 2#32 = 2#32 ∧ s.seq.upc ≠ 31#5 ∧
    Instr.wf (.pollEq .rccCr 2#32 0#32) = true ∧ s.regRead .rccCr &&& 2#32 ≠ 0#32 ∧
    s.cfg.pollLimit = some 3 ∧ (s.setPollcnt 1).seq.pollcnt + 1 < 3 ∧ 3 ≤ (s.setPollcnt 2).seq.pollcnt + 1 := by
  decide
/-- Equal advances, one above does not. -/
theorem witness_PollGeComparesUnsigned :
    (polling 0x80000000#32 0x80000000#32).seq.us.toNat ≤
      ((polling 0x80000000#32 0x80000000#32).regRead .timCnt).toNat ∧
    (polling 0x80000000#32 0x80000000#32).seq.upc ≠ 31#5 ∧
    ((polling 0x80000001#32 0x80000000#32).regRead .timCnt).toNat <
      (polling 0x80000001#32 0x80000000#32).seq.us.toNat := by decide
theorem witness_RearmForgetsCounter :
    isSet (runningAt 24#5).cfg.bind.ug 1#32 = true ∧ (runningAt 24#5).seq.upc ≠ 31#5 := by decide
theorem witness_InitStartsOnce :
    (polling 0#32 0#32).seq.initDone = true ∧ State.reset.seq.initDone = false ∧ State.reset.accessible = true := by
  decide
theorem witness_DelayStartsAfterInit :
    State.reset.seq.initDone = false ∧ (polling 0#32 0#32).seq.initDone = true ∧
    (polling 0#32 0#32).accessible = true := by decide
theorem witness_LaunchNeedsReachableRegisters :
    let s : State := { State.reset with accessible := false }
    let u : State := { polling 0#32 0#32 with accessible := false }
    s.accessible = false ∧ s.seq.initDone = false ∧ u.accessible = false ∧ u.seq.initDone = true := by decide
/-- The ends of the two reserved ranges. -/
theorem witness_ReservedCommandRefused : ∀ w ∈ [0x0FFFFFFFF#36, 0x400000000#36, 0xF00000000#36],
    let s := presenting w State.reset
    s.cfg.wf = true ∧ s.violation = none ∧ s.nextTurn = .take ∧ s.cmdReady = true ∧ s.port.cmdIn = some w ∧
    cmdOp w ≠ 0x1#4 ∧ cmdOp w ≠ 0x2#4 ∧ cmdOp w ≠ 0x3#4 := by
  intro w hw
  simp only [List.mem_cons, List.not_mem_nil, or_false] at hw
  rcases hw with rfl | rfl | rfl <;> decide
theorem witness_StepRunsDecodedMicroOp :
    let s := runningAt 18#5
    s.cfg.wf = true ∧ s.violation = none ∧ s.nextTurn = .seq ∧ s.seqReady = true ∧
    decodeMicroOp s.fetch = .ok .endProg := by decide
theorem witness_StepTakesDecodedCommand :
    let s := presenting 0x200000003#36 State.reset
    s.cfg.wf = true ∧ s.violation = none ∧ s.nextTurn = .take ∧ s.cmdReady = true ∧
    s.port.cmdIn = some 0x200000003#36 ∧ decodeCommand 0x200000003#36 = .ok (.delay 3#32) := by decide
/-- The all-zero word at address 19, and a WR that stands at address 31. -/
theorem witness_IllegalMicroOpRefused :
    let s := runningAt 19#5
    let u : State := { runningAt 31#5 with rom := [(31, 0x2B0000000000000000#72)] }
    s.cfg.wf = true ∧ s.violation = none ∧ s.nextTurn = .seq ∧ s.seqReady = true ∧
    decodeMicroOp s.fetch = .error .illegalOpcode ∧
    u.cfg.wf = true ∧ u.violation = none ∧ u.nextTurn = .seq ∧ u.seqReady = true ∧
    decodeMicroOp u.fetch = .ok (.wr .vtor 0#32) ∧ u.seq.upc = 31#5 := by decide
theorem witness_IllFormedOperandsRefused : Instr.wf (.pollGe .vtor) = false := by decide
theorem witness_BadConfigurationRefused :
    (State.resetWith { Config.default with pllN := 216 }).cfg.wf = false := by decide
/-- A safe state, and a state in which each alternative holds. -/
theorem witness_UnsafeStatesFault :
    State.reset.cfg.wf = true ∧ State.reset.fCore = 16000000 ∧ State.reset.violation = none ∧
    (withClocks 0x03030083#32 0x0000000A#32 State.reset).fCore = 96000000 ∧
    (withClocks 0x03030083#32 0x0000000A#32 State.reset).violation = some .safeBus ∧
    (withClocks 0x00030083#32 0x00000002#32 State.reset).violation = some .safeLock ∧
    ({ withClocks 0x03030083#32 0xA#32 State.reset with
      hidden := { State.reset.hidden with effPpre1 := 4#3 }
      events := [.rd .rccCr 0x03030083#32] } : State).violation = some .safeFlash ∧
    ({ withClocks 0x00030082#32 0#32 State.reset with events := [.wr .rccCr 0x00030082#32] } : State).violation =
      some .safeHsi := by decide
/-- Each agent's move, changing its flag. -/
theorem witness_FlagsChangeOnlyByTheirAgents :
    State.reset.cfg.bind.wf = true ∧
    nextHas (step (withTurn .hse (withClocks 0x00010083#32 0#32 State.reset))) (fun t => t.hseReady) = true ∧
    nextHas (step (withTurn .pll (withClocks 0x01030083#32 0#32 State.reset))) (fun t => t.pllLocked) = true ∧
    nextHas (step (withTurn .sw (withClocks 0x00030083#32 1#32 State.reset))) (fun t => t.sws == 1#2) = true ∧
    nextHas (step (withTurn .hsi (withClocks 0x00030082#32 5#32 State.reset))) (fun t => !t.hsiReady) = true ∧
    nextHas (step (withTurn (.resetLow .powerOn) (withClocks 0x00030083#32 0#32 State.reset)))
      (fun t => !t.hseReady) = true := by decide
/-- `step` answers a next state, SEQ passing the poll of address 2. -/
theorem witness_PollsPassOnlyWhenSatisfied :
    let s := withClocks 0x00030083#32 0#32 (runningAt 2#5)
    decodeMicroOp s.fetch = .ok (.pollEq .rccCr 0x00020000#32 0x00020000#32) ∧ s.busy = true ∧
    ∃ t, step s = .next t ∧ (t.busy && t.seq.upc == 3#5) = true :=
  ⟨by decide, by decide, next_of _ _ (by decide)⟩
theorem witness_UpcMovesForward :
    (runningAt 17#5).busy = true ∧
    ∃ t, step (runningAt 17#5) = .next t ∧ (t.busy && t.seq.upc == 18#5) = true :=
  ⟨by decide, next_of _ _ (by decide)⟩
theorem witness_DelayArgumentLatched :
    let s := presenting 0x200000003#36 { State.reset with seq := { Seq.reset with initDone := true } }
    s.nextTurn = .take ∧ s.cmdReady = true ∧ ∃ t, step s = .next t ∧ (t.seq.us != s.seq.us) = true :=
  ⟨by decide, by decide, next_of _ _ (by decide)⟩
/-- Set at the END of INIT; kept at the END of DELAY. -/
theorem witness_InitDoneSticky :
    ((runningAt 18#5).seq.initDone = false ∧
      ∃ t, step (runningAt 18#5) = .next t ∧ t.seq.initDone = true) ∧
    ((polling 0#32 0#32).seq.initDone = true ∧
      ∃ t, step (polling 0#32 0#32) = .next t ∧ t.seq.initDone = true) :=
  ⟨⟨by decide, next_of _ _ (by decide)⟩, ⟨by decide, next_of _ _ (by decide)⟩⟩
theorem witness_RomAndConfigurationFixed :
    ∃ t, step (runningAt 15#5) = .next t ∧ (t.regs.timPsc == 95#32) = true := next_of _ _ (by decide)
/-- Two events of one step, one of them an access. -/
theorem witness_OneAccessPerStep :
    let s : State := { State.resetWith { Config.default with pollLimit := some 1 } with
      seq := { Seq.reset with mode := .run, upc := 5#5 } }
    ∃ t, step s = .next t ∧ (t.events.length == 2) = true := next_of _ _ (by decide)
theorem witness_OnlyWritersChangeRegisters :
    let s := runningAt 15#5
    ∃ t, step s = .next t ∧ (t.regs != s.regs) = true := next_of _ _ (by decide)
theorem witness_FaultModeLeftOnlyByReset :
    let s : State := presenting 0x300000000#36 { State.resetWith { Config.default with pollLimit := some 1 } with
      seq := { Seq.reset with mode := .fault, upc := 5#5 } }
    s.seq.mode = .fault ∧ ∃ t, step s = .next t ∧ decide (t.seq.mode = .fault) = true :=
  ⟨by decide, next_of _ _ (by decide)⟩
/-- A command waits while a program runs; the port is free, holds a word, and is held in reset. -/
theorem witness_PresentedCommandWaits :
    let s := presenting 0x300000000#36 (runningAt 15#5)
    (State.reset.port.rstN = true ∧ State.reset.port.cmdIn = none) ∧ s.port.cmdIn ≠ none ∧
    (State.reset.assertReset .blockOnly).port.rstN = false ∧ s.busy = true ∧ s.port.cmdIn = some 0x300000000#36 ∧
    ∃ t, step s = .next t ∧ (t.port.cmdIn == some 0x300000000#36) = true :=
  ⟨by decide, by decide, by decide, by decide, by decide, next_of _ _ (by decide)⟩
theorem witness_UnansweredPollHangs :
    let s := runningAt 2#5
    s.seqReady = true ∧ decodeMicroOp s.fetch = .ok (.pollEq .rccCr 0x00020000#32 0x00020000#32) ∧
    s.regRead .rccCr &&& 0x00020000#32 ≠ 0x00020000#32 ∧ s.cfg.pollLimit = none := by decide
theorem witness_OscillatorReports :
    let s (cr : Word) := withClocks cr 0#32 State.reset
    State.reset.cfg.bind.wf = true ∧ ((s 0x00010083#32).hseOn = true ∧ (s 0x00010083#32).hseReady = false) ∧
    ((s 0x00020083#32).hseOn = false ∧ (s 0x00020083#32).hseReady = true) ∧
    (s 0x00030083#32).hseOn = (s 0x00030083#32).hseReady ∧ (s 0x83#32).hseOn = (s 0x83#32).hseReady := by decide
/-- Enabled from either source; not enabled without the source. -/
theorem witness_PllLocksWithReadySource :
    let s (cr pll : Word) : State := { State.reset with regs := { State.reset.regs with rccCr := cr, rccPllcfgr := pll } }
    ((s 0x01030083#32 0x24403019#32).pllOn = true ∧ (s 0x01030083#32 0x24403019#32).pllLocked = false ∧
      (s 0x01030083#32 0x24403019#32).pllFromHse = true ∧ (s 0x01030083#32 0x24403019#32).hseReady = true) ∧
    ((s 0x01000083#32 0x24003010#32).pllOn = true ∧ (s 0x01000083#32 0x24003010#32).pllFromHse = false ∧
      (s 0x01000083#32 0x24003010#32).hsiReady = true) ∧
    ((s 0x01010083#32 0x24403019#32).pllOn = true ∧ (s 0x01010083#32 0x24403019#32).pllFromHse = true ∧
      (s 0x01010083#32 0x24403019#32).hseReady = false) := by decide
/-- The three codes with their source ready, and the code that is not allowed. -/
theorem witness_SwitchFollowsReadySource :
    let s (cfgr : Word) := withClocks 0x03030083#32 cfgr State.reset
    ((s 0x4#32).sws ≠ (s 0x4#32).sw ∧ (s 0x4#32).sw = 0b00#2 ∧ (s 0x4#32).hsiReady = true) ∧
    ((s 0x1#32).sws ≠ (s 0x1#32).sw ∧ (s 0x1#32).sw = 0b01#2 ∧ (s 0x1#32).hseReady = true) ∧
    ((s 0x2#32).sws ≠ (s 0x2#32).sw ∧ (s 0x2#32).sw = 0b10#2 ∧ (s 0x2#32).pllLocked = true) ∧
    (s 0x3#32).sw = 0b11#2 := by decide
theorem witness_InternalOscillatorStopsUnused :
    let s (cr cfgr : Word) := withClocks cr cfgr State.reset
    ((s 0x03030082#32 0xA#32).hsiOn = false ∧ (s 0x03030082#32 0xA#32).hsiReady = true ∧
      (s 0x03030082#32 0xA#32).sws ≠ 0b00#2 ∧ (s 0x03030082#32 0xA#32).pllFromHse = true) ∧
    (s 0x00030082#32 0#32).sws = 0b00#2 := by decide
theorem witness_DividersFollowOneAtATime :
    let s := withClocks 0x83#32 0x0000FC00#32 State.reset
    s.effPpre .one ≠ s.ppre .one ∧ s.effPpre .two ≠ s.ppre .two ∧ State.reset.effPpre .one = State.reset.ppre .one :=
  by decide
/-- A 16-bit counter. -/
def narrow : Config := { Config.default with cntWidth := 16, arrReset := 0xFFFF#32 }

/-- The counter runs, at its top and just below it; and stands while frozen. -/
def counting (cnt : Word) (halted : Bool) : State :=
  { State.resetWith narrow with
    regs := { State.reset.regs with timCr1 := 1#32, dbgApb1fz := 1#32, timCnt := cnt }
    hidden := { Hidden.reset narrow with coreHalted := halted } }

theorem counting_inv (cnt : Word) (b : Bool) (h : cnt &&& ~~~0xFFFF#32 = 0) (ht : cnt.toNat ≤ 0xFFFF) :
    (counting cnt b).Inv :=
  ⟨Config.rom_wf narrow (by decide), h, BitVec.zero_and, rfl, ht, nofun, nofun, nofun⟩

/-- One above the top of a 16-bit counter. -/
theorem witness_DelayBeyondTopHangs :
    let s : State := { counting 0xFFFF#32 false with seq := { Seq.reset with us := 0x10000#32 } }
    s.Inv ∧ s.hidden.arr.toNat < s.seq.us.toNat :=
  ⟨⟨Config.rom_wf narrow (by decide), by decide, BitVec.zero_and, rfl, by decide, nofun, nofun, nofun⟩,
    by decide⟩
theorem witness_CounterCountsAndWraps :
    (counting 0xFFFF#32 false).cfg.wf = true ∧
    ((counting 0xFFFF#32 false).Inv ∧ (counting 0xFFFF#32 false).counterOn = true ∧
      (counting 0xFFFF#32 false).hidden.coreHalted = false ∧
      (counting 0xFFFF#32 false).regs.timCnt = (counting 0xFFFF#32 false).hidden.arr) ∧
    ((counting 0xFFFE#32 false).Inv ∧ (counting 0xFFFE#32 false).counterOn = true ∧
      (counting 0xFFFE#32 false).regs.timCnt ≠ (counting 0xFFFE#32 false).hidden.arr) ∧
    ((counting 0#32 true).Inv ∧ (counting 0#32 true).freezeOn = true ∧
      (counting 0#32 true).hidden.coreHalted = true) :=
  ⟨by decide, ⟨counting_inv _ _ (by decide) (by decide), by decide⟩, ⟨counting_inv _ _ (by decide) (by decide), by decide⟩,
    ⟨counting_inv _ _ (by decide) (by decide), by decide⟩⟩
theorem witness_DebuggerSuspendsWait :
    (counting 0#32 true).hidden.coreHalted = true ∧ (counting 0#32 true).freezeOn = true := by decide
theorem witness_PllChainExact :
    Config.wf { Config.default with pllN := 336, pllP := 4, pllQ := 7 } = true := by decide
theorem witness_PllRunsAtProgrammedFrequency :
    let s := withClocks 0x83#32 0#32 State.reset
    s.cfg.wf = true ∧ s.regs.rccPllcfgr &&& s.cfg.pllMask = s.cfg.pllValue := by decide
/-- The edge of a band: 30 MHz and one hertz above (95 V3). -/
theorem witness_FwpMonotone :
    (Config.default.wsTable.map Prod.snd).Pairwise (· ≤ ·) ∧ Config.default.fwp 30000000 = some 0 ∧
    Config.default.fwp 30000001 = some 1 ∧ Config.default.fwp 100000001 = none := by decide
theorem witness_TickRateIsTickHz :
    let s : State := { withClocks 0x03030083#32 0xA#32 State.reset with
      regs := { (withClocks 0x03030083#32 0xA#32 State.reset).regs with timPsc := 95#32 } }
    s.cfg.wf = true ∧ s.fCore = s.cfg.fCore ∧
    s.cfg.bind.psc.get s.regs.timPsc = BitVec.ofNat 16 s.cfg.pscVal := by decide
theorem witness_ProgramsStandInRom :
    let c := { Config.default with initEntry := 3#5, delayEntry := 0#5 }
    Config.default.wf = true ∧ c.wf = true ∧ c.initProgram[18]? = some .endProg ∧
    Rom.read c.rom 21#5 = 0xF00000000000000000#72 ∧ Rom.read c.rom 2#5 = 0xF00000000000000000#72 ∧
    Rom.read c.rom 22#5 = 0 := by decide
theorem witness_RegisterResetWords :
    Config.closedDefault { Config.default with cntWidth := 16, arrReset := 0xFFFF#32 } ∧
    (Regs.reset Config.default 0x55#8).rccCr = 0x00005583#32 := ⟨rfl, by decide⟩
theorem witness_ResetFromAnyState :
    let s : State := { counting 0#32 true with seq := { Seq.reset with mode := .fault } }
    s.cfg.bind.wf = true ∧ s.regs.dbgApb1fz = 1#32 := by decide
theorem witness_StructuralInvKept :
    (counting 7#32 false).Inv ∧ ∃ t, step (counting 7#32 false) = .next t ∧ (t.regs.timCnt == 8#32) = true :=
  ⟨counting_inv _ _ (by decide) (by decide), next_of _ _ (by decide)⟩

/-- Between the two phases of address 8: the PLL locked, the flash and the dividers set, the switch still to come. -/
def switching : State :=
  { State.reset with
    seq := { Seq.reset with mode := .run, upc := 8#5, cmd := 1#4, phase := .write, rd := 0x0000FC00#32 }
    regs :=
      { State.reset.regs with
        rccCr := 0x03030083#32, rccCfgr := 0x0000FC00#32, rccPllcfgr := 0x24403019#32, flashAcr := 0x703#32 }
    hidden := { State.reset.hidden with effPpre1 := 7#3, effPpre2 := 7#3 }
    events := [.rd .rccCr 0x03030083#32] }

theorem switching_inv : switching.InitInv := by
  refine ⟨rfl, by decide, rfl, ?_, ?_, fun _ => ⟨?_, fun _ => ⟨.rccCfgr, 3#32, 2#32, by decide, by decide⟩⟩⟩
  · unfold State.ClockInv State.pllConfigured slowBus1; decide
  · unfold State.LockInv; decide
  · unfold State.StepInv State.pllConfigured slowBus1; decide

theorem witness_BringUpInvKept :
    switching.InitInv ∧ ∃ t, step switching = .next t ∧ (t.regs.rccCfgr == 0x0000FC02#32) = true :=
  ⟨switching_inv, next_of _ _ (by decide)⟩
theorem witness_BringUpIsSafe : switching.InitInv ∧ switching.seq.phase = .write := ⟨switching_inv, by decide⟩

/-- Waiting for three ticks, the third just seen. -/
def waited : State := { polling 3#32 3#32 with
  events := [.tick 3#32, .rd .timCnt 2#32, .tick 2#32, .tick 1#32, .wr .timEgr 1#32] }

theorem waited_inv : waited.CounterInv := by
  intro k hk
  have h : ticksSinceRearm waited.cfg.bind waited.events = some 3 := by decide
  rw [h] at hk
  obtain rfl : 3 = k := by simpa using hk
  decide

theorem witness_CounterNeverAheadOfTicks :
    waited.CounterInv ∧ ∃ t, step waited = .next t ∧ (t.seq.upc == 26#5) = true :=
  ⟨waited_inv, next_of _ _ (by decide)⟩
theorem witness_DelayNeverShort :
    waited.CounterInv ∧ (∃ t, exec (.pollGe .timCnt) waited = .next t ∧ (t.seq.upc != waited.seq.upc) = true) ∧
    ticksSinceRearm waited.cfg.bind waited.events = some 3 := ⟨waited_inv, next_of _ _ (by decide), by decide⟩
/-- After bring-up; before it; and while a program runs. -/
theorem witness_ForeignTriggerRearms :
    let s : State := { State.reset with seq := { Seq.reset with initDone := true } }
    (s.seq.mode = .idle ∧ s.seq.initDone = true) ∧
    ¬ (State.reset.seq.mode = .idle ∧ State.reset.seq.initDone = true) ∧
    ¬ ((polling 0#32 0#32).seq.mode = .idle ∧ (polling 0#32 0#32).seq.initDone = true) := by decide
/-- A counter that runs, read one below `x[0]`, then one tick, then the satisfying read. -/
def oneShort : State :=
  { polling 3#32 2#32 with regs := { (polling 3#32 2#32).regs with timCr1 := 1#32 } }

theorem witness_DelayLongByAtMostOnePoll :
    let t := oneShort.readReg .timCnt
    let u := t.tickStep
    exec (.pollGe .timCnt) oneShort = .next t ∧ t.seq.upc = oneShort.seq.upc ∧ turns .tick 1 t = .next u ∧
    ∃ w, exec (.pollGe .timCnt) u = .next w ∧
      (w.seq.upc != u.seq.upc && ticksPerPollOk oneShort.cfg.ticksPerPollMax none w.events) = true :=
  ⟨rfl, by decide, rfl, next_of _ _ (by decide)⟩

end Sys2Proof.Tests
end

section

namespace Sys2Proof

/-- The spec's own configuration meets every part of rule R8 as the model reads it (logs 27 and 37): its parts are
closed facts about numbers and masks. -/
theorem Config.default_wf : Config.default.wf = true := by decide

end Sys2Proof

namespace Sys2Proof.Machine

/-- The configuration is judged before the safety predicates and before any agent moves, so nothing else of the state
matters (rule R8). -/
theorem step_of_not_wf {s : State} (h : s.cfg.wf = false) : step s = .refused .configNotWellFormed :=
  if_neg (ne_true_of_eq_false h)

/-- Settles O23: the default configuration is well formed, and a configuration that is not fails the first question of
`step`. -/
theorem badConfigurationRefused : Obligations.BadConfigurationRefused :=
  ⟨Config.default_wf, fun _ => step_of_not_wf⟩

end Sys2Proof.Machine
end

section

namespace Sys2Proof.Machine

/-! ## What one step does to the sequencer -/

/-- The state an agent's move starts from: the pulse of the step before has ended and the move is used up. -/
def State.begun (s : State) : State := s.endPulse.setSched s.sched.tail

section

variable (s : State)

@[simp] theorem State.begun_cfg : s.begun.cfg = s.cfg := by simp [State.begun, s.endPulse_frame]
@[simp] theorem State.begun_rom : s.begun.rom = s.rom := by simp [State.begun, s.endPulse_frame]
@[simp] theorem State.begun_seq : s.begun.seq = s.seq := by simp [State.begun, s.endPulse_frame]
@[simp] theorem State.begun_regs : s.begun.regs = s.regs := by simp [State.begun, s.endPulse_frame]
@[simp] theorem State.begun_hidden : s.begun.hidden = s.hidden := by simp [State.begun, s.endPulse_frame]
@[simp] theorem State.begun_rstN : s.begun.port.rstN = s.port.rstN := by simp [State.begun, s.endPulse_frame]
@[simp] theorem State.begun_cmdIn : s.begun.port.cmdIn = s.port.cmdIn := by
  simp [State.begun, s.endPulse_frame]
@[simp] theorem State.begun_done : s.begun.port.done = false := by simp [State.begun, s.endPulse_frame]
@[simp] theorem State.begun_seqReady : s.begun.seqReady = s.seqReady := (s.ready_endPulse _).1
@[simp] theorem State.begun_cmdReady : s.begun.cmdReady = s.cmdReady := (s.ready_endPulse _).2.1
@[simp] theorem State.begun_fetch : s.begun.fetch = s.fetch := (s.ready_endPulse _).2.2

end

/-- A step is one agent's move from the begun state: `nextTurn`'s, but that another divider may move than the one
`nextTurn` names. -/
theorem step_move {s t : State} (h : step s = .next t) :
    s.cfg.wf = true ∧ ∃ m, runTurn m s.begun = .next t ∧ (s.nextTurn = m ∨ ∃ b, m = .div b) := by
  obtain ⟨hwf, -, m, hm, hrun⟩ := step_cases s t h
  refine ⟨hwf, m, hrun, ?_⟩
  obtain rfl | ⟨-, c, -, rfl⟩ := hm
  · exact .inl rfl
  · exact .inr ⟨c, rfl⟩

/-- What a micro-op does to the sequencer's state `q`, giving `q'`, under the configuration `c` (rules R131 to R136). -/
inductive MicroOpSeq (c : Config) (q q' : Seq) (i : Instr) : Prop where
  /-- The read phase of an RMW. -/
  | readPhase (v : Word) (hi : ∃ r a b, i = .rmw r a b) (hp : q.phase = .read)
      (hq : q' = { q with rd := v, phase := .write })
  /-- The write phase of an RMW. -/
  | writePhase (hi : ∃ r a b, i = .rmw r a b) (hp : q.phase = .write) (hu : q.upc ≠ 31#5)
      (hq : q' = { q with phase := .read, upc := q.upc + 1#5 })
  /-- A WR, or a poll that is satisfied. -/
  | advance (v : Word) (n : Nat) (hi : ∀ r a b, i ≠ .rmw r a b) (hu : q.upc ≠ 31#5)
      (hq : q' = { q with rd := v, pollcnt := n, upc := q.upc + 1#5 })
  /-- A poll that is not satisfied. -/
  | stay (v : Word) (n : Nat) (hi : ∀ r a b, i ≠ .rmw r a b) (hq : q' = { q with rd := v, pollcnt := n })
  /-- A poll that is not satisfied and reaches the limit. -/
  | limit (v : Word) (n : Nat) (hi : ∀ r a b, i ≠ .rmw r a b) (hl : c.pollLimit ≠ none)
      (hq : q' = { q with rd := v, pollcnt := n, mode := .fault })
  /-- The END of a program. -/
  | finish (hi : i = .endProg)
      (hq : q' = { q with mode := .idle, initDone := q.initDone || decide (q.cmd = opInit) })

/-- The registers and the hidden state stand, or are those of one register write, which is never one of the counter
(rule R107). -/
def StoreEffect (s t : State) : Prop :=
  (t.regs = s.regs ∧ t.hidden = s.hidden) ∨
  ∃ r v, r ≠ .timCnt ∧ t.regs = (s.regWrite r v).regs ∧ t.hidden = (s.regWrite r v).hidden

/-- What neither SEQ nor the taking of a command changes: the configuration, the ROM and the reset input. -/
def BlockFrame (s t : State) : Prop := t.cfg = s.cfg ∧ t.rom = s.rom ∧ t.port.rstN = s.port.rstN

/-- What a micro-op does to the state. -/
structure MicroOpEffect (s t : State) (i : Instr) : Prop where
  seq : MicroOpSeq s.cfg s.seq t.seq i
  store : StoreEffect s t
  frame : BlockFrame s t

theorem execRmw_effect {s t : State} {r : RegId} {a b : Word} (h : execRmw r a b s = .next t) :
    MicroOpEffect s t (.rmw r a b) := by
  obtain ⟨hwf, ⟨hp, rfl⟩ | ⟨hp, hu, rfl⟩⟩ := execRmw_next r a b s t h
  · exact ⟨.readPhase (s.regRead r) ⟨r, a, b, rfl⟩ hp (by simp), .inl (by simp), by simp [BlockFrame]⟩
  · have hr : r ≠ .timCnt := by
      simp only [Instr.wf, Bool.and_eq_true, decide_eq_true_eq] at hwf
      exact hwf.1
    exact ⟨.writePhase ⟨r, a, b, rfl⟩ hp hu (by simp),
      .inr ⟨r, s.seq.rd &&& ~~~a ||| b, hr, by simp [State.writeReg], by simp [State.writeReg]⟩,
      by simp [BlockFrame, State.writeReg]⟩

theorem execWr_effect {s t : State} {r : RegId} {b : Word} (h : execWr r b s = .next t) :
    MicroOpEffect s t (.wr r b) := by
  obtain ⟨hwf, hu, rfl⟩ := execWr_next r b s t h
  have hr : r ≠ .timCnt := by simpa [Instr.wf] using hwf
  exact ⟨.advance s.seq.rd s.seq.pollcnt (by simp) hu (by simp),
    .inr ⟨r, b, hr, by simp [State.writeReg], by simp [State.writeReg]⟩, by simp [BlockFrame, State.writeReg]⟩

/-- An unsatisfied poll is counted, and enters FAULT mode only where there is a limit (rules R243, R244). -/
theorem State.pollAgain_seq_cases (s : State) :
    s.pollAgain.seq = { s.seq with pollcnt := s.seq.pollcnt + 1 } ∨
    (s.cfg.pollLimit ≠ none ∧
      s.pollAgain.seq = { s.seq with pollcnt := s.seq.pollcnt + 1, mode := .fault }) := by
  unfold State.pollAgain
  split
  · rename_i hl
    refine .inr ⟨fun hn => ?_, by simp⟩
    simp [hn, limitReached] at hl
  · exact .inl (by simp)

theorem execPollEq_effect {s t : State} {r : RegId} {a b : Word} (h : execPollEq r a b s = .next t) :
    MicroOpEffect s t (.pollEq r a b) := by
  obtain ⟨-, ⟨-, hu, rfl⟩ | ⟨-, rfl⟩⟩ := execPollEq_next r a b s t h
  · exact ⟨.advance (s.regRead r) 0 (by simp) hu (by simp), .inl (by simp), by simp [BlockFrame]⟩
  · have hf := (s.readReg r).pollAgain_frame
    refine ⟨?_, .inl (by simp [hf]), by simp [BlockFrame, hf]⟩
    obtain hq | ⟨hl, hq⟩ := (s.readReg r).pollAgain_seq_cases
    · exact .stay (s.regRead r) (s.seq.pollcnt + 1) (by simp) (by simp [hq])
    · exact .limit (s.regRead r) (s.seq.pollcnt + 1) (by simp) hl (by simp [hq])

theorem execPollGe_effect {s t : State} {r : RegId} (h : execPollGe r s = .next t) :
    MicroOpEffect s t (.pollGe r) := by
  obtain ⟨-, ⟨-, hu, rfl⟩ | ⟨-, rfl⟩⟩ := execPollGe_next r s t h
  · exact ⟨.advance (s.regRead r) s.seq.pollcnt (by simp) hu (by simp), .inl (by simp), by simp [BlockFrame]⟩
  · exact ⟨.stay (s.regRead r) s.seq.pollcnt (by simp) (by simp), .inl (by simp), by simp [BlockFrame]⟩

theorem execEndProg_effect {s t : State} (h : execEndProg s = .next t) : MicroOpEffect s t .endProg := by
  simp only [execEndProg, Host.Outcome.next.injEq] at h
  subst h
  exact ⟨.finish rfl (by simp), .inl (by simp), by simp [BlockFrame]⟩

/-- SEQ's move changes nothing, or is a decoded micro-op's effect. -/
theorem seqTurn_effect {s t : State} (h : s.seqTurn = .next t) :
    t = s ∨ (s.seqReady = true ∧ ∃ i, decodeMicroOp s.fetch = .ok i ∧ MicroOpEffect s t i) := by
  obtain ⟨-, ht⟩ | ⟨hr, hx⟩ := seqTurn_next s t h
  · exact .inl ht
  refine .inr ⟨hr, ?_⟩
  obtain ⟨r, a, b, hd, he⟩ | ⟨r, b, hd, he⟩ | ⟨r, a, b, hd, he⟩ | ⟨r, hd, he⟩ | ⟨hd, he⟩ := hx
  · exact ⟨_, hd, execRmw_effect he⟩
  · exact ⟨_, hd, execWr_effect he⟩
  · exact ⟨_, hd, execPollEq_effect he⟩
  · exact ⟨_, hd, execPollGe_effect he⟩
  · exact ⟨_, hd, execEndProg_effect he⟩

/-- The sequencer's state after INIT is taken (rule R221). -/
def State.initStart (s : State) : Seq :=
  { s.seq with cmd := opInit, upc := s.cfg.initEntry, phase := .read, pollcnt := 0, mode := .run }

/-- The sequencer's state after `DELAY n` is taken (rule R222). -/
def State.delayStart (s : State) (n : Word) : Seq :=
  { s.seq with us := n, cmd := opDelay, upc := s.cfg.delayEntry, phase := .read, mode := .run }

/-- What the taking of a command does: it launches the INIT or the DELAY program, or leaves the sequencer; it makes no
access (rules R221 to R226). -/
structure TakeEffect (s t : State) : Prop where
  seq : t.seq = s.seq ∨
    (s.cmdReady = true ∧ ∃ w, s.port.cmdIn = some w ∧
      ((cmdOp w = opInit ∧ s.seq.initDone = false ∧ t.seq = s.initStart) ∨
       (cmdOp w = opDelay ∧ s.seq.initDone = true ∧ t.seq = s.delayStart (cmdArg w))))
  store : t.regs = s.regs ∧ t.hidden = s.hidden
  frame : BlockFrame s t

theorem takeTurn_effect {s t : State} (h : s.takeTurn = .next t) : TakeEffect s t := by
  obtain rfl | ⟨hr, w, hw, hx⟩ := takeTurn_next s t h
  · exact ⟨.inl rfl, ⟨rfl, rfl⟩, rfl, rfl, rfl⟩
  obtain ⟨ho, he⟩ | ⟨ho, he⟩ | ⟨-, he⟩ | rfl := hx
  · obtain ⟨-, rfl⟩ | ⟨hi, -, rfl⟩ := execInit_next _ s t he
    · exact ⟨.inl (by simp), by simp, by simp [BlockFrame]⟩
    · exact ⟨.inr ⟨hr, w, hw, .inl ⟨ho, hi, rfl⟩⟩, by simp, by simp [BlockFrame]⟩
  · obtain ⟨-, rfl⟩ | ⟨hi, -, rfl⟩ := execDelay_next _ s t he
    · exact ⟨.inl (by simp), by simp, by simp [BlockFrame]⟩
    · exact ⟨.inr ⟨hr, w, hw, .inr ⟨ho, hi, rfl⟩⟩, by simp, by simp [BlockFrame]⟩
  · simp only [execCpuf, Host.Outcome.next.injEq] at he
    subst he
    exact ⟨.inl (by simp), by simp, by simp [BlockFrame]⟩
  · exact ⟨.inl (by simp [State.rejectReserved]), by simp [State.rejectReserved],
      by simp [BlockFrame, State.rejectReserved]⟩

/-- What a move can be, by what it leaves: SEQ's, the taking, HOST's presenting, the reset input's, or one that leaves
the sequencer and the ports (the environment's, another user's trigger, none). -/
theorem runTurn_cases {m : Turn} {s t : State} (h : runTurn m s = .next t) :
    (m = .seq ∧ s.seqTurn = .next t) ∨ (m = .take ∧ s.takeTurn = .next t) ∨ (∃ w, t = s.presentTurn w) ∨
    (∃ k, m = .resetLow k ∧ t = s.assertReset k) ∨ t = s.releaseReset ∨ EnvFrame s t := by
  cases m <;> simp only [runTurn, Host.Outcome.next.injEq] at h
  case seq => exact .inl ⟨rfl, h⟩
  case take => exact .inr (.inl ⟨rfl, h⟩)
  case present w => exact .inr (.inr (.inl ⟨w, h.symm⟩))
  case resetLow k => exact .inr (.inr (.inr (.inl ⟨k, rfl, h.symm⟩)))
  case resetHigh => exact .inr (.inr (.inr (.inr (.inl h.symm))))
  all_goals refine .inr (.inr (.inr (.inr (.inr ?_))))
  case hse => exact h ▸ hseStep_frame s
  case pll => exact h ▸ pllStep_frame s
  case sw => exact h ▸ swStep_frame s
  case hsi => exact h ▸ hsiStep_frame s
  case div b => exact h ▸ divStep_frame s b
  case tick => exact h ▸ tickStep_frame s
  case halt b => exact h ▸ haltStep_frame s b
  case idle => exact h ▸ ⟨rfl, rfl, rfl, rfl, rfl, rfl, rfl⟩
  case foreignUg =>
    unfold State.foreignUgTurn at h
    split at h
    · cases h
      simp [EnvFrame]
    · cases h

/-- HOST's presenting changes only the port's command word, and nothing during reset (rule R220). -/
theorem State.presentTurn_frame (s : State) (w : CmdWord) :
    BlockFrame s (s.presentTurn w) ∧ (s.presentTurn w).seq = s.seq ∧ (s.presentTurn w).regs = s.regs ∧
    (s.presentTurn w).hidden = s.hidden ∧ (s.port.rstN = false → s.presentTurn w = s) := by
  unfold State.presentTurn BlockFrame
  split
  · rename_i hr
    simp [hr.1]
  · simp

/-- What a move `m` from `s` to `t` does to the sequencer, the guards of each case included. -/
inductive SeqMove (m : Turn) (s t : State) : Prop where
  | same (hq : t.seq = s.seq)
  | reset (k : ResetKind) (hm : m = .resetLow k) (hq : t.seq = Seq.reset)
  | microOp (i : Instr) (hm : m = .seq) (hr : s.seqReady = true) (hd : decodeMicroOp s.fetch = .ok i)
      (hi : MicroOpSeq s.cfg s.seq t.seq i)
  | init (w : CmdWord) (hm : m = .take) (hr : s.cmdReady = true) (hw : s.port.cmdIn = some w)
      (ho : cmdOp w = opInit) (hd : s.seq.initDone = false) (hq : t.seq = s.initStart)
  | delay (w : CmdWord) (hm : m = .take) (hr : s.cmdReady = true) (hw : s.port.cmdIn = some w)
      (ho : cmdOp w = opDelay) (hd : s.seq.initDone = true) (hq : t.seq = s.delayStart (cmdArg w))

theorem runTurn_seqMove {m : Turn} {s t : State} (h : runTurn m s = .next t) : SeqMove m s t := by
  obtain ⟨hm, h⟩ | ⟨hm, h⟩ | ⟨w, rfl⟩ | ⟨k, hm, rfl⟩ | rfl | ⟨-, -, hq, -⟩ := runTurn_cases h
  · obtain rfl | ⟨hr, i, hd, he⟩ := seqTurn_effect h
    · exact .same rfl
    · exact .microOp i hm hr hd he.seq
  · obtain hq | ⟨hr, w, hw, ⟨ho, hd, hq⟩ | ⟨ho, hd, hq⟩⟩ := (takeTurn_effect h).seq
    · exact .same hq
    · exact .init w hm hr hw ho hd hq
    · exact .delay w hm hr hw ho hd hq
  · exact .same (s.presentTurn_frame w).2.1
  · exact .reset k hm rfl
  · exact .same rfl
  · exact .same hq

/-- What a step does to the sequencer: `nextTurn`'s move does it. -/
theorem step_seqMove {s t : State} (h : step s = .next t) : SeqMove s.nextTurn s t := by
  obtain ⟨-, m, hrun, hm⟩ := step_move h
  obtain hq | ⟨k, rfl, hq⟩ | ⟨i, rfl, hr, hd, hi⟩ | ⟨w, rfl, hr, hw, ho, hd, hq⟩ |
      ⟨w, rfl, hr, hw, ho, hd, hq⟩ := runTurn_seqMove hrun
  · exact .same (by simpa using hq)
  · exact .reset k (by simpa using hm) hq
  · exact .microOp i (by simpa using hm) (by simpa using hr) (by simpa using hd) (by simpa using hi)
  · exact .init w (by simpa using hm) (by simpa using hr) (by simpa using hw) ho (by simpa using hd)
      (by simpa [State.initStart] using hq)
  · exact .delay w (by simpa using hm) (by simpa using hr) (by simpa using hw) ho (by simpa using hd)
      (by simpa [State.delayStart] using hq)

/-- SEQ has a step only while a program runs (rule R130). -/
theorem State.busy_of_seqReady {s : State} (h : s.seqReady = true) : s.busy = true := by
  simp only [State.seqReady, Bool.and_eq_true] at h
  exact h.1.1.1

/-- No command is taken while a program runs (rule R220). -/
theorem State.not_busy_of_cmdReady {s : State} (h : s.cmdReady = true) : s.busy = false := by
  simp only [State.cmdReady, Bool.and_eq_true, decide_eq_true_eq] at h
  simp [State.busy, h.1]

/-- Settles O27: only micro-ops move `upc` while a program runs, and each leaves it or adds one. -/
theorem upcMovesForward : Obligations.UpcMovesForward := by
  intro s t h hs ht
  cases step_seqMove h with
  | same hq => simp [hq]
  | reset k _ hq => simp [State.busy, hq, Seq.reset] at ht
  | init w _ hr => simp [State.not_busy_of_cmdReady hr] at hs
  | delay w _ hr => simp [State.not_busy_of_cmdReady hr] at hs
  | microOp i _ _ _ hi =>
    cases hi with
    | readPhase v _ _ hq => simp [hq]
    | writePhase _ _ hu hq => exact .inr ⟨hu, by simp [hq]⟩
    | advance v n _ hu hq => exact .inr ⟨hu, by simp [hq]⟩
    | stay v n _ hq => simp [hq]
    | limit v n _ _ hq => simp [hq]
    | finish _ hq => simp [hq]

/-- A micro-op does not write `x[0]` (rule R24). -/
theorem MicroOpSeq.us_eq {c : Config} {q q' : Seq} {i : Instr} (h : MicroOpSeq c q q' i) : q'.us = q.us := by
  cases h <;> (rename_i hq; rw [hq])

/-- Settles O28: of the moves that change the sequencer only a reset and the start of DELAY write `x[0]`. -/
theorem delayArgumentLatched : Obligations.DelayArgumentLatched := by
  intro s t h hne
  cases step_seqMove h with
  | same hq => exact absurd (by rw [hq]) hne
  | reset k hm _ => exact .inl ⟨k, hm⟩
  | microOp i _ _ _ hi => exact absurd hi.us_eq hne
  | init w _ _ _ _ _ hq => exact absurd (by rw [hq]; rfl) hne
  | delay w hm hr hw ho hd hq => exact .inr ⟨hm, hr, w, hw, ho, by rw [hq]; rfl, hd⟩

/-- A micro-op leaves `init_done`, or is the END of INIT and sets it (rules R26, R135). -/
theorem MicroOpSeq.initDone_cases {c : Config} {q q' : Seq} {i : Instr} (h : MicroOpSeq c q q' i) :
    q'.initDone = q.initDone ∨ (i = .endProg ∧ q.cmd = opInit ∧ q'.initDone = true) := by
  cases h with
  | finish hi hq =>
    by_cases hc : q.cmd = opInit
    · exact .inr ⟨hi, hc, by simp [hq, hc]⟩
    · exact .inl (by simp [hq, hc])
  | _ => simp [*]

/-- Across a step `init_done` stands, or the move is a reset, or it is the END of the running INIT and `init_done` is
set. -/
theorem step_initDone {s t : State} (h : step s = .next t) :
    t.seq.initDone = s.seq.initDone ∨ ((∃ k, s.nextTurn = .resetLow k) ∧ t.seq.initDone = false) ∨
    (decodeMicroOp s.fetch = .ok .endProg ∧ s.seq.cmd = opInit ∧ s.busy = true ∧ t.seq.initDone = true) := by
  cases step_seqMove h with
  | same hq => exact .inl (by rw [hq])
  | reset k hm hq => exact .inr (.inl ⟨⟨k, hm⟩, by rw [hq]; rfl⟩)
  | init w _ _ _ _ _ hq => exact .inl (by rw [hq]; rfl)
  | delay w _ _ _ _ _ hq => exact .inl (by rw [hq]; rfl)
  | microOp i _ hr hd hi =>
    obtain hq | ⟨rfl, hc, ht⟩ := hi.initDone_cases
    · exact .inl hq
    · exact .inr (.inr ⟨hd, hc, State.busy_of_seqReady hr, ht⟩)

/-- Settles O29: a reset clears `init_done` and the END of INIT sets it; every other step keeps it. -/
theorem initDoneSticky : Obligations.InitDoneSticky := by
  intro s t h
  obtain hq | ⟨hk, ht⟩ | ⟨hd, hc, hb, ht⟩ := step_initDone h
  · exact ⟨fun hs => .inl (hq.trans hs), fun hs ht => by simp [hq, hs] at ht⟩
  · exact ⟨fun _ => .inr hk, fun _ hx => by simp [ht] at hx⟩
  · exact ⟨fun _ => .inl ht, fun _ _ => ⟨hd, hc, hb⟩⟩

end Sys2Proof.Machine
end

section

namespace Sys2Proof.Machine

/-! ## What one move does to the configuration, the ROM and the ports -/

theorem seqTurn_frame {s t : State} (h : s.seqTurn = .next t) : BlockFrame s t := by
  obtain rfl | ⟨-, i, -, he⟩ := seqTurn_effect h
  · exact ⟨rfl, rfl, rfl⟩
  · exact he.frame

/-- A move changes neither the configuration nor the ROM (rules R21, R61). -/
theorem runTurn_fixed {m : Turn} {s t : State} (h : runTurn m s = .next t) : t.cfg = s.cfg ∧ t.rom = s.rom := by
  obtain ⟨-, h⟩ | ⟨-, h⟩ | ⟨w, rfl⟩ | ⟨k, -, rfl⟩ | rfl | ⟨hc, hr, -⟩ := runTurn_cases h
  · obtain ⟨hc, hr, -⟩ := seqTurn_frame h
    exact ⟨hc, hr⟩
  · obtain ⟨hc, hr, -⟩ := (takeTurn_effect h).frame
    exact ⟨hc, hr⟩
  · obtain ⟨⟨hc, hr, -⟩, -⟩ := s.presentTurn_frame w
    exact ⟨hc, hr⟩
  · exact ⟨rfl, rfl⟩
  · exact ⟨rfl, rfl⟩
  · exact ⟨hc, hr⟩

/-- A step changes neither the configuration nor the ROM (rules R21, R61). -/
theorem step_fixed {s t : State} (h : step s = .next t) : t.cfg = s.cfg ∧ t.rom = s.rom := by
  obtain ⟨-, m, hrun, -⟩ := step_move h
  simpa using runTurn_fixed hrun

/-- While `rst_n = 0` SEQ has no step and no command is taken (rule R270). -/
theorem State.held_in_reset {s : State} (h : s.port.rstN = false) :
    s.seqTurn = .next s ∧ s.takeTurn = .next s := by
  simp [State.seqTurn, State.takeTurn, State.seqReady, State.cmdReady, h]

/-! ## The structural invariant, part by part -/

/-- The timer's part: the counter and the prescaler hold only bits they have, `arr` holds `ARR_RESET`, and the counter
is not above it (rules R39, R40, R43, R78). -/
def TimerInv (c : Config) (r : Regs) (h : Hidden) : Prop :=
  r.timCnt &&& ~~~c.cntMask = 0 ∧ r.timPsc &&& ~~~c.bind.psc.mask = 0 ∧ h.arr = c.arrReset ∧
    r.timCnt.toNat ≤ h.arr.toNat

/-- The sequencer's part: FAULT mode only with a poll limit, the write phase only inside a running RMW (rules R22,
R25). -/
def State.SeqInv (s : State) : Prop :=
  (s.seq.mode = .fault → s.cfg.pollLimit ≠ none) ∧
  (s.seq.phase = .write → s.seq.mode = .run ∧ ∃ r a b, decodeMicroOp s.fetch = .ok (.rmw r a b))

/-- The reset input's part: reset values while `rst_n = 0` (rule R270). -/
def State.ResetInv (s : State) : Prop :=
  s.port.rstN = false → s.seq = Seq.reset ∧ s.port.cmdIn = none ∧ s.port.done = false

theorem State.inv_iff (s : State) :
    s.Inv ↔ Rom.wf s.rom = true ∧ TimerInv s.cfg s.regs s.hidden ∧ s.SeqInv ∧ s.ResetInv := by
  simp only [State.Inv, TimerInv, State.SeqInv, State.ResetInv, and_assoc]

/-! ### The timer's part -/

/-- A masked word has no bit outside the mask. -/
theorem masked_outside_mask (x m : Word) : x &&& m &&& ~~~m = 0 := by
  rw [BitVec.and_assoc, BitVec.and_not_self]
  exact BitVec.and_zero

/-- The reset values of a well-formed configuration meet the timer's part (rules R43, R272). -/
theorem TimerInv.reset {c : Config} (h : c.wf = true) (hsical : BitVec 8) :
    TimerInv c (Regs.reset c hsical) (Hidden.reset c) := by
  obtain ⟨ht, -⟩ := c.wf_parts h
  simp only [Config.timerWf, Bool.and_eq_true, decide_eq_true_eq] at ht
  exact ⟨masked_outside_mask _ _, masked_outside_mask _ _, rfl, ht.2⟩

theorem resetLow_timerInv {s : State} (hwf : s.cfg.wf = true) (k : ResetKind)
    (h : TimerInv s.cfg s.regs s.hidden) : TimerInv s.cfg (s.resetRegs k) (s.resetHidden k) := by
  cases k with
  | blockOnly => exact h
  | system => exact TimerInv.reset hwf (s.cfg.bind.hsical.get s.regs.rccCr)
  | powerOn => exact TimerInv.reset hwf _

/-- A re-armed counter holds 0 (rule R79). -/
theorem rearm_timerInv {s : State} (h : TimerInv s.cfg s.regs s.hidden) :
    TimerInv s.cfg s.rearm.regs s.rearm.hidden := by
  obtain ⟨-, hp, ha, -⟩ := h
  exact ⟨by simp, hp, ha, by simp⟩

/-- The counter's next value has only bits the counter has, and is not above `arr` (rule R78). -/
theorem tickStep_timerInv {s : State} (h : TimerInv s.cfg s.regs s.hidden) :
    TimerInv s.cfg s.tickStep.regs s.tickStep.hidden := by
  obtain ⟨hc, hp, ha, hle⟩ := h
  have hbits : s.nextCnt &&& ~~~s.cfg.cntMask = 0 := by
    unfold State.nextCnt
    split
    · exact BitVec.zero_and
    · exact masked_outside_mask _ _
  have htop : s.nextCnt.toNat ≤ s.hidden.arr.toNat := by
    unfold State.nextCnt
    split
    · exact Nat.zero_le _
    · rename_i hne
      have hlt : s.regs.timCnt.toNat ≠ s.hidden.arr.toNat := fun e => hne (BitVec.eq_of_toNat_eq e)
      calc ((s.regs.timCnt + 1) &&& s.cfg.cntMask).toNat
          ≤ (s.regs.timCnt + 1).toNat := by rw [BitVec.toNat_and]; exact Nat.and_le_left
        _ ≤ s.regs.timCnt.toNat + 1 := by rw [BitVec.toNat_add]; exact Nat.mod_le _ _
        _ ≤ s.hidden.arr.toNat := by omega
  unfold State.tickStep
  split
  · exact ⟨hbits, hp, ha, htop⟩
  · exact ⟨hc, hp, ha, hle⟩

/-- A register write leaves the bits it does not reach in every register but the counter, which a re-arm clears (rules
R46, R67, R79). -/
theorem State.regWrite_keeps (s : State) (r r' : RegId) (v : Word) (h' : r' ≠ .timCnt) :
    (s.regWrite r v).regs.get r' &&& ~~~s.cfg.rwMask r' = s.regs.get r' &&& ~~~s.cfg.rwMask r' := by
  by_cases hr : r = .timEgr
  · subst hr
    cases hu : isSet s.cfg.bind.ug v
    · rw [s.regWrite_noUg v hu]
    · rw [s.regWrite_ug v hu]
      cases r' <;> first | rfl | exact absurd rfl h'
  · by_cases he : r = r'
    · subst he
      rw [s.regWrite_eq_store r v hr, State.store_regs, Regs.get_set_same _ _ _ hr]
      exact s.storedWord_keeps r v
    · rw [s.regWrite_get_ne r r' v hr he]

/-- A write of any register but the counter keeps the timer's part: `TIM_PSC` takes only bits it has, and a trigger
clears the counter. -/
theorem regWrite_timerInv {s : State} {r : RegId} (hr : r ≠ .timCnt) (v : Word)
    (h : TimerInv s.cfg s.regs s.hidden) : TimerInv s.cfg (s.regWrite r v).regs (s.regWrite r v).hidden := by
  by_cases he : r = .timEgr
  · subst he
    cases hu : isSet s.cfg.bind.ug v
    · rwa [s.regWrite_noUg v hu]
    · rw [s.regWrite_ug v hu]
      exact rearm_timerInv h
  · obtain ⟨hc, hp, ha, hle⟩ := h
    have hcnt : (s.regWrite r v).regs.timCnt = s.regs.timCnt := s.regWrite_get_ne r .timCnt v he hr
    have hpsc : (s.regWrite r v).regs.timPsc &&& ~~~s.cfg.bind.psc.mask = 0 :=
      (s.regWrite_keeps r .timPsc v (by decide)).trans hp
    unfold TimerInv
    rw [hcnt, s.regWrite_hidden r v he]
    exact ⟨hc, hpsc, ha, hle⟩

theorem StoreEffect.timerInv {s t : State} (he : StoreEffect s t) (h : TimerInv s.cfg s.regs s.hidden) :
    TimerInv s.cfg t.regs t.hidden := by
  obtain ⟨hr, hh⟩ | ⟨r, v, hne, hr, hh⟩ := he
  · rwa [hr, hh]
  · rw [hr, hh]
    exact regWrite_timerInv hne v h

theorem seqTurn_store {s t : State} (h : s.seqTurn = .next t) : StoreEffect s t := by
  obtain rfl | ⟨-, i, -, he⟩ := seqTurn_effect h
  · exact .inl ⟨rfl, rfl⟩
  · exact he.store

/-- What an oscillator's or the PLL's report changes: the flag `f` of `RCC_CR` (rules R73, R74, R76). -/
def FlagStep (f : BitField 1) (s t : State) : Prop :=
  t.cfg = s.cfg ∧ t.hidden = s.hidden ∧
    (t.regs = s.regs ∨ ∃ v, t.regs = { s.regs with rccCr := f.put v s.regs.rccCr })

theorem hseStep_flag (s : State) : FlagStep s.cfg.bind.hserdy s s.hseStep := by
  unfold State.hseStep
  split
  · exact ⟨rfl, rfl, .inr ⟨_, rfl⟩⟩
  split
  · exact ⟨rfl, rfl, .inr ⟨_, rfl⟩⟩
  · exact ⟨rfl, rfl, .inl rfl⟩

theorem pllStep_flag (s : State) : FlagStep s.cfg.bind.pllrdy s s.pllStep := by
  unfold State.pllStep
  split
  · exact ⟨rfl, rfl, .inr ⟨_, rfl⟩⟩
  · exact ⟨rfl, rfl, .inl rfl⟩

theorem hsiStep_flag (s : State) : FlagStep s.cfg.bind.hsirdy s s.hsiStep := by
  unfold State.hsiStep
  split
  · exact ⟨rfl, rfl, .inr ⟨_, rfl⟩⟩
  · exact ⟨rfl, rfl, .inl rfl⟩

/-- ENV.SW's step changes `RCC_CFGR` only (rule R75). -/
theorem swStep_regs (s : State) :
    s.swStep.hidden = s.hidden ∧ ∃ w, s.swStep.regs = { s.regs with rccCfgr := w } := by
  unfold State.swStep
  split
  · exact ⟨rfl, _, rfl⟩
  · exact ⟨rfl, s.regs.rccCfgr, rfl⟩

/-- ENV.DIV's step leaves the registers and `arr` (rule R77). -/
theorem divStep_regs (s : State) (b : Bus) :
    (s.divStep b).regs = s.regs ∧ (s.divStep b).hidden.arr = s.hidden.arr := by
  unfold State.divStep
  split
  · cases b <;> exact ⟨rfl, rfl⟩
  · exact ⟨rfl, rfl⟩

theorem FlagStep.timerInv {f : BitField 1} {s t : State} (he : FlagStep f s t)
    (h : TimerInv s.cfg s.regs s.hidden) : TimerInv s.cfg t.regs t.hidden := by
  obtain ⟨-, hh, hr | ⟨v, hr⟩⟩ := he <;> (rw [hh, hr]; exact h)

theorem foreignUgTurn_next {s t : State} (h : s.foreignUgTurn = .next t) : t = s.rearm := by
  unfold State.foreignUgTurn at h
  split at h <;> cases h
  rfl

/-- Every move keeps the timer's part. -/
theorem runTurn_timerInv {m : Turn} {s t : State} (hwf : s.cfg.wf = true) (h : runTurn m s = .next t)
    (hi : TimerInv s.cfg s.regs s.hidden) : TimerInv s.cfg t.regs t.hidden := by
  cases m <;> simp only [runTurn, Host.Outcome.next.injEq] at h
  case seq => exact (seqTurn_store h).timerInv hi
  case take =>
    obtain ⟨hr, hh⟩ := (takeTurn_effect h).store
    rwa [hr, hh]
  case present w =>
    obtain ⟨-, -, hr, hh, -⟩ := s.presentTurn_frame w
    rwa [← h, hr, hh]
  case hse => exact h ▸ (hseStep_flag s).timerInv hi
  case pll => exact h ▸ (pllStep_flag s).timerInv hi
  case hsi => exact h ▸ (hsiStep_flag s).timerInv hi
  case sw =>
    obtain ⟨hh, w, hr⟩ := swStep_regs s
    rw [← h, hh, hr]
    exact hi
  case div b =>
    obtain ⟨hr, ha⟩ := divStep_regs s b
    rw [← h]
    unfold TimerInv
    rwa [hr, ha]
  case tick => exact h ▸ tickStep_timerInv hi
  case halt b => exact h ▸ hi
  case resetLow k => exact h ▸ resetLow_timerInv hwf k hi
  case resetHigh => exact h ▸ hi
  case foreignUg => exact foreignUgTurn_next h ▸ rearm_timerInv hi
  case idle => exact h ▸ hi

theorem step_timerInv {s t : State} (h : step s = .next t) (hi : TimerInv s.cfg s.regs s.hidden) :
    TimerInv t.cfg t.regs t.hidden := by
  obtain ⟨hwf, m, hrun, -⟩ := step_move h
  rw [(step_fixed h).1]
  simpa using runTurn_timerInv (by simpa using hwf) hrun (by simpa using hi)

/-! ### The sequencer's part -/

/-- In the read phase only FAULT mode asks for anything. -/
theorem State.SeqInv.of_read {s : State} (hp : s.seq.phase = .read)
    (hm : s.seq.mode = .fault → s.cfg.pollLimit ≠ none) : s.SeqInv :=
  ⟨hm, fun hw => by simp [hp] at hw⟩

/-- The sequencer's part speaks of the sequencer, the configuration and the ROM only. -/
theorem State.SeqInv.of_eq {s t : State} (h : s.SeqInv) (hq : t.seq = s.seq) (hc : t.cfg = s.cfg)
    (hr : t.rom = s.rom) : t.SeqInv := by
  unfold State.SeqInv State.fetch
  rwa [hq, hc, hr]

/-- A micro-op other than RMW runs in the read phase (rule R25). -/
theorem State.SeqInv.phase_read {s : State} (h : s.SeqInv) {i : Instr} (hd : decodeMicroOp s.fetch = .ok i)
    (hi : ∀ r a b, i ≠ .rmw r a b) : s.seq.phase = .read := by
  cases hp : s.seq.phase with
  | read => rfl
  | write =>
    obtain ⟨-, r, a, b, hd'⟩ := h.2 hp
    rw [hd] at hd'
    exact absurd (Except.ok.inj hd') (hi r a b)

/-- A micro-op keeps the sequencer's part: only RMW enters the write phase, at an address it stays at, and only a poll
with a limit enters FAULT mode. -/
theorem MicroOpSeq.seqInv {s t : State} {i : Instr} (hm : MicroOpSeq s.cfg s.seq t.seq i) (hs : s.SeqInv)
    (hrun : s.seq.mode = .run) (hd : decodeMicroOp s.fetch = .ok i) (hc : t.cfg = s.cfg) (hr : t.rom = s.rom) :
    t.SeqInv := by
  cases hm with
  | readPhase v hi _ hq =>
    obtain ⟨r, a, b, rfl⟩ := hi
    have hf : t.fetch = s.fetch := by simp [State.fetch, hr, hq]
    exact ⟨by simp [hq, hrun], fun _ => ⟨by simp [hq, hrun], r, a, b, hf ▸ hd⟩⟩
  | writePhase _ _ _ hq => exact .of_read (by simp [hq]) (by simp [hq, hrun])
  | advance v n hi _ hq => exact .of_read (by simp [hq, hs.phase_read hd hi]) (by simp [hq, hrun])
  | stay v n hi hq => exact .of_read (by simp [hq, hs.phase_read hd hi]) (by simp [hq, hrun])
  | limit v n hi hl hq => exact .of_read (by simp [hq, hs.phase_read hd hi]) (fun _ => hc ▸ hl)
  | finish hi hq => exact .of_read (by simp [hq, hs.phase_read hd (by simp [hi])]) (by simp [hq])

theorem step_seqInv {s t : State} (h : step s = .next t) (hs : s.SeqInv) : t.SeqInv := by
  obtain ⟨hc, hr⟩ := step_fixed h
  cases step_seqMove h with
  | same hq => exact hs.of_eq hq hc hr
  | reset k _ hq => exact .of_read (by rw [hq]; rfl) (by simp [hq, Seq.reset])
  | init w _ _ _ _ _ hq => exact .of_read (by rw [hq]; rfl) (by simp [hq, State.initStart])
  | delay w _ _ _ _ _ hq => exact .of_read (by rw [hq]; rfl) (by simp [hq, State.delayStart])
  | microOp i _ hready hd hi =>
    have hrun : s.seq.mode = .run := by simpa [State.busy] using State.busy_of_seqReady hready
    exact hi.seqInv hs hrun hd hc hr

/-! ### The reset input's part -/

/-- SEQ, the taking and HOST change nothing while `rst_n = 0`, and none of them makes `rst_n` go low. -/
theorem State.ResetInv.of_held {s t : State} (h : s.ResetInv) (hf : BlockFrame s t)
    (hheld : s.port.rstN = false → t = s) : t.ResetInv := by
  intro hn
  obtain ⟨-, -, hrst⟩ := hf
  have hs : s.port.rstN = false := hrst ▸ hn
  rw [hheld hs]
  exact h hs

theorem runTurn_resetInv {m : Turn} {s t : State} (h : runTurn m s = .next t) (hi : s.ResetInv) :
    t.ResetInv := by
  obtain ⟨-, h⟩ | ⟨-, h⟩ | ⟨w, rfl⟩ | ⟨k, -, rfl⟩ | rfl | ⟨-, -, hq, hp, -⟩ := runTurn_cases h
  · exact hi.of_held (seqTurn_frame h) fun hn => by simpa [(State.held_in_reset hn).1] using h.symm
  · exact hi.of_held (takeTurn_effect h).frame fun hn => by simpa [(State.held_in_reset hn).2] using h.symm
  · obtain ⟨hf, -, -, -, hheld⟩ := s.presentTurn_frame w
    exact hi.of_held hf hheld
  · exact fun _ => ⟨rfl, rfl, rfl⟩
  · exact fun hn => by simp at hn
  · unfold State.ResetInv
    rwa [hq, hp]

theorem step_resetInv {s t : State} (h : step s = .next t) (hi : s.ResetInv) : t.ResetInv := by
  obtain ⟨-, m, hrun, -⟩ := step_move h
  refine runTurn_resetInv hrun fun hn => ?_
  obtain ⟨hq, hcmd, -⟩ := hi (by simpa using hn)
  exact ⟨by simpa using hq, by simpa using hcmd, by simp⟩

/-- Settles O53: every part of the invariant is kept by every step. -/
theorem structuralInvKept : Obligations.StructuralInvKept := by
  intro s t hs h
  obtain ⟨hrom, htimer, hseq, hreset⟩ := s.inv_iff.mp hs
  exact t.inv_iff.mpr
    ⟨(step_fixed h).2 ▸ hrom, step_timerInv h htimer, step_seqInv h hseq, step_resetInv h hreset⟩

/-- The state after reset meets the structural invariant, for every well-formed configuration. -/
theorem State.resetWith_inv {c : Config} (h : c.wf = true) : (State.resetWith c).Inv := by
  obtain ⟨-, -, hl, -⟩ := c.wf_parts h
  exact (State.inv_iff _).mpr
    ⟨c.rom_wf hl, TimerInv.reset h 0#8, .of_read rfl (fun hm => by cases hm), fun hn => by cases hn⟩

/-- Settles O52: the default configuration is well formed. -/
theorem structuralInvAtReset : Obligations.StructuralInvAtReset := State.resetWith_inv Config.default_wf

end Sys2Proof.Machine
end

section

namespace Sys2Proof

/-- In a binding a model accepts, the readiness flags lie inside `RCC_CR` and apart from each other. -/
theorem Bind.flags_apart (b : Bind) (h : b.wf = true) :
    (b.hsirdy.fits = true ∧ b.hserdy.fits = true ∧ b.pllrdy.fits = true) ∧
    b.hsirdy.mask &&& b.hserdy.mask = 0 ∧ b.hsirdy.mask &&& b.pllrdy.mask = 0 ∧
    b.hserdy.mask &&& b.pllrdy.mask = 0 := by
  obtain ⟨hcr, -⟩ := b.wf_apart h
  simp only [Bind.wf, Bool.and_eq_true] at h
  simp only [disjointMasks, List.all_cons, List.all_nil, Bool.and_eq_true, decide_eq_true_eq] at hcr
  simp only [h, hcr, and_self]

/-- No write reaches a readiness flag or the switch status (rule R46). -/
theorem Config.flags_unreached (c : Config) (h : c.bind.wf = true) :
    c.rwMask .rccCr &&& c.bind.hserdy.mask = 0 ∧ c.rwMask .rccCr &&& c.bind.pllrdy.mask = 0 ∧
    c.rwMask .rccCr &&& c.bind.hsirdy.mask = 0 ∧ c.rwMask .rccCfgr &&& c.bind.sws.mask = 0 := by
  have hcr := c.rw_ro_apart h .rccCr
  have hsws : c.rwMask .rccCfgr &&& c.bind.sws.mask = 0 := c.rw_ro_apart h .rccCfgr
  rw [Config.roMask, BitVec.and_or_distrib_left, BitVec.and_or_distrib_left] at hcr
  obtain ⟨hcr, hpll⟩ := BitVec.or_eq_zero_iff.mp hcr
  obtain ⟨hhsi, hhse⟩ := BitVec.or_eq_zero_iff.mp hcr
  exact ⟨hhse, hpll, hhsi, hsws⟩

/-- A field out of a write's reach reads the same in two words that agree out of its reach. -/
theorem BitField.get_eq_of_unreached {k : Nat} (f : BitField k) {m x y : Word} (hm : m &&& f.mask = 0)
    (h : x &&& ~~~m = y &&& ~~~m) : f.get x = f.get y :=
  f.get_eq_of_agree (~~~m) x y (by rwa [BitVec.not_not, BitVec.and_comm]) h

end Sys2Proof

namespace Sys2Proof.Machine

/-! ## What one move does to the flags -/

/-- The readiness flags and the switch status read the same in both states. -/
def SameFlags (s t : State) : Prop :=
  t.hseReady = s.hseReady ∧ t.pllLocked = s.pllLocked ∧ t.sws = s.sws ∧ t.hsiReady = s.hsiReady

/-- The flags are fields of `RCC_CR` and `RCC_CFGR` (rules R31, R33). -/
theorem SameFlags.of_regs {s t : State} (hc : t.cfg = s.cfg) (hcr : t.regs.rccCr = s.regs.rccCr)
    (hcfgr : t.regs.rccCfgr = s.regs.rccCfgr) : SameFlags s t := by
  simp [SameFlags, State.hseReady, State.pllLocked, State.sws, State.hsiReady, hc, hcr, hcfgr]

/-- SEQ's accesses leave every flag: no micro-op writes one (rules R42, R46). -/
theorem StoreEffect.sameFlags {s t : State} (he : StoreEffect s t) (hc : t.cfg = s.cfg)
    (hb : s.cfg.bind.wf = true) : SameFlags s t := by
  obtain ⟨hr, -⟩ | ⟨r, v, -, hr, -⟩ := he
  · exact .of_regs hc (by rw [hr]) (by rw [hr])
  obtain ⟨hhse, hpll, hhsi, hsws⟩ := s.cfg.flags_unreached hb
  have hcr : ∀ f : BitField 1, s.cfg.rwMask .rccCr &&& f.mask = 0 →
      isSet f t.regs.rccCr = isSet f s.regs.rccCr := fun f hf => by
    have hget : f.get (s.regWrite r v).regs.rccCr = f.get s.regs.rccCr :=
      f.get_eq_of_unreached hf (s.regWrite_keeps r .rccCr v (by decide))
    rw [isSet, isSet, hr, hget]
  have hcfgr : s.cfg.bind.sws.get t.regs.rccCfgr = s.cfg.bind.sws.get s.regs.rccCfgr := by
    rw [hr]
    exact BitField.get_eq_of_unreached _ hsws (s.regWrite_keeps r .rccCfgr v (by decide))
  unfold SameFlags State.hseReady State.pllLocked State.sws State.hsiReady
  rw [hc]
  exact ⟨hcr _ hhse, hcr _ hpll, hcfgr, hcr _ hhsi⟩

/-- The report of the flag `f` leaves `SWS`, and every flag apart from `f`. -/
theorem FlagStep.others {f : BitField 1} {s t : State} (h : FlagStep f s t) :
    t.sws = s.sws ∧ ∀ g : BitField 1, g.fits = true → g.mask &&& f.mask = 0 →
      isSet g t.regs.rccCr = isSet g s.regs.rccCr := by
  obtain ⟨hc, -, hr | ⟨v, hr⟩⟩ := h
  · simp [State.sws, hc, hr]
  · refine ⟨by simp [State.sws, hc, hr], fun g hg hgf => ?_⟩
    rw [hr, isSet, isSet, g.get_put_apart f hgf hg]

/-- Whose move may change which flag (rules R73 to R76). -/
def FlagsMove (m : Turn) (s t : State) : Prop :=
  (t.hseReady ≠ s.hseReady → m = .hse) ∧ (t.pllLocked ≠ s.pllLocked → m = .pll) ∧
    (t.sws ≠ s.sws → m = .sw) ∧ (t.hsiReady ≠ s.hsiReady → m = .hsi)

theorem SameFlags.move {s t : State} (h : SameFlags s t) (m : Turn) : FlagsMove m s t := by
  obtain ⟨hhse, hpll, hsws, hhsi⟩ := h
  exact ⟨absurd hhse, absurd hpll, absurd hsws, absurd hhsi⟩

theorem hseStep_flagsMove {s : State} (hb : s.cfg.bind.wf = true) : FlagsMove .hse s s.hseStep := by
  obtain ⟨⟨hhsi, -, hpll⟩, hx, -, hy⟩ := s.cfg.bind.flags_apart hb
  have hf := hseStep_flag s
  obtain ⟨hsws, hother⟩ := hf.others
  rw [FlagsMove, State.pllLocked, State.hsiReady, hf.1]
  exact ⟨fun _ => rfl, absurd (hother _ hpll ((BitVec.and_comm _ _).trans hy)), absurd hsws,
    absurd (hother _ hhsi hx)⟩

theorem pllStep_flagsMove {s : State} (hb : s.cfg.bind.wf = true) : FlagsMove .pll s s.pllStep := by
  obtain ⟨⟨hhsi, hhse, -⟩, -, hx, hy⟩ := s.cfg.bind.flags_apart hb
  have hf := pllStep_flag s
  obtain ⟨hsws, hother⟩ := hf.others
  rw [FlagsMove, State.hseReady, State.hsiReady, hf.1]
  exact ⟨absurd (hother _ hhse hy), fun _ => rfl, absurd hsws, absurd (hother _ hhsi hx)⟩

theorem hsiStep_flagsMove {s : State} (hb : s.cfg.bind.wf = true) : FlagsMove .hsi s s.hsiStep := by
  obtain ⟨⟨-, hhse, hpll⟩, hx, hy, -⟩ := s.cfg.bind.flags_apart hb
  have hf := hsiStep_flag s
  obtain ⟨hsws, hother⟩ := hf.others
  rw [FlagsMove, State.hseReady, State.pllLocked, hf.1]
  exact ⟨absurd (hother _ hhse ((BitVec.and_comm _ _).trans hx)),
    absurd (hother _ hpll ((BitVec.and_comm _ _).trans hy)), absurd hsws, fun _ => rfl⟩

/-- The switch leaves `RCC_CR`, which holds the other flags (rule R75). -/
theorem swStep_flagsMove (s : State) : FlagsMove .sw s s.swStep := by
  obtain ⟨hc, -⟩ := swStep_frame s
  obtain ⟨-, w, hr⟩ := swStep_regs s
  simp [FlagsMove, State.hseReady, State.pllLocked, State.hsiReady, hc, hr]

/-- A tick leaves the clock tree's registers (rule R78). -/
theorem tickStep_sameFlags (s : State) : SameFlags s s.tickStep := by
  unfold State.tickStep
  split <;> exact .of_regs rfl rfl rfl

/-- A move changes no flag but its own agent's, but for a reset. -/
theorem runTurn_flagsMove {m : Turn} {s t : State} (h : runTurn m s = .next t) (hb : s.cfg.bind.wf = true)
    (hm : ∀ k, m ≠ .resetLow k) : FlagsMove m s t := by
  cases m <;> simp only [runTurn, Host.Outcome.next.injEq] at h
  case seq => exact ((seqTurn_store h).sameFlags (seqTurn_frame h).1 hb).move _
  case take =>
    obtain ⟨-, ⟨hr, -⟩, hc, -⟩ := takeTurn_effect h
    exact (SameFlags.of_regs hc (by rw [hr]) (by rw [hr])).move _
  case present w =>
    obtain ⟨⟨hc, -⟩, -, hr, -⟩ := s.presentTurn_frame w
    exact h ▸ (SameFlags.of_regs hc (by rw [hr]) (by rw [hr])).move _
  case hse => exact h ▸ hseStep_flagsMove hb
  case pll => exact h ▸ pllStep_flagsMove hb
  case sw => exact h ▸ swStep_flagsMove s
  case hsi => exact h ▸ hsiStep_flagsMove hb
  case div b =>
    obtain ⟨hc, -⟩ := divStep_frame s b
    obtain ⟨hr, -⟩ := divStep_regs s b
    exact h ▸ (SameFlags.of_regs hc (by rw [hr]) (by rw [hr])).move _
  case tick => exact h ▸ (tickStep_sameFlags s).move _
  case halt b => exact h ▸ (SameFlags.of_regs rfl rfl rfl).move _
  case resetLow k => exact absurd rfl (hm k)
  case resetHigh => exact h ▸ (SameFlags.of_regs rfl rfl rfl).move _
  case foreignUg => exact foreignUgTurn_next h ▸ (SameFlags.of_regs rfl rfl rfl).move _
  case idle => exact h ▸ (SameFlags.of_regs rfl rfl rfl).move _

/-- Settles O25: a flag changes at its own agent's move, and the end of a pulse before the move changes none. -/
theorem flagsChangeOnlyByTheirAgents : Obligations.FlagsChangeOnlyByTheirAgents := by
  intro s t h hb
  obtain ⟨-, m, hrun, hm⟩ := step_move h
  by_cases hk : ∃ k, m = .resetLow k
  · obtain ⟨k, rfl⟩ := hk
    exact .inl ⟨k, by simpa using hm⟩
  have hbegun : SameFlags s s.begun := .of_regs (by simp) (by simp) (by simp)
  have hf : FlagsMove m s t := by
    have hf := runTurn_flagsMove hrun (by simpa using hb) fun k hmk => hk ⟨k, hmk⟩
    unfold FlagsMove at hf
    obtain ⟨hhse, hpll, hsws, hhsi⟩ := hbegun
    rwa [hhse, hpll, hsws, hhsi] at hf
  obtain rfl | ⟨b, rfl⟩ := hm
  · exact .inr hf
  · obtain ⟨hhse, hpll, hsws, hhsi⟩ := hf
    exact .inr ⟨fun hne => (by cases hhse hne), fun hne => (by cases hpll hne), fun hne => (by cases hsws hne),
      fun hne => (by cases hhsi hne)⟩

/-! ## The state after reset -/

/-- Settles O49: the reset values are given as such (rule R27). -/
theorem sequencerResetValues : Obligations.SequencerResetValues := ⟨rfl, rfl, rfl, rfl, rfl, rfl, rfl⟩

/-- After reset the internal oscillator runs and drives the system clock, the PLL is off and nothing is divided (rules
R45, R181). -/
theorem State.reset_clockInv : State.reset.ClockInv := by
  unfold State.ClockInv State.pllConfigured slowBus1
  decide

/-- An empty trace has seen neither the PLL on nor a lock (rule R177). -/
theorem State.lockInv_of_no_events {s : State} (h : s.events = []) : s.LockInv := by
  simp [State.LockInv, h, lockScan]

/-- Settles O54: no program runs after reset, so only the clock tree and the empty trace are asked. -/
theorem bringUpInvAtReset : Obligations.BringUpInvAtReset :=
  ⟨rfl, Config.default_wf, rfl, State.reset_clockInv, State.lockInv_of_no_events rfl, fun hm => by cases hm⟩

end Sys2Proof.Machine
end

section

namespace Sys2Proof.Machine

/-! ## What one move adds to the trace -/

section

variable (s : State)

@[simp] theorem State.begun_events : s.begun.events = s.events := by simp [State.begun, s.endPulse_frame]
@[simp] theorem State.begun_accessible : s.begun.accessible = s.accessible := by
  simp [State.begun, s.endPulse_frame]

end

/-- An event that shows neither an access to a register nor a count of the timer. -/
def Event.isQuiet : Event → Bool
  | .rd _ _ => false
  | .wr _ _ => false
  | .tick _ => false
  | .accept _ _ => true
  | .done _ _ => true
  | .refused _ _ => true
  | .env _ _ _ => true
  | .fault _ => true

theorem Event.busAccess_quiet {e : Event} (h : e.isQuiet = true) (c : Config) : busAccess c e = none := by
  cases e with
  | rd | wr | tick => cases h
  | _ => rfl

/-- Quiet events neither re-arm the counter nor count. -/
theorem ticksSinceRearm_quiet {new : List Event} (h : ∀ e ∈ new, e.isQuiet = true) (b : Bind) (es : List Event) :
    ticksSinceRearm b (new ++ es) = ticksSinceRearm b es := by
  induction new with
  | nil => rfl
  | cons e new ih =>
    obtain ⟨he, hnew⟩ := List.forall_mem_cons.mp h
    rw [← ih hnew]
    cases e with
    | rd | wr | tick => cases he
    | _ => rfl

/-- What a move `m` from `s` to `t` adds to the trace, with what it does to the counter or the registers beside it. -/
inductive MoveTrace (m : Turn) (s t : State) : Prop where
  /-- A reset begins a new trace (log 18). -/
  | reset (k : ResetKind) (hm : m = .resetLow k) (he : t.events = [])
  /-- A read; a poll that reaches its limit enters FAULT mode after it (rules R67, R244). -/
  | read (r : RegId) (v : Word) (new : List Event) (hq : ∀ e ∈ new, e.isQuiet = true) (hlen : new.length ≤ 1)
      (he : t.events = new ++ .rd r v :: s.events) (hregs : t.regs = s.regs)
  /-- A write, which is never one of the counter (rule R107). -/
  | write (r : RegId) (v : Word) (hr : r ≠ .timCnt) (he : t.events = .wr r v :: s.events)
      (hregs : t.regs = (s.regWrite r v).regs)
  /-- A count of the timer (rule R78). -/
  | tick (he : t.events = .tick s.nextCnt :: s.events) (hcnt : t.regs.timCnt = s.nextCnt)
  /-- Every other move; it may re-arm the counter (rule R81). -/
  | quiet (new : List Event) (hq : ∀ e ∈ new, e.isQuiet = true) (hlen : new.length ≤ 2)
      (he : t.events = new ++ s.events) (hcnt : t.regs.timCnt = s.regs.timCnt ∨ t.regs.timCnt = 0)

/-- A move that adds at most one event, and that one quiet. -/
theorem MoveTrace.quietOne {m : Turn} {s t : State} {e : Event} (hq : e.isQuiet = true) (he : t.events = e :: s.events)
    (hcnt : t.regs.timCnt = s.regs.timCnt) : MoveTrace m s t :=
  .quiet [e] (by simpa using hq) (by simp) he (.inl hcnt)

/-- A move that leaves the trace. -/
theorem MoveTrace.silent {m : Turn} {s t : State} (he : t.events = s.events)
    (hcnt : t.regs.timCnt = s.regs.timCnt ∨ t.regs.timCnt = 0) : MoveTrace m s t :=
  .quiet [] (by simp) (by simp) he hcnt

/-- An unsatisfied poll emits nothing more than its read, but for the event of FAULT mode (rules R133, R244). -/
theorem State.pollAgain_events (s : State) :
    ∃ new : List Event, (∀ e ∈ new, e.isQuiet = true) ∧ new.length ≤ 1 ∧ s.pollAgain.events = new ++ s.events := by
  unfold State.pollAgain
  split
  · exact ⟨[.fault (.pollLimit s.seq.upc)], by simp [Event.isQuiet], by simp, by simp⟩
  · exact ⟨[], by simp, by simp, by simp⟩

theorem seqTurn_trace {s t : State} (h : s.seqTurn = .next t) :
    t.accessible = s.accessible ∧ MoveTrace .seq s t := by
  obtain ⟨-, rfl⟩ | ⟨-, hx⟩ := seqTurn_next s t h
  · exact ⟨rfl, .silent rfl (.inl rfl)⟩
  obtain ⟨r, a, b, -, he⟩ | ⟨r, b, -, he⟩ | ⟨r, a, b, -, he⟩ | ⟨r, -, he⟩ | ⟨-, he⟩ := hx
  · obtain ⟨hwf, ⟨-, rfl⟩ | ⟨-, -, rfl⟩⟩ := execRmw_next r a b s t he
    · exact ⟨by simp, .read r (s.regRead r) [] (by simp) (by simp) (by simp) (by simp)⟩
    · have hr : r ≠ .timCnt := by
        simp only [Instr.wf, Bool.and_eq_true, decide_eq_true_eq] at hwf
        exact hwf.1
      exact ⟨by simp [State.writeReg],
        .write r (s.seq.rd &&& ~~~a ||| b) hr (by simp [State.writeReg]) (by simp [State.writeReg])⟩
  · obtain ⟨hwf, -, rfl⟩ := execWr_next r b s t he
    have hr : r ≠ .timCnt := by simpa [Instr.wf] using hwf
    exact ⟨by simp [State.writeReg], .write r b hr (by simp [State.writeReg]) (by simp [State.writeReg])⟩
  · obtain ⟨-, ⟨-, -, rfl⟩ | ⟨-, rfl⟩⟩ := execPollEq_next r a b s t he
    · exact ⟨by simp, .read r (s.regRead r) [] (by simp) (by simp) (by simp) (by simp)⟩
    · obtain ⟨-, -, hregs, -, -, hacc, -⟩ := (s.readReg r).pollAgain_frame
      obtain ⟨new, hq, hlen, hev⟩ := (s.readReg r).pollAgain_events
      exact ⟨hacc, .read r (s.regRead r) new hq hlen hev hregs⟩
  · obtain ⟨-, ⟨-, -, rfl⟩ | ⟨-, rfl⟩⟩ := execPollGe_next r s t he <;>
      exact ⟨by simp, .read r (s.regRead r) [] (by simp) (by simp) (by simp) (by simp)⟩
  · simp only [execEndProg, Host.Outcome.next.injEq] at he
    subst he
    exact ⟨by simp, .quietOne (e := .done s.seq.cmd 0#32) rfl (by simp) (by simp)⟩

theorem takeTurn_trace {s t : State} (h : s.takeTurn = .next t) :
    t.accessible = s.accessible ∧ MoveTrace .take s t := by
  obtain rfl | ⟨-, w, -, hx⟩ := takeTurn_next s t h
  · exact ⟨rfl, .silent rfl (.inl rfl)⟩
  have accepted (op : Nibble) (arg : Word) (e : Event) (hq : e.isQuiet = true)
      (he : t.events = e :: .accept op arg :: s.events) : MoveTrace .take s t :=
    .quiet [e, .accept op arg] (List.forall_mem_cons.mpr ⟨hq, by simp [Event.isQuiet]⟩) (by simp) he
      (.inl (by rw [(takeTurn_effect h).store.1]))
  obtain ⟨-, he⟩ | ⟨-, he⟩ | ⟨-, he⟩ | rfl := hx
  · obtain ⟨-, rfl⟩ | ⟨-, -, rfl⟩ := execInit_next _ s t he
    · exact ⟨by simp, accepted _ _ _ rfl rfl⟩
    · exact ⟨by simp, .quietOne rfl rfl rfl⟩
  · obtain ⟨-, rfl⟩ | ⟨-, -, rfl⟩ := execDelay_next _ s t he
    · exact ⟨by simp, accepted _ _ _ rfl rfl⟩
    · exact ⟨by simp, .quietOne rfl rfl rfl⟩
  · simp only [execCpuf, Host.Outcome.next.injEq] at he
    subst he
    exact ⟨by simp, accepted _ _ _ rfl rfl⟩
  · exact ⟨rfl, accepted _ _ _ rfl rfl⟩

/-- An agent's step that either emits one quiet event or changes nothing. -/
theorem MoveTrace.ifEmit {m : Turn} {s u : State} {e : Event} {c : Prop} [Decidable c] (hq : e.isQuiet = true)
    (he : u.events = s.events) (hcnt : u.regs.timCnt = s.regs.timCnt) :
    MoveTrace m s (if c then u.emit e else s) := by
  split
  · exact .quietOne hq (congrArg _ he) hcnt
  · exact .silent rfl (.inl rfl)

theorem hseStep_trace (s : State) : MoveTrace .hse s s.hseStep := by
  unfold State.hseStep
  split
  · exact .quietOne rfl rfl rfl
  · exact .ifEmit rfl rfl rfl

theorem divStep_trace (s : State) (b : Bus) : MoveTrace (.div b) s (s.divStep b) := by
  cases b <;> exact .ifEmit rfl rfl rfl

theorem tickStep_trace (s : State) : MoveTrace .tick s s.tickStep := by
  unfold State.tickStep
  split
  · exact .tick rfl rfl
  · exact .silent rfl (.inl rfl)

theorem presentTurn_trace (s : State) (w : CmdWord) : MoveTrace (.present w) s (s.presentTurn w) := by
  unfold State.presentTurn
  split <;> exact .silent rfl (.inl rfl)

/-- What a move adds to the trace, whoever makes it. -/
theorem runTurn_trace {m : Turn} {s t : State} (h : runTurn m s = .next t) : MoveTrace m s t := by
  cases m <;> simp only [runTurn, Host.Outcome.next.injEq] at h
  case seq => exact (seqTurn_trace h).2
  case take => exact (takeTurn_trace h).2
  case present w => exact h ▸ presentTurn_trace s w
  case hse => exact h ▸ hseStep_trace s
  case pll => exact h ▸ .ifEmit rfl rfl rfl
  case sw => exact h ▸ .ifEmit rfl rfl rfl
  case hsi => exact h ▸ .ifEmit rfl rfl rfl
  case div b => exact h ▸ divStep_trace s b
  case tick => exact h ▸ tickStep_trace s
  case halt b => exact h ▸ .quietOne rfl rfl rfl
  case resetLow k => exact h ▸ .reset k rfl rfl
  case resetHigh => exact h ▸ .silent rfl (.inl rfl)
  case foreignUg => exact foreignUgTurn_next h ▸ .silent rfl (.inr rfl)
  case idle => exact h ▸ .silent rfl (.inl rfl)

/-! ## The counter and the ticks of the trace -/

/-- A re-armed counter is ahead of no count of ticks. -/
theorem State.CounterInv.of_zero {s : State} (h : s.regs.timCnt = 0) : s.CounterInv := fun k _ => by
  rw [h]
  exact Nat.zero_le k

/-- A move that leaves the counter and adds no tick and no re-arm keeps the invariant. -/
theorem State.CounterInv.of_same {s t : State} (h : s.CounterInv) (hcnt : t.regs.timCnt = s.regs.timCnt)
    (hticks : ticksSinceRearm t.cfg.bind t.events = ticksSinceRearm s.cfg.bind s.events) : t.CounterInv := by
  unfold State.CounterInv
  rwa [hcnt, hticks]

/-- Counting up in 32 bits adds at most one (rule R9). -/
theorem toNat_succ_le (x : Word) : (x + 1).toNat ≤ x.toNat + 1 := by
  rw [BitVec.toNat_add]
  exact Nat.mod_le _ _

/-- A tick moves the counter up by at most one (rule R78). -/
theorem State.nextCnt_le (s : State) : s.nextCnt.toNat ≤ s.regs.timCnt.toNat + 1 := by
  unfold State.nextCnt
  split
  · exact Nat.zero_le _
  · calc ((s.regs.timCnt + 1) &&& s.cfg.cntMask).toNat
        ≤ (s.regs.timCnt + 1).toNat := by rw [BitVec.toNat_and]; exact Nat.and_le_left
      _ ≤ s.regs.timCnt.toNat + 1 := toNat_succ_le _

/-- A write of `TIM_EGR` clears the counter where it is counted as a re-arm (`UG` set), and changes neither the counter
nor the count otherwise; a write of another register leaves both (rules R67, R79). -/
theorem State.regWrite_timCnt (s : State) {r : RegId} (hr : r ≠ .timCnt) (v : Word) :
    (s.regWrite r v).regs.timCnt = 0 ∨
    ((s.regWrite r v).regs.timCnt = s.regs.timCnt ∧
      ticksSinceRearm s.cfg.bind (.wr r v :: s.events) = ticksSinceRearm s.cfg.bind s.events) := by
  by_cases he : r = .timEgr
  · subst he
    cases hu : isSet s.cfg.bind.ug v
    · exact .inr ⟨by rw [s.regWrite_noUg v hu], by simp [ticksSinceRearm, hu]⟩
    · exact .inl (by rw [s.regWrite_ug v hu]; rfl)
  · have hcnt : (s.regWrite r v).regs.timCnt = s.regs.timCnt := s.regWrite_get_ne r .timCnt v he hr
    refine .inr ⟨hcnt, ?_⟩
    cases r with
    | timEgr => exact absurd rfl he
    | _ => rfl

theorem MoveTrace.counterInv {m : Turn} {s t : State} (hm : MoveTrace m s t) (hc : t.cfg = s.cfg) (h : s.CounterInv) :
    t.CounterInv := by
  cases hm with
  | reset _ _ he => simp [State.CounterInv, he, ticksSinceRearm]
  | read r v new hq _ he hregs =>
    refine h.of_same (by rw [hregs]) ?_
    rw [hc, he, ticksSinceRearm_quiet hq]
    rfl
  | write r v hr he hregs =>
    obtain hz | ⟨hcnt, hticks⟩ := s.regWrite_timCnt hr v
    · exact .of_zero (by rw [hregs, hz])
    · exact h.of_same (by rw [hregs, hcnt]) (by rw [hc, he, hticks])
  | tick he hcnt =>
    intro k hk
    rw [hc, he, ticksSinceRearm, Option.map_eq_some_iff] at hk
    obtain ⟨n, hn, rfl⟩ := hk
    rw [hcnt]
    exact s.nextCnt_le.trans (Nat.add_le_add_right (h n hn) 1)
  | quiet new hq _ he hcnt =>
    obtain hcnt | hz := hcnt
    · exact h.of_same hcnt (by rw [hc, he, ticksSinceRearm_quiet hq])
    · exact .of_zero hz

/-- Settles O57: the counter goes up only together with a tick in the trace, and a re-arm in the trace clears it. -/
theorem counterNeverAheadOfTicks : Obligations.CounterNeverAheadOfTicks := by
  intro s t hs h
  obtain ⟨-, m, hrun, -⟩ := step_move h
  refine (runTurn_trace hrun).counterInv (runTurn_fixed hrun).1 (hs.of_same (by simp) (by simp))

end Sys2Proof.Machine
end

section

namespace Sys2Proof.Machine

/-! ## What a step leaves, and who changes the registers -/

/-- A move does not change the launch premise (rule R68). -/
theorem runTurn_accessible {m : Turn} {s t : State} (h : runTurn m s = .next t) :
    t.accessible = s.accessible := by
  obtain ⟨-, h⟩ | ⟨-, h⟩ | ⟨w, rfl⟩ | ⟨k, -, rfl⟩ | rfl | ⟨-, -, -, -, hacc, -⟩ := runTurn_cases h
  · exact (seqTurn_trace h).1
  · exact (takeTurn_trace h).1
  · unfold State.presentTurn
    split <;> rfl
  · rfl
  · rfl
  · exact hacc

/-- Settles O30: no move writes the ROM, the configuration or the launch premise. -/
theorem romAndConfigurationFixed : Obligations.RomAndConfigurationFixed := by
  intro s t h
  obtain ⟨-, m, hrun, -⟩ := step_move h
  obtain ⟨hcfg, hrom⟩ := step_fixed h
  have hacc : t.accessible = s.accessible := by simpa using runTurn_accessible hrun
  exact ⟨hrom, hcfg, hacc, fun a => by rw [hrom]⟩

/-- Quiet events show no access on the master port. -/
theorem busAccess_quiet {new : List Event} (h : ∀ e ∈ new, e.isQuiet = true) (c : Config) :
    new.filterMap (busAccess c) = [] :=
  List.filterMap_eq_nil_iff.mpr fun e he => Event.busAccess_quiet (h e he) c

/-- A move but a reset adds at most two events, one access among them at most. -/
theorem MoveTrace.oneAccess {m : Turn} {s t : State} (hm : MoveTrace m s t) (c : Config) :
    (∃ k, m = .resetLow k ∧ t.events = []) ∨
    ∃ new, t.events = new ++ s.events ∧ new.length ≤ 2 ∧ (new.filterMap (busAccess c)).length ≤ 1 := by
  cases hm with
  | reset k hm he => exact .inl ⟨k, hm, he⟩
  | read r v new hq hlen he _ =>
    refine .inr ⟨new ++ [.rd r v], by simpa using he, by simpa using hlen, ?_⟩
    rw [List.filterMap_append, busAccess_quiet hq]
    exact List.length_filterMap_le _ _
  | write r v _ he _ => exact .inr ⟨[.wr r v], he, by simp, List.length_filterMap_le _ _⟩
  | tick he _ => exact .inr ⟨[.tick s.nextCnt], he, by simp, List.length_filterMap_le _ _⟩
  | quiet new hq hlen he _ => exact .inr ⟨new, he, hlen, by simp [busAccess_quiet hq]⟩

/-- Settles O31: every move adds at most two events, and of these only a read or a write is an access. -/
theorem oneAccessPerStep : Obligations.OneAccessPerStep := by
  intro s t h
  obtain ⟨-, m, hrun, hm⟩ := step_move h
  obtain ⟨k, rfl, he⟩ | hnew := (runTurn_trace hrun).oneAccess s.cfg
  · exact .inl ⟨k, by simpa using hm, he⟩
  · exact .inr (by simpa using hnew)

/-- The moves that may change the registers or the hidden state (rule R81). -/
def State.Writer (s : State) (m : Turn) : Prop :=
  (m = .seq ∧ s.busy = true) ∨ m = .hse ∨ m = .pll ∨ m = .sw ∨ m = .hsi ∨ (∃ b, m = .div b) ∨ m = .tick ∨
    (∃ b, m = .halt b) ∨ (∃ k, m = .resetLow k) ∨ (m = .foreignUg ∧ s.busy = false ∧ s.seq.initDone = true)

/-- SEQ's move changes nothing unless a program runs (rule R130). -/
theorem State.busy_of_seqTurn_ne {s t : State} (h : s.seqTurn = .next t) (hne : t ≠ s) : s.busy = true := by
  obtain rfl | ⟨hr, -⟩ := seqTurn_effect h
  · exact absurd rfl hne
  · exact State.busy_of_seqReady hr

/-- Another user triggers the timer only after bring-up and with no program running (rules R81, R201). -/
theorem foreignUgTurn_guard {s t : State} (h : s.foreignUgTurn = .next t) :
    s.busy = false ∧ s.seq.initDone = true := by
  unfold State.foreignUgTurn at h
  split at h
  · rename_i hg
    exact ⟨by simp [State.busy, hg.1], hg.2⟩
  · cases h

/-- Of the other moves the taking, HOST's, the reset's release and none leave the registers and the hidden state. -/
theorem runTurn_writer {m : Turn} {s t : State} (h : runTurn m s = .next t)
    (hne : t.regs ≠ s.regs ∨ t.hidden ≠ s.hidden) : s.Writer m := by
  have same (hs : t.regs = s.regs ∧ t.hidden = s.hidden) : s.Writer m := by simp [hs] at hne
  cases m with
  | seq => exact .inl ⟨rfl, State.busy_of_seqTurn_ne h (by rintro rfl; simp at hne)⟩
  | take => exact same (takeTurn_effect h).store
  | present w =>
    obtain ⟨-, -, hr, hh, -⟩ := s.presentTurn_frame w
    exact same (by cases h; exact ⟨hr, hh⟩)
  | resetHigh => exact same (by cases h; exact ⟨rfl, rfl⟩)
  | idle => exact same (by cases h; exact ⟨rfl, rfl⟩)
  | foreignUg => simp [State.Writer, foreignUgTurn_guard h]
  | _ => simp [State.Writer]

/-- Settles O32: the registers and the hidden state are those of the step's move, and only some moves write them. -/
theorem onlyWritersChangeRegisters : Obligations.OnlyWritersChangeRegisters := by
  intro s t h hne
  obtain ⟨-, -, m, hm, hrun⟩ := step_cases s t h
  have hw : s.begun.Writer m := runTurn_writer (s := s.begun) hrun (by simpa using hne)
  obtain rfl | ⟨b, c, hb, rfl⟩ := hm
  · simpa [State.Writer, State.busy] using hw
  · simp [hb]

end Sys2Proof.Machine
end

section

namespace Sys2Proof

/-- In a binding a model accepts, `SW` and `SWS` lie inside `RCC_CFGR` and apart from each other. -/
theorem Bind.switch_apart (b : Bind) (h : b.wf = true) :
    b.sw.fits = true ∧ b.sws.fits = true ∧ b.sw.mask &&& b.sws.mask = 0 := by
  obtain ⟨-, -, hcfgr⟩ := b.wf_apart h
  simp only [Bind.wf, Bool.and_eq_true] at h
  simp only [disjointMasks, List.all_cons, List.all_nil, Bool.and_eq_true, decide_eq_true_eq] at hcfgr
  simp only [h, hcfgr, and_self]

/-- The counter's bits hold every number up to their mask. -/
theorem Config.and_cntMask (c : Config) {x : Word} (h : x.toNat ≤ c.cntMask.toNat)
    (hw : c.cntWidth ≤ 32) : x &&& c.cntMask = x := by
  have hpow : 2 ^ c.cntWidth ≤ 2 ^ 32 := Nat.pow_le_pow_right (by decide) hw
  have hpos : 0 < 2 ^ c.cntWidth := Nat.two_pow_pos _
  have hmask : c.cntMask.toNat = 2 ^ c.cntWidth - 1 := by
    rw [Config.cntMask, BitVec.toNat_ofNat, Nat.mod_eq_of_lt (by omega)]
  apply BitVec.eq_of_toNat_eq
  rw [BitVec.toNat_and, hmask, Nat.and_two_pow_sub_one_eq_mod, Nat.mod_eq_of_lt (by omega)]

end Sys2Proof

namespace Sys2Proof.Machine

/-! ## The re-arm -/

/-- A write of `TIM_EGR` with `UG` set re-arms and advances (rules R79, R132). -/
theorem exec_wr_ug {s : State} {b : Word} (hu : isSet s.cfg.bind.ug b = true) (hupc : s.seq.upc ≠ 31#5) :
    exec (.wr .timEgr b) s =
      .next ((s.rearm.emit (.wr .timEgr b)).setSeq { s.seq with upc := s.seq.upc + 1#5 }) := by
  have hwf : Instr.wf (.wr .timEgr b) = true := rfl
  rw [exec, execWr, if_pos hwf, State.writeReg, s.regWrite_ug b hu, State.nextUpc_next_iff]
  exact ⟨hupc, rfl⟩

/-- Settles O13: the re-arm overwrites the two places where the states differ. -/
theorem rearmForgetsCounter : Obligations.RearmForgetsCounter := by
  intro s b cnt p hu hupc
  rw [exec_wr_ug hu hupc]
  refine ⟨exec_wr_ug hu hupc, _, rfl, ?_, rfl⟩
  exact BitVec.zero_and

/-- Settles O59: the guard of the move is the statement's. -/
theorem foreignTriggerRearms : Obligations.ForeignTriggerRearms :=
  fun _ => ⟨fun h => if_pos h, fun h => if_neg h⟩

/-! ## Launches -/

/-- A launch on registers that do not respond stops by name (rules R68, R274). -/
theorem State.launch_refused {s : State} (h : s.accessible = false) (q : Seq) :
    s.launch q = .refused .notAccessible := if_neg (ne_true_of_eq_false h)

/-- Settles O16: both programs start by a launch. -/
theorem launchNeedsReachableRegisters : Obligations.LaunchNeedsReachableRegisters := by
  intro arg s ha
  refine ⟨fun hi => ?_, fun hi => ?_⟩
  · rw [exec, execInit, if_neg (ne_true_of_eq_false hi)]
    exact State.launch_refused (by simpa using ha) _
  · rw [exec, execDelay, if_neg (by simp [hi])]
    exact State.launch_refused (by simpa using ha) _

/-! ## The environment's moves -/

/-- A flag of `RCC_CR` put to a value and reported is the one thing that has changed. -/
theorem flagMoved_put (s : State) {f : BitField 1} (hf : f.fits = true) (v : Bool) (e : Event) :
    FlagMoved s ((s.setRccCr (f.put (bitOf v) s.regs.rccCr)).emit e) f v e := by
  refine ⟨?_, f.put_outside_mask _ _, rfl⟩
  change decide (f.get (f.put (bitOf v) s.regs.rccCr) = 1#1) = v
  rw [f.get_put_same hf]
  cases v <;> rfl

/-- Settles O36: the flag follows the enable bit, by one of the two branches of the step. -/
theorem oscillatorReports : Obligations.OscillatorReports := by
  intro s hb
  obtain ⟨⟨-, hfits, -⟩, -⟩ := s.cfg.bind.flags_apart hb
  simp only [runTurn, Host.Outcome.next.injEq, exists_eq_left']
  refine ⟨fun hon hrdy => ?_, fun hon hrdy => ?_, fun heq => ?_⟩
  · rw [State.hseStep, if_pos (by simp [State.hseEnabled, hon, hrdy])]
    exact flagMoved_put s hfits true _
  · rw [State.hseStep, if_neg (by simp [State.hseEnabled, hon]),
      if_pos (by simp [State.hseFallEnabled, hon, hrdy])]
    exact flagMoved_put s hfits false _
  · rw [State.hseStep, if_neg (by simp [State.hseEnabled, heq]), if_neg (by simp [State.hseFallEnabled, heq])]

/-- When ENV.PLL is enabled, in the terms of rule R74. -/
theorem State.pllEnabled_iff (s : State) :
    s.pllEnabled = true ↔ s.pllOn = true ∧ s.pllLocked = false ∧
      ((s.pllFromHse = true ∧ s.hseReady = true) ∨ (s.pllFromHse = false ∧ s.hsiReady = true)) := by
  cases hsrc : s.pllFromHse <;> simp [State.pllEnabled, State.pllSourceReady, hsrc, and_assoc]

/-- Settles O37: the model's enabling condition is rule R74's. -/
theorem pllLocksWithReadySource : Obligations.PllLocksWithReadySource := by
  intro s hb
  obtain ⟨⟨-, -, hfits⟩, -⟩ := s.cfg.bind.flags_apart hb
  simp only [← s.pllEnabled_iff, runTurn, Host.Outcome.next.injEq, exists_eq_left']
  refine ⟨fun hen => ?_, fun hen => if_neg hen⟩
  rw [State.pllStep, if_pos hen]
  exact flagMoved_put s hfits true _

/-- When ENV.SW is enabled, in the terms of rule R75; the code 3 selects no source (log 15). -/
theorem State.swEnabled_iff (s : State) :
    s.swEnabled = true ↔ s.sws ≠ s.sw ∧
      ((s.sw = 0b00#2 ∧ s.hsiReady = true) ∨ (s.sw = 0b01#2 ∧ s.hseReady = true) ∨
       (s.sw = 0b10#2 ∧ s.pllLocked = true)) := by
  have hsrc : s.sourceReady s.sw = true ↔
      (s.sw = 0b00#2 ∧ s.hsiReady = true) ∨ (s.sw = 0b01#2 ∧ s.hseReady = true) ∨
        (s.sw = 0b10#2 ∧ s.pllLocked = true) := by
    unfold State.sourceReady swHsi swHse swPll
    grind
  rw [State.swEnabled, Bool.and_eq_true, decide_eq_true_eq, hsrc]

/-- Settles O38: the model's enabling condition is rule R75's, and `SW` lies apart from `SWS`. -/
theorem switchFollowsReadySource : Obligations.SwitchFollowsReadySource := by
  intro s hb
  obtain ⟨hsw, hsws, hapart⟩ := s.cfg.bind.switch_apart hb
  simp only [← s.swEnabled_iff, runTurn, Host.Outcome.next.injEq, exists_eq_left']
  refine ⟨fun hen => ?_, fun hen => if_neg hen⟩
  rw [State.swStep, if_pos hen]
  exact ⟨BitField.get_put_same _ hsws _ _, BitField.get_put_apart _ _ hapart hsw _ _,
    BitField.put_outside_mask _ _ _, rfl⟩

/-- When ENV.HSI is enabled, in the terms of rule R76 (log 15). -/
theorem State.hsiEnabled_iff (s : State) :
    s.hsiEnabled = true ↔ s.hsiOn = false ∧ s.hsiReady = true ∧ s.sws ≠ 0b00#2 ∧
      ¬ (s.pllOn = true ∧ s.pllFromHse = false) := by
  change _ ↔ _ ∧ _ ∧ s.sws ≠ swHsi ∧ _
  cases hon : s.pllOn <;> cases hsrc : s.pllFromHse <;>
    simp [State.hsiEnabled, State.hsiInUse, hon, hsrc, and_assoc]

/-- Settles O39: the model's enabling condition is rule R76's. -/
theorem internalOscillatorStopsUnused : Obligations.InternalOscillatorStopsUnused := by
  intro s hb
  obtain ⟨⟨hfits, -⟩, -⟩ := s.cfg.bind.flags_apart hb
  simp only [← s.hsiEnabled_iff, runTurn, Host.Outcome.next.injEq, exists_eq_left']
  refine ⟨fun hen => ?_, fun hen => if_neg hen⟩
  rw [State.hsiStep, if_pos hen]
  exact flagMoved_put s hfits false _

/-- SEQ waits for a divider in effect to follow (rules R77, R130). -/
theorem State.not_seqReady_of_divPending {s : State} {b : Bus} (h : s.divPending b = true) :
    s.seqReady = false := by
  have hen : s.divEnabled = true := by cases b <;> simp [State.divEnabled, h]
  simp [State.seqReady, hen]

/-- Settles O40: the step for one bus writes that bus's code in effect only. -/
theorem dividersFollowOneAtATime : Obligations.DividersFollowOneAtATime := by
  intro s b c
  refine ⟨fun hne => ?_, fun heq => ?_⟩
  · have hp : s.divPending b = true := decide_eq_true hne
    refine ⟨seqTurn_held s (State.not_seqReady_of_divPending hp), s.divStep b, rfl, ?_⟩
    unfold State.divStep
    rw [if_pos hp]
    cases b
    · exact ⟨rfl, by cases c <;> simp [State.effPpre], rfl, rfl, rfl⟩
    · exact ⟨rfl, by cases c <;> simp [State.effPpre], rfl, rfl, rfl⟩
  · have hp : s.divPending b = false := decide_eq_false (not_not_intro heq)
    exact congrArg _ (if_neg (ne_true_of_eq_false hp))

/-- When ENV.TICK is enabled, in the terms of rule R78. -/
theorem State.tickEnabled_iff (s : State) :
    s.tickEnabled = true ↔ s.counterOn = true ∧ ¬ (s.freezeOn = true ∧ s.hidden.coreHalted = true) := by
  cases hf : s.freezeOn <;> simp [State.tickEnabled, hf]

/-- Below `arr` the counter goes up by one: the bits it has hold the next value (rules R39, R43, R78). -/
theorem State.nextCnt_below {s : State} (hwf : s.cfg.wf = true) (hi : TimerInv s.cfg s.regs s.hidden)
    (hne : s.regs.timCnt ≠ s.hidden.arr) : s.nextCnt = s.regs.timCnt + 1 := by
  obtain ⟨-, -, harr, hle⟩ := hi
  obtain ⟨ht, -⟩ := s.cfg.wf_parts hwf
  simp only [Config.timerWf, Bool.and_eq_true, decide_eq_true_eq] at ht
  obtain ⟨⟨⟨-, -, hw⟩, htop⟩, -⟩ := ht
  have hlt : s.regs.timCnt.toNat < s.hidden.arr.toNat :=
    Nat.lt_of_le_of_ne hle fun e => hne (BitVec.eq_of_toNat_eq e)
  have hsucc : (s.regs.timCnt + 1).toNat ≤ s.cfg.cntMask.toNat :=
    calc (s.regs.timCnt + 1).toNat
        ≤ s.regs.timCnt.toNat + 1 := toNat_succ_le _
      _ ≤ s.hidden.arr.toNat := hlt
      _ ≤ s.cfg.cntMask.toNat := harr ▸ htop
  rw [State.nextCnt, if_neg hne]
  exact s.cfg.and_cntMask hsucc hw

/-- Settles O41: at `arr` the step wraps and takes the prescaler over, below it the counter goes up. -/
theorem counterCountsAndWraps : Obligations.CounterCountsAndWraps := by
  intro s hwf hi
  obtain ⟨-, htimer, -⟩ := s.inv_iff.mp hi
  simp only [← s.tickEnabled_iff, runTurn, Host.Outcome.next.injEq]
  refine ⟨fun hen htop => ?_, fun hen hne => ?_, fun hen => if_neg hen⟩
  · have hzero : s.nextCnt = 0 := if_pos htop
    rw [State.tickStep, if_pos hen, hzero, if_pos htop]
    rfl
  · rw [State.tickStep, if_pos hen, State.nextCnt_below hwf htimer hne, if_neg hne]
    rfl

/-- Settles O42: neither SEQ nor a frozen counter is ready while the core is halted, and resuming writes one hidden
bit. -/
theorem debuggerSuspendsWait : Obligations.DebuggerSuspendsWait := by
  intro s hhalt
  have hseq : s.seqReady = false := by simp [State.seqReady, hhalt]
  refine ⟨seqTurn_held s hseq, fun hfreeze => ?_, s.haltStep false, rfl, rfl, rfl, rfl⟩
  have htick : ¬ s.tickEnabled = true := by simp [s.tickEnabled_iff, hfreeze, hhalt]
  exact congrArg _ (if_neg htick)

end Sys2Proof.Machine
end

section

namespace Sys2Proof

open Sys2Proof.Machine

/-! ## The programs in the ROM -/

/-- A micro-op: an instruction whose encoding is a micro-op word (rule R100). -/
def Instr.isMicroOp : Instr → Bool
  | .rmw _ _ _ => true
  | .wr _ _ => true
  | .pollEq _ _ _ => true
  | .pollGe _ => true
  | .endProg => true
  | .init _ => false
  | .delay _ => false
  | .cpuf _ => false

/-- The word of a well-formed micro-op decodes to it (rules R101 to R107). -/
theorem decodeMicroOp_uopBits {i : Instr} (hwf : i.wf = true) (hm : i.isMicroOp = true) :
    decodeMicroOp (uopBits i) = .ok i := by
  cases i with
  | rmw r a b =>
    simp only [Instr.wf, Bool.and_eq_true, decide_eq_true_eq] at hwf
    simp only [uopBits, encode, decodeMicroOp, uopOpc_uopWord, uopReg_uopWord, uopA_uopWord, uopB_uopWord]
    simp [decodeRmw, RegId.ofCode_code, hwf]
  | wr r b =>
    simp only [Instr.wf, decide_eq_true_eq] at hwf
    simp only [uopBits, encode, decodeMicroOp, uopOpc_uopWord, uopReg_uopWord, uopA_uopWord, uopB_uopWord]
    simp [decodeWr, RegId.ofCode_code, hwf, opcRmw, opcWr]
  | pollEq r a b =>
    simp only [Instr.wf, decide_eq_true_eq] at hwf
    simp only [uopBits, encode, decodeMicroOp, uopOpc_uopWord, uopReg_uopWord, uopA_uopWord, uopB_uopWord]
    simp [decodePollEq, RegId.ofCode_code, hwf, opcRmw, opcWr, opcPollEq]
  | pollGe r =>
    obtain rfl : r = .timCnt := by simpa [Instr.wf] using hwf
    decide
  | endProg => decide
  | init _ => cases hm
  | delay _ => cases hm
  | cpuf _ => cases hm

/-- Values within their masks are together within the masks together. -/
theorem or_within {x y m n : Word} (hx : x &&& ~~~m = 0) (hy : y &&& ~~~n = 0) :
    (x ||| y) &&& ~~~(m ||| n) = 0 := by
  have hx' : x &&& (~~~m &&& ~~~n) = 0 := by rw [← BitVec.and_assoc, hx]; exact BitVec.zero_and
  have hy' : y &&& (~~~m &&& ~~~n) = 0 := by
    rw [BitVec.and_comm (~~~m), ← BitVec.and_assoc, hy]; exact BitVec.zero_and
  rw [BitVec.not_or, BitVec.and_or_distrib_right, hx', hy']
  exact BitVec.or_self

/-- The INIT program is rule R153's listing, line by line. -/
theorem Config.initProgram_eq_listing (c : Config) : c.initProgram = listing153 c := by
  have hws (o : Option Nat) : o.getD 0 = match o with | some x => x | none => 0 := by cases o <;> rfl
  have hcode (o : Option (BitVec 3)) : o.getD 0 = match o with | some x => x | none => 0 := by cases o <;> rfl
  unfold Config.initProgram Config.flashValue Config.ppreValue
  simp only [hws, hcode]
  rfl

/-- Every line of the INIT program is a well-formed micro-op (rules R107, R153). -/
theorem Config.initProgram_wf (c : Config) : ∀ i ∈ c.initProgram, i.wf = true ∧ i.isMicroOp = true := by
  have field {k : Nat} (f : BitField k) (v : BitVec k) : f.enc v &&& ~~~f.mask = 0 := f.enc_outside_mask v
  have all (m : Word) : m &&& ~~~m = 0 := BitVec.and_not_self m
  have clear (m : Word) : 0 &&& ~~~m = 0 := BitVec.zero_and
  have hpll : c.pllValue &&& ~~~c.pllMask = 0 :=
    or_within (or_within (or_within (or_within (field _ _) (field _ _)) (field _ _)) (field _ _)) (field _ _)
  have hflash : c.flashValue &&& ~~~c.flashMask = 0 :=
    or_within (or_within (or_within (field _ _) (field _ _)) (field _ _)) (field _ _)
  have hppre (d1 d2 : Nat) : c.ppreValue d1 d2 &&& ~~~c.ppreMask = 0 := or_within (field _ _) (field _ _)
  simp only [Config.initProgram, setb, clrb, wrf, waitset, waitclr, waiteq, List.forall_mem_cons, Instr.wf,
    Instr.isMicroOp, BitField.encNat, field, all, clear, hpll, hflash, hppre]
  simp

/-- Where two programs stand one after the other, each word is read from its program, and every other word is all zeros
(rule R61). -/
theorem Rom.read_placeTwo (p q : List Instr) (a b : Nat) (hab : a + p.length ≤ b) (x : RomAddr) :
    (∀ n i, p[n]? = some i → x.toNat = a + n → Rom.read (placeProgram a p ++ placeProgram b q) x = uopBits i) ∧
    (∀ n i, q[n]? = some i → x.toNat = b + n → Rom.read (placeProgram a p ++ placeProgram b q) x = uopBits i) ∧
    ((x.toNat < a ∨ a + p.length ≤ x.toNat) → (x.toNat < b ∨ b + q.length ≤ x.toNat) →
      Rom.read (placeProgram a p ++ placeProgram b q) x = 0) := by
  refine ⟨fun n i hi hx => Rom.read_placed p a n i _ hi x hx, fun n i hi hx => ?_, fun hp hq => ?_⟩
  · rw [Rom.read_past p a _ x (.inr (by omega)), ← List.append_nil (placeProgram b q)]
    exact Rom.read_placed q b n i [] hi x hx
  · rw [Rom.read_past p a _ x hp, ← List.append_nil (placeProgram b q)]
    exact Rom.read_past q b [] x hq

/-- What the ROM of a configuration holds: the two programs, and all zeros elsewhere (rules R61, R152). -/
theorem Config.read_rom {c : Config} (h : c.layoutWf = true) (x : RomAddr) :
    (∀ n i, c.initProgram[n]? = some i → x.toNat = c.initEntry.toNat + n → Rom.read c.rom x = uopBits i) ∧
    (∀ n i, delayProgram[n]? = some i → x.toNat = c.delayEntry.toNat + n → Rom.read c.rom x = uopBits i) ∧
    ((x.toNat < c.initEntry.toNat ∨ c.initEntry.toNat + 19 ≤ x.toNat) →
      (x.toNat < c.delayEntry.toNat ∨ c.delayEntry.toNat + 3 ≤ x.toNat) → Rom.read c.rom x = 0) := by
  have hp : c.initProgram.length = 19 := rfl
  have hq : delayProgram.length = 3 := rfl
  have hapart := c.entries_apart h
  unfold Config.rom
  split
  · exact Rom.read_placeTwo c.initProgram delayProgram _ _ (by omega) x
  · obtain ⟨hdelay, hinit, helse⟩ :=
      Rom.read_placeTwo delayProgram c.initProgram c.delayEntry.toNat c.initEntry.toNat (by omega) x
    exact ⟨hinit, hdelay, fun hi hd => helse hd hi⟩

/-- The address `n` words after an entry, where the ROM has one. -/
theorem RomAddr.toNat_add_ofNat (a : RomAddr) {n : Nat} (h : a.toNat + n < 32) :
    (a + BitVec.ofNat 5 n).toNat = a.toNat + n := by
  rw [BitVec.toNat_add, BitVec.toNat_ofNat, Nat.add_mod_mod, Nat.mod_eq_of_lt h]

/-- The DELAY program's words are rule R205's. -/
theorem delayProgram_words : delayProgram.map uopBits = listing205 := by decide

/-- Settles O48: the ROM lays the two programs out from their entries, and each line's word decodes to the line. -/
theorem programsStandInRom : Obligations.ProgramsStandInRom := by
  refine ⟨⟨rfl, rfl⟩, fun c hc => ?_⟩
  obtain ⟨-, -, hlayout, -⟩ := c.wf_parts hc
  have hapart := c.entries_apart hlayout
  refine ⟨fun n i hi => ?_, fun n w hw => ?_, fun a => (Config.read_rom hlayout a).2.2⟩
  · rw [← c.initProgram_eq_listing] at hi
    have hn : n < 19 := (List.getElem?_eq_some_iff.mp hi).1
    obtain ⟨hinit, -⟩ := Config.read_rom hlayout (c.initEntry + BitVec.ofNat 5 n)
    obtain ⟨hwf, hm⟩ := c.initProgram_wf i (List.mem_of_getElem? hi)
    rw [hinit n i hi (RomAddr.toNat_add_ofNat _ (by omega))]
    exact decodeMicroOp_uopBits hwf hm
  · have hn : n < 3 := (List.getElem?_eq_some_iff.mp hw).1
    obtain ⟨-, hdelay, -⟩ := Config.read_rom hlayout (c.delayEntry + BitVec.ofNat 5 n)
    rw [← delayProgram_words, List.getElem?_map, Option.map_eq_some_iff] at hw
    obtain ⟨i, hi, rfl⟩ := hw
    exact hdelay n i hi (RomAddr.toNat_add_ofNat _ (by omega))

end Sys2Proof
end

section

namespace Sys2Proof

open Sys2Proof.Machine

/-! ## Words and instructions correspond -/

/-- A micro-op word is its four fields, no bit left over (rule R101). -/
theorem uopWord_fields (w : UopWord) : uopWord (uopOpc w) (uopReg w) (uopA w) (uopB w) = w := by
  unfold uopWord uopOpc uopReg uopA uopB
  rw [BitVec.extractLsb'_append_extractLsb'_eq_extractLsb' (show 68 = 64 + 4 from rfl),
    BitVec.extractLsb'_append_extractLsb'_eq_extractLsb' (show 64 = 32 + 32 from rfl),
    BitVec.extractLsb'_append_extractLsb'_eq_extractLsb' (show 32 = 0 + 32 from rfl)]
  exact BitVec.extractLsb'_eq_self

/-- A command word is its two fields, no bit left over (rule R102). -/
theorem cmdWord_fields (w : CmdWord) : cmdWord (cmdOp w) (cmdArg w) = w := by
  unfold cmdWord cmdOp cmdArg
  rw [BitVec.extractLsb'_append_extractLsb'_eq_extractLsb' (show 32 = 0 + 32 from rfl)]
  exact BitVec.extractLsb'_eq_self

/-- A register id that selects a register is that register's id: the other way round from `RegId.ofCode_code`. -/
theorem RegId.code_of_ofCode {n : Nibble} {r : RegId} (h : RegId.ofCode n = some r) : r.code = n := by
  have all : ∀ n : Nibble, ∀ r ∈ RegId.ofCode n, r.code = n := by decide
  exact all n r h

/-- The ids 0 to 0xB are those of the twelve registers (rule R104). -/
theorem RegId.exists_code {n : Nibble} (h : n.toNat ≤ 0xB) : ∃ r : RegId, r.code = n := by
  have all : ∀ n : Nibble, n.toNat ≤ 0xB → (RegId.ofCode n).isSome = true := by decide
  obtain ⟨r, hr⟩ := Option.isSome_iff_exists.mp (all n h)
  exact ⟨r, RegId.code_of_ofCode hr⟩

theorem RegId.code_le (r : RegId) : r.code.toNat ≤ 0xB := by cases r <;> decide

theorem RegId.code_eq_timCnt_iff (r : RegId) : r.code = 0x9#4 ↔ r = .timCnt := by cases r <;> decide

/-! What the operand decoder of each micro-op row accepts: the fields of the encoding of a well-formed instruction
(rules R103, R107). -/

section

variable {reg : Nibble} {a b : Word} {i : Instr}

theorem decodeRmw_ok (h : decodeRmw reg a b = .ok i) :
    i.wf = true ∧ encode i = .uop (uopWord opcRmw reg a b) := by
  unfold decodeRmw at h
  split at h
  next => cases h
  next r hr =>
    split_ifs at h with hcnt hmask
    cases h
    exact ⟨by simp [Instr.wf, hcnt, hmask], by rw [encode, RegId.code_of_ofCode hr]⟩

theorem decodeWr_ok (h : decodeWr reg a b = .ok i) :
    i.wf = true ∧ encode i = .uop (uopWord opcWr reg a b) := by
  unfold decodeWr at h
  split at h
  next => cases h
  next r hr =>
    split_ifs at h with hcnt ha
    cases h
    exact ⟨by simp [Instr.wf, hcnt], by rw [encode, RegId.code_of_ofCode hr, ha]⟩

theorem decodePollEq_ok (h : decodePollEq reg a b = .ok i) :
    i.wf = true ∧ encode i = .uop (uopWord opcPollEq reg a b) := by
  unfold decodePollEq at h
  split at h
  next => cases h
  next r hr =>
    split_ifs at h with hmask
    cases h
    exact ⟨by simp [Instr.wf, hmask], by rw [encode, RegId.code_of_ofCode hr]⟩

theorem decodePollGe_ok (h : decodePollGe reg a b = .ok i) :
    i.wf = true ∧ encode i = .uop (uopWord opcPollGe reg a b) := by
  unfold decodePollGe at h
  split at h
  next => cases h
  next r hr =>
    split_ifs at h with hcnt hab
    cases h
    exact ⟨by simp [Instr.wf, hcnt], by rw [encode, RegId.code_of_ofCode hr, hab.1, hab.2]⟩

theorem decodeEnd_ok (h : decodeEnd reg a b = .ok i) :
    i.wf = true ∧ encode i = .uop (uopWord opcEnd reg a b) := by
  unfold decodeEnd at h
  split_ifs at h with hzero
  obtain ⟨rfl, rfl, rfl⟩ := hzero
  cases h
  exact ⟨rfl, rfl⟩

end

/-- What encodes to a micro-op word is a micro-op. -/
theorem Instr.isMicroOp_of_encode {i : Instr} {w : UopWord} (he : encode i = .uop w) : i.isMicroOp = true := by
  cases i <;> simp_all [encode, Instr.isMicroOp]

/-- The micro-op decoder and the encoder say the same of every word: a word decodes to the well-formed instruction it
encodes, and to nothing else (rules R101 to R108). -/
theorem decodeMicroOp_eq_ok_iff {w : UopWord} {i : Instr} :
    decodeMicroOp w = .ok i ↔ i.wf = true ∧ encode i = .uop w := by
  constructor
  · intro h
    rw [← uopWord_fields w]
    unfold decodeMicroOp at h
    split_ifs at h with hrmw hwr hpollEq hpollGe hend
    · rw [hrmw]; exact decodeRmw_ok h
    · rw [hwr]; exact decodeWr_ok h
    · rw [hpollEq]; exact decodePollEq_ok h
    · rw [hpollGe]; exact decodePollGe_ok h
    · rw [hend]; exact decodeEnd_ok h
  · rintro ⟨hwf, he⟩
    have hbits : uopBits i = w := by simp only [uopBits, he]
    exact hbits ▸ decodeMicroOp_uopBits hwf (Instr.isMicroOp_of_encode he)

/-- The same of the command decoder, for which every argument is well formed (rules R102, R105, R108). -/
theorem decodeCommand_eq_ok_iff {w : CmdWord} {i : Instr} :
    decodeCommand w = .ok i ↔ i.wf = true ∧ encode i = .cmd w := by
  constructor
  · intro h
    rw [← cmdWord_fields w]
    unfold decodeCommand at h
    split_ifs at h with hinit hdelay hcpuf
    · cases h; exact ⟨rfl, by rw [hinit, encode]⟩
    · cases h; exact ⟨rfl, by rw [hdelay, encode]⟩
    · cases h; exact ⟨rfl, by rw [hcpuf, encode]⟩
  · rintro ⟨-, he⟩
    cases i with
    | init arg => cases he; simp [decodeCommand, cmdOp_cmdWord, cmdArg_cmdWord]
    | delay arg => cases he; simp [decodeCommand, cmdOp_cmdWord, cmdArg_cmdWord, opInit, opDelay]
    | cpuf arg => cases he; simp [decodeCommand, cmdOp_cmdWord, cmdArg_cmdWord, opInit, opDelay, opCpuf]
    | rmw _ _ _ => cases he
    | wr _ _ => cases he
    | pollEq _ _ _ => cases he
    | pollGe _ => cases he
    | endProg => cases he

/-- Decoding and encoding are inverse between the words that decode and the well-formed instructions. -/
theorem decode_eq_ok_iff {w : InstrWord} {i : Instr} : decode w = .ok i ↔ i.wf = true ∧ encode i = w := by
  cases w with
  | uop w => exact decodeMicroOp_eq_ok_iff
  | cmd w => exact decodeCommand_eq_ok_iff

/-- Settles O2: one direction of the correspondence. -/
theorem decodeOfEncode : Obligations.DecodeOfEncode := fun _ hwf => decode_eq_ok_iff.mpr ⟨hwf, rfl⟩

/-- Settles O3: the other direction. -/
theorem encodeOfDecode : Obligations.EncodeOfDecode := fun _ _ h => decode_eq_ok_iff.mp h

/-- Settles O1: each word, field by field, is the encoding of the instruction it stands for, and decodes to it. -/
theorem wordsDecodeAsWritten : Obligations.WordsDecodeAsWritten :=
  ⟨decodeOfEncode (.rmw .flashAcr 0x0000070F#32 0x00000703#32) (by decide),
    decodeOfEncode (.wr .vtor 0x20000000#32) (by decide),
    decodeOfEncode (.pollEq .rccCr 0x00020000#32 0x00020000#32) (by decide),
    decodeOfEncode (.pollGe .timCnt) (by decide),
    decodeOfEncode .endProg rfl,
    decodeOfEncode (.init 0#32) rfl,
    decodeOfEncode (.delay 0xFFFFFFFF#32) rfl,
    decodeOfEncode (.cpuf 0x12345678#32) rfl⟩

/-! ## Legality of micro-op words -/

/-- The word of a well-formed micro-op meets rule R107. -/
theorem uopWordLegal_of_encode {w : UopWord} {i : Instr} (hwf : i.wf = true) (he : encode i = .uop w) :
    UopWordLegal w := by
  cases i with
  | rmw r a b =>
    cases he
    simp only [Instr.wf, Bool.and_eq_true, decide_eq_true_eq] at hwf
    simp [UopWordLegal, uopOpc_uopWord, uopReg_uopWord, uopA_uopWord, uopB_uopWord, opcRmw, r.code_le,
      r.code_eq_timCnt_iff, hwf]
  | wr r b =>
    cases he
    simp only [Instr.wf, decide_eq_true_eq] at hwf
    simp [UopWordLegal, uopOpc_uopWord, uopReg_uopWord, uopA_uopWord, uopB_uopWord, opcWr, r.code_le,
      r.code_eq_timCnt_iff, hwf]
  | pollEq r a b =>
    cases he
    simp only [Instr.wf, decide_eq_true_eq] at hwf
    simp [UopWordLegal, uopOpc_uopWord, uopReg_uopWord, uopA_uopWord, uopB_uopWord, opcPollEq, r.code_le, hwf]
  | pollGe r =>
    obtain rfl : r = .timCnt := by simpa [Instr.wf] using hwf
    cases he; unfold UopWordLegal; decide
  | endProg => cases he; unfold UopWordLegal; decide
  | init _ => cases he
  | delay _ => cases he
  | cpuf _ => cases he

/-- A word that meets rule R107 is the word of a well-formed micro-op, the one its opcode names. -/
theorem exists_encode_of_uopWordLegal {w : UopWord} (h : UopWordLegal w) :
    ∃ i : Instr, i.wf = true ∧ encode i = .uop w := by
  obtain ⟨hopc, hreg, hmask, hwr, hge, hend, hcnt, hgeReg⟩ := h
  have hreg' (hne : uopOpc w ≠ 0xF#4) : ∃ r : RegId, r.code = uopReg w := RegId.exists_code (hreg hne)
  rw [← uopWord_fields w]
  rcases hopc with ho | ho | ho | ho | ho
  · obtain ⟨r, hr⟩ := hreg' (by simp [ho])
    have hr9 : r ≠ .timCnt := fun h9 => hcnt (.inl ho) (hr ▸ r.code_eq_timCnt_iff.mpr h9)
    exact ⟨.rmw r (uopA w) (uopB w), by simp [Instr.wf, hr9, hmask (.inl ho)], by rw [encode, hr, ho, opcRmw]⟩
  · obtain ⟨r, hr⟩ := hreg' (by simp [ho])
    have hr9 : r ≠ .timCnt := fun h9 => hcnt (.inr ho) (hr ▸ r.code_eq_timCnt_iff.mpr h9)
    exact ⟨.wr r (uopB w), by simp [Instr.wf, hr9], by rw [encode, hr, ho, hwr ho, opcWr]⟩
  · obtain ⟨r, hr⟩ := hreg' (by simp [ho])
    exact ⟨.pollEq r (uopA w) (uopB w), by simp [Instr.wf, hmask (.inr ho)], by rw [encode, hr, ho, opcPollEq]⟩
  · obtain ⟨ha, hb⟩ := hge ho
    exact ⟨.pollGe .timCnt, rfl, by rw [encode, ho, hgeReg ho, ha, hb]; rfl⟩
  · obtain ⟨hr, ha, hb⟩ := hend ho
    exact ⟨.endProg, rfl, by rw [encode, ho, hr, ha, hb, opcEnd]⟩

/-- A micro-op word decodes exactly when it meets rule R107. -/
theorem decodeMicroOp_ok_iff_legal (w : UopWord) : (∃ i, decodeMicroOp w = .ok i) ↔ UopWordLegal w := by
  simp only [decodeMicroOp_eq_ok_iff]
  exact ⟨fun ⟨_, hwf, he⟩ => uopWordLegal_of_encode hwf he, exists_encode_of_uopWordLegal⟩

/-- What a laid out program holds is the words of its lines. -/
theorem mem_placeProgram {p : Nat × UopWord} {is : List Instr} {start : Nat} (h : p ∈ placeProgram start is) :
    ∃ i ∈ is, p.2 = uopBits i := by
  induction is generalizing start with
  | nil => cases h
  | cons i is ih =>
    rcases List.mem_cons.mp h with rfl | h
    · exact ⟨i, List.mem_cons_self, rfl⟩
    · obtain ⟨j, hj, hp⟩ := ih h
      exact ⟨j, List.mem_cons_of_mem i hj, hp⟩

/-- Every listed word of a configuration's ROM is the word of a line of one of the two programs. -/
theorem Config.mem_rom {c : Config} {p : Nat × UopWord} (h : p ∈ c.rom) :
    ∃ i ∈ c.initProgram ++ delayProgram, p.2 = uopBits i := by
  have hp : p ∈ placeProgram c.initEntry.toNat c.initProgram ∨ p ∈ placeProgram c.delayEntry.toNat delayProgram := by
    unfold Config.rom at h
    split at h
    · exact List.mem_append.mp h
    · exact (List.mem_append.mp h).symm
  rcases hp with hp | hp
  · obtain ⟨i, hi, he⟩ := mem_placeProgram hp
    exact ⟨i, List.mem_append_left _ hi, he⟩
  · obtain ⟨i, hi, he⟩ := mem_placeProgram hp
    exact ⟨i, List.mem_append_right _ hi, he⟩

/-- Every listed word of every configuration's ROM meets rule R107, for every line of its programs is well formed. -/
theorem Config.rom_legal (c : Config) : ∀ p ∈ c.rom, UopWordLegal p.2 := by
  intro p hp
  obtain ⟨i, hi, he⟩ := Config.mem_rom hp
  have hdelay : ∀ i ∈ delayProgram, i.wf = true ∧ i.isMicroOp = true := by decide
  obtain ⟨hwf, hm⟩ := (List.mem_append.mp hi).elim (c.initProgram_wf i) (hdelay i)
  rw [he]
  exact (decodeMicroOp_ok_iff_legal _).mp ⟨i, decodeMicroOp_uopBits hwf hm⟩

/-- Settles O4: the decoder accepts the words of well-formed instructions, which are the words that meet rule R107. -/
theorem microOpWordLegality : Obligations.MicroOpWordLegality := ⟨decodeMicroOp_ok_iff_legal, Config.default.rom_legal⟩

/-- Settles O22: each micro-op that has an operand rule asks it first; END and the commands have none. -/
theorem illFormedOperandsRefused : Obligations.IllFormedOperandsRefused := by
  intro i s h
  have hn : ¬ i.wf = true := ne_true_of_eq_false h
  cases i with
  | rmw _ _ _ => exact if_neg hn
  | wr _ _ => exact if_neg hn
  | pollEq _ _ _ => exact if_neg hn
  | pollGe _ => exact if_neg hn
  | endProg => cases h
  | init _ => cases h
  | delay _ => cases h
  | cpuf _ => cases h

end Sys2Proof
end

section

namespace Sys2Proof

/-- The bits a write may reach are bits the register has (rules R38, R39, R40, R46). -/
theorem Config.rwMask_within_impl (c : Config) (r : RegId) : c.rwMask r &&& ~~~c.implMask r = 0 := by
  have all (m : Word) : m &&& ~~~BitVec.allOnes 32 = 0 := by rw [BitVec.not_allOnes]; exact BitVec.and_zero
  cases r with
  | timEgr => exact BitVec.zero_and
  | timCnt => exact BitVec.and_not_self _
  | timPsc => exact BitVec.and_not_self _
  | _ => exact all _

/-- Being within a mask is transitive. -/
theorem within_trans {x y z : Word} (hxy : x &&& ~~~y = 0) (hyz : y &&& ~~~z = 0) : x &&& ~~~z = 0 := by
  ext i hi
  have bxy := congrArg (fun w => w.getLsbD i) hxy
  have byz := congrArg (fun w => w.getLsbD i) hyz
  simp [hi] at bxy byz ⊢
  grind

/-- Masked replacement through a register: `g` is the word held, `n` the bits the register has, `m` those a write
reaches. If the mask `a` lies within `m`, storing the replaced read value replaces the masked bits of what is read. -/
theorem replace_reads_back {g n m a b : Word} (hmn : m &&& ~~~n = 0) (ham : a &&& ~~~m = 0)
    (hba : b &&& ~~~a = 0) :
    ((((g &&& n) &&& ~~~a) ||| b) &&& m ||| (g &&& ~~~m)) &&& n = ((g &&& n) &&& ~~~a) ||| b := by
  ext i hi
  have bmn := congrArg (fun w => w.getLsbD i) hmn
  have bam := congrArg (fun w => w.getLsbD i) ham
  have bba := congrArg (fun w => w.getLsbD i) hba
  simp [hi] at bmn bam bba ⊢
  grind

end Sys2Proof

namespace Sys2Proof.Machine

/-! ## What a register write does -/

/-- What a write reaches now are bits the register has. -/
theorem State.rwNow_within_impl (s : State) (r : RegId) : s.rwNow r &&& ~~~s.cfg.implMask r = 0 :=
  within_trans (s.rwNow_within r) (s.cfg.rwMask_within_impl r)

/-- A register that stores holds the stored word after a write to it. -/
theorem State.regWrite_get_same (s : State) {r : RegId} (v : Word) (hr : r ≠ .timEgr) :
    (s.regWrite r v).regs.get r = s.storedWord r v := by
  rw [s.regWrite_eq_store r v hr]
  exact Regs.get_set_same _ _ _ hr

/-- `RegWrite` has the effect the rules give it, for every register (rules R46, R67, R79). -/
theorem State.regWrite_effect (s : State) (r : RegId) (v : Word) : WriteEffect s r v (s.regWrite r v) := by
  refine ⟨fun hr => ?_, ?_, ?_⟩
  · refine ⟨s.regWrite_hidden r v hr, fun r' hne => s.regWrite_get_ne r r' v hr hne.symm, fun hpll => ?_, ?_⟩
    · have hrw : s.rwNow r = s.cfg.rwMask r := if_neg hpll
      rw [s.regWrite_get_same v hr, ← hrw]
      exact (s.storedWord_bits r v).1
    · rw [s.regWrite_get_same v hr]
      exact s.storedWord_keeps r v
  · rintro rfl hu
    rw [s.regWrite_ug v hu]
    exact ⟨rfl, rfl⟩
  · rintro rfl hu
    rw [s.regWrite_noUg v hu]
    exact ⟨rfl, rfl⟩

@[simp] theorem State.writeReg_seq (s : State) (r : RegId) (v : Word) : (s.writeReg r v).seq = s.seq := by
  simp [State.writeReg]

/-- A register write reported in the trace, with the sequencer's state `q` after it: all that RMW's write phase and WR
do. -/
theorem State.writeReg_setSeq_effect (s : State) (r : RegId) (v : Word) (q : Seq) :
    ((s.writeReg r v).setSeq q).seq = q ∧ ((s.writeReg r v).setSeq q).events = .wr r v :: s.events ∧
    MicroOpFrame s ((s.writeReg r v).setSeq q) ∧ WriteEffect s r v ((s.writeReg r v).setSeq q) :=
  ⟨rfl, by simp [State.writeReg], by simp [MicroOpFrame, State.writeReg], s.regWrite_effect r v⟩

/-- What a register that stores reads after such a write. -/
theorem State.regRead_writeReg_setSeq (s : State) {r : RegId} {v : Word} {q : Seq} (hr : r ≠ .timEgr) :
    ((s.writeReg r v).setSeq q).regRead r = s.storedWord r v &&& s.cfg.implMask r := by
  simp [State.regRead, State.writeReg, s.regWrite_get_same v hr]

/-! ## The micro-ops, case by case -/

/-- Below address 31 `upc` is incremented (rule R23). -/
theorem State.nextUpc_below {s : State} (h : s.seq.upc ≠ 31#5) :
    s.nextUpc = .next (s.setSeq { s.seq with upc := s.seq.upc + 1#5 }) := if_neg h

/-- At address 31 the increment is refused, in the name of the micro-op's own state `s`, whose `upc` its access has not
moved (rule R136). -/
theorem State.nextUpc_refused {s t : State} (h31 : s.seq.upc = 31#5) (ht : t.seq.upc = s.seq.upc) :
    t.nextUpc = s.refuseIllegal := by
  rw [State.nextUpc, if_pos (ht.trans h31), State.refuseIllegal, h31]

section

variable {s : State} {r : RegId} {a b : Word}

theorem exec_rmw_read (hwf : Instr.wf (.rmw r a b) = true) (hp : s.seq.phase = .read) :
    exec (.rmw r a b) s = .next ((s.readReg r).setPhase .write) := by
  rw [exec, execRmw, if_pos hwf, hp]

theorem exec_rmw_write (hwf : Instr.wf (.rmw r a b) = true) (hp : s.seq.phase = .write) :
    exec (.rmw r a b) s = ((s.writeReg r ((s.seq.rd &&& ~~~a) ||| b)).setPhase .read).nextUpc := by
  rw [exec, execRmw, if_pos hwf, hp]

theorem exec_wr (hwf : Instr.wf (.wr r b) = true) : exec (.wr r b) s = (s.writeReg r b).nextUpc := if_pos hwf

theorem exec_pollEq_met (hwf : Instr.wf (.pollEq r a b) = true) (h : s.regRead r &&& a = b) :
    exec (.pollEq r a b) s = ((s.readReg r).setPollcnt 0).nextUpc := by
  rw [exec, execPollEq, if_pos hwf, if_pos h]

theorem exec_pollEq_unmet (hwf : Instr.wf (.pollEq r a b) = true) (h : s.regRead r &&& a ≠ b) :
    exec (.pollEq r a b) s = .next (s.readReg r).pollAgain := by
  rw [exec, execPollEq, if_pos hwf, if_neg h]

theorem exec_pollGe_met (h : s.seq.us ≤ s.regRead .timCnt) :
    exec (.pollGe .timCnt) s = (s.readReg .timCnt).nextUpc := if_pos h

theorem exec_pollGe_unmet (h : ¬ s.seq.us ≤ s.regRead .timCnt) :
    exec (.pollGe .timCnt) s = .next (s.readReg .timCnt) := if_neg h

/-- The write phase below address 31: the replaced word is written, and the next micro-op is in its first phase. -/
theorem exec_rmw_write_below (hwf : Instr.wf (.rmw r a b) = true) (hp : s.seq.phase = .write)
    (hu : s.seq.upc ≠ 31#5) :
    exec (.rmw r a b) s = .next ((s.writeReg r ((s.seq.rd &&& ~~~a) ||| b)).setSeq
      { s.seq with phase := .read, upc := s.seq.upc + 1#5 }) := by
  rw [exec_rmw_write hwf hp, State.nextUpc_below (by simpa using hu)]
  simp [State.setPhase, State.setSeq]

/-- WR below address 31. -/
theorem exec_wr_below (hwf : Instr.wf (.wr r b) = true) (hu : s.seq.upc ≠ 31#5) :
    exec (.wr r b) s = .next ((s.writeReg r b).setSeq { s.seq with upc := s.seq.upc + 1#5 }) := by
  rw [exec_wr hwf, State.nextUpc_below (by simpa using hu), State.writeReg_seq]

end

/-- Settles O5: the phase selects the read or the write, and the write is `RegWrite`'s. -/
theorem rmwReadsThenWrites : Obligations.RmwReadsThenWrites :=
  fun r _ _ s hwf =>
    ⟨fun hp => exec_rmw_read hwf hp,
      fun hp hu => ⟨_, exec_rmw_write_below hwf hp hu, s.writeReg_setSeq_effect r _ _⟩⟩

/-- Settles O7: the one step is the write. -/
theorem wrWritesWholeWord : Obligations.WrWritesWholeWord :=
  fun r _ s hwf hu => ⟨_, exec_wr_below hwf hu, s.writeReg_setSeq_effect r _ _⟩

/-- Settles O6: the read phase leaves the registers, so the write stores the replaced word over the word it replaces. -/
theorem rmwReplacesMaskedBits : Obligations.RmwReplacesMaskedBits := by
  intro r a b s hwf hr ham hp hu
  have hba : b &&& ~~~a = 0 := by
    simp only [Instr.wf, Bool.and_eq_true, decide_eq_true_eq] at hwf
    exact hwf.2
  refine ⟨_, _, exec_rmw_read hwf hp, exec_rmw_write_below hwf rfl hu, ?_, rfl⟩
  rw [State.regRead_writeReg_setSeq _ hr]
  exact replace_reads_back (s.rwNow_within_impl r) ham hba

/-! ## Polls -/

/-- The limit is reached when there is one and it is not above the count (rule R243). -/
theorem limitReached_iff (limit : Option Nat) (n : Nat) :
    limitReached limit n = true ↔ ∃ l, limit = some l ∧ l ≤ n := by
  cases limit <;> simp [limitReached]

/-- Below the limit an unsatisfied poll is only counted. -/
theorem State.pollAgain_below (s : State) (h : ∀ l, s.cfg.pollLimit = some l → s.seq.pollcnt + 1 < l) :
    s.pollAgain = s.setPollcnt (s.seq.pollcnt + 1) := by
  refine if_neg fun hl => ?_
  obtain ⟨l, hs, hle⟩ := (limitReached_iff _ _).mp hl
  exact absurd (h l hs) (Nat.not_lt.mpr hle)

/-- At the limit an unsatisfied poll is counted and enters FAULT mode (rules R243, R244). -/
theorem State.pollAgain_limit (s : State) {l : Nat} (hs : s.cfg.pollLimit = some l) (h : l ≤ s.seq.pollcnt + 1) :
    s.pollAgain = (s.setPollcnt (s.seq.pollcnt + 1)).enterFault :=
  if_pos ((limitReached_iff _ _).mpr ⟨l, hs, h⟩)

/-- Settles O9: the read is satisfied, or it is counted below the limit or at it. -/
theorem pollEqSamplesUntilEqual : Obligations.PollEqSamplesUntilEqual := by
  intro r a b s hwf
  refine ⟨fun hmet hu => ?_, fun hunmet hbelow => ?_, fun hunmet l hl hle => ?_⟩
  · exact (exec_pollEq_met hwf hmet).trans (State.nextUpc_below hu)
  · rw [exec_pollEq_unmet hwf hunmet, (s.readReg r).pollAgain_below hbelow]
    rfl
  · rw [exec_pollEq_unmet hwf hunmet, (s.readReg r).pollAgain_limit hl hle]
    rfl

/-- Settles O10: the model compares words as the numbers they are. -/
theorem pollGeComparesUnsigned : Obligations.PollGeComparesUnsigned := by
  intro s
  refine ⟨fun hge hu => ?_, fun hlt => ?_⟩
  · exact (exec_pollGe_met (BitVec.le_def.mpr hge)).trans (State.nextUpc_below hu)
  · exact exec_pollGe_unmet fun hge => Nat.not_le.mpr hlt (BitVec.le_def.mp hge)

/-- Settles O11: what END does to `init_done` is the statement's choice by the latched command. -/
theorem endReturnsToIdle : Obligations.EndReturnsToIdle := by
  intro s
  have hinit : (s.seq.initDone || decide (s.seq.cmd = opInit)) =
      if s.seq.cmd = 0x1#4 then true else s.seq.initDone := by
    by_cases hc : s.seq.cmd = 0x1#4 <;> simp [hc, opInit]
  rw [exec, execEndProg, hinit]
  rfl

/-- One move of SEQ at an unsatisfied POLLEQ without a limit: a read, and one iteration more (rule R133). -/
theorem seqTurn_pollEq_unmet {s : State} {r : RegId} {a b : Word} (hr : s.seqReady = true)
    (hd : decodeMicroOp s.fetch = .ok (.pollEq r a b)) (h : s.regRead r &&& a ≠ b) (hl : s.cfg.pollLimit = none) :
    runTurn .seq s = .next ((s.readReg r).setPollcnt (s.seq.pollcnt + 1)) := by
  have hwf : Instr.wf (.pollEq r a b) = true := (decodeMicroOp_eq_ok_iff.mp hd).1
  rw [runTurn, seqTurn_decoded s _ hr hd, exec_pollEq_unmet hwf h, (s.readReg r).pollAgain_noLimit hl]
  rfl

/-- Settles O35: by induction on the number of steps; after one step SEQ stands before the same poll of the same
register. -/
theorem unansweredPollHangs : Obligations.UnansweredPollHangs := by
  intro n
  induction n with
  | zero => exact fun s _ _ _ hr _ _ _ => ⟨s, rfl, rfl, State.busy_of_seqReady hr, rfl, rfl⟩
  | succ n ih =>
    intro s r a b hr hd h hl
    obtain ⟨t, ht, hupc, hbusy, hregs, hev⟩ :=
      ih ((s.readReg r).setPollcnt (s.seq.pollcnt + 1)) r a b hr hd h hl
    refine ⟨t, ?_, hupc, hbusy, hregs, ?_⟩
    · rw [turns, seqTurn_pollEq_unmet hr hd h hl]
      exact ht
    · rw [hev, List.replicate_succ', List.append_assoc]
      rfl

/-! ## SEQ's move as a step -/

/-- When the configuration is well formed, the state is safe and it is SEQ's move, the step is that move from the begun
state. -/
theorem step_seq {s : State} (hwf : s.cfg.wf = true) (hv : s.violation = none) (ht : s.nextTurn = .seq) :
    step s = s.begun.seqTurn := by
  have hturn : s.endPulse.nextTurn = .seq := (s.nextTurn_endPulse (by simp [ht])).trans ht
  have hsched : s.endPulse.sched = s.sched := by simp [s.endPulse_frame]
  rw [step, if_pos hwf, hv, State.begun, ← hsched]
  exact congrArg (runTurn · _) hturn

/-- The step of a decoded micro-op is its meaning in the begun state (rule R130). -/
theorem step_seq_decoded {s : State} {i : Instr} (hwf : s.cfg.wf = true) (hv : s.violation = none)
    (ht : s.nextTurn = .seq) (hr : s.seqReady = true) (hd : decodeMicroOp s.fetch = .ok i) :
    step s = exec i s.begun := by
  rw [step_seq hwf hv ht]
  exact seqTurn_decoded s.begun i (by simpa using hr) (by simpa using hd)

/-- Settles O19: the begun state is the statement's. -/
theorem stepRunsDecodedMicroOp : Obligations.StepRunsDecodedMicroOp :=
  fun _ _ hwf hv ht hr hd => step_seq_decoded hwf hv ht hr hd

/-- A well-formed micro-op that would increment `upc` from 31 is refused (rule R136). -/
theorem exec_refused_at_top {i : Instr} {s : State} (hwf : i.wf = true) (h31 : s.seq.upc = 31#5)
    (h : WouldAdvance i s) : exec i s = s.refuseIllegal := by
  cases i with
  | rmw r a b => exact (exec_rmw_write hwf h).trans (State.nextUpc_refused h31 (by simp))
  | wr r b => exact (exec_wr hwf).trans (State.nextUpc_refused h31 (by simp))
  | pollEq r a b => exact (exec_pollEq_met hwf h).trans (State.nextUpc_refused h31 rfl)
  | pollGe r =>
    obtain rfl : r = .timCnt := by simpa [Instr.wf] using hwf
    exact (exec_pollGe_met h).trans (State.nextUpc_refused h31 rfl)
  | endProg => exact h.elim
  | init _ => exact h.elim
  | delay _ => exact h.elim
  | cpuf _ => exact h.elim

/-- The end of a pulse does not decide whether a micro-op advances. -/
theorem wouldAdvance_begun (i : Instr) (s : State) : WouldAdvance i s.begun ↔ WouldAdvance i s := by
  cases i <;> simp [WouldAdvance, State.regRead]

/-- A word that decodes to nothing is refused when SEQ has the step (rule R136). -/
theorem seqTurn_undecoded {s : State} (hr : s.seqReady = true) (h : ∀ i, decodeMicroOp s.fetch ≠ .ok i) :
    s.seqTurn = s.refuseIllegal := by
  rw [State.seqTurn, if_pos hr]
  cases hd : decodeMicroOp s.fetch with
  | ok i => exact absurd hd (h i)
  | error e => rfl

/-- Settles O21: SEQ's move refuses the illegal word, and the micro-op's own advance refuses the increment. -/
theorem illegalMicroOpRefused : Obligations.IllegalMicroOpRefused := by
  intro s hwf hv ht hr
  have hrefuse : s.begun.refuseIllegal = .refused (.illegalMicroOp s.seq.upc) := by simp [State.refuseIllegal]
  refine ⟨fun h => ?_, fun i hd h31 hadv => ?_⟩
  · rw [step_seq hwf hv ht, seqTurn_undecoded (by simpa using hr) (by simpa using h), hrefuse]
  · have hi : i.wf = true := (decodeMicroOp_eq_ok_iff.mp hd).1
    rw [step_seq_decoded hwf hv ht hr hd, ← hrefuse]
    exact exec_refused_at_top hi (by simpa using h31) ((wouldAdvance_begun i s).mpr hadv)

end Sys2Proof.Machine
end

section

namespace Sys2Proof

section Lookup

variable {f f₁ f₂ ws w₁ w₂ : Nat} {pre rows : List (Nat × Nat)} {c : Config}

/-- Rule R141's lookup is the library's search for the first row whose bound is at least `f`. -/
theorem wsLookup_eq_find? (f : Nat) (rows : List (Nat × Nat)) :
    wsLookup f rows = (rows.find? (f ≤ ·.1)).map Prod.snd := by
  induction rows with
  | nil => rfl
  | cons row rows ih =>
    by_cases h : f ≤ row.1
    · simp [wsLookup, h]
    · simp [wsLookup, h, ih]

/-- A count is found exactly at the first row whose bound suffices (rule R141). -/
theorem wsLookup_eq_some_iff :
    wsLookup f rows = some ws ↔
      ∃ pre bound post, rows = pre ++ (bound, ws) :: post ∧ f ≤ bound ∧ ∀ row ∈ pre, row.1 < f := by
  rw [wsLookup_eq_find?, Option.map_eq_some_iff]
  simp only [List.find?_eq_some_iff_append, Bool.not_eq_true', decide_eq_true_eq, decide_eq_false_iff_not, Nat.not_le]
  constructor
  · rintro ⟨⟨bound, _⟩, ⟨hbound, pre, post, hrows, hpre⟩, rfl⟩
    exact ⟨pre, bound, post, hrows, hbound, hpre⟩
  · rintro ⟨pre, bound, post, hrows, hbound, hpre⟩
    exact ⟨(bound, ws), ⟨hbound, pre, post, hrows, hpre⟩, rfl⟩

/-- Nothing is found exactly when every bound is too low (rule R147). -/
theorem wsLookup_eq_none_iff : wsLookup f rows = none ↔ ∀ row ∈ rows, row.1 < f := by
  simp [wsLookup_eq_find?]

/-- The lookup passes over rows whose bounds are too low. -/
theorem wsLookup_append (hpre : ∀ row ∈ pre, row.1 < f) : wsLookup f (pre ++ rows) = wsLookup f rows := by
  have hnone : pre.find? (f ≤ ·.1) = none := by simpa using hpre
  rw [wsLookup_eq_find?, wsLookup_eq_find?, List.find?_append, hnone, Option.none_or]

/-- A count that is found stands in the table. -/
theorem mem_of_wsLookup_eq_some (h : wsLookup f rows = some ws) : ws ∈ rows.map Prod.snd := by
  obtain ⟨pre, bound, post, rfl, -, -⟩ := wsLookup_eq_some_iff.mp h
  simp

/-- Where the counts do not fall, a higher frequency finds no smaller count: its search passes over every row before
the one found for the lower frequency, so what it finds stands there or later (rule R141). -/
theorem wsLookup_mono (hrows : (rows.map Prod.snd).Pairwise (· ≤ ·)) (hf : f₁ ≤ f₂)
    (h₁ : wsLookup f₁ rows = some w₁) (h₂ : wsLookup f₂ rows = some w₂) : w₁ ≤ w₂ := by
  obtain ⟨pre, bound, post, rfl, -, hpre⟩ := wsLookup_eq_some_iff.mp h₁
  rw [wsLookup_append fun row hrow => (hpre row hrow).trans_le hf] at h₂
  have hmem : w₂ = w₁ ∨ w₂ ∈ post.map Prod.snd := by simpa using mem_of_wsLookup_eq_some h₂
  rw [List.map_append, List.pairwise_append] at hrows
  obtain ⟨-, hfound, -⟩ := hrows
  have hpost : ∀ w ∈ post.map Prod.snd, w₁ ≤ w := fun _ => List.rel_of_pairwise_cons hfound
  exact hmem.elim Eq.ge (hpost w₂)

/-- `fwp` has the value the lookup finds, at positive frequencies only (rule R141). -/
theorem Config.fwp_eq_some_iff : c.fwp f = some ws ↔ 0 < f ∧ wsLookup f c.wsTable = some ws := by
  simp [Config.fwp, Nat.pos_iff_ne_zero]

/-- `fwp` has no value at 0 and where the lookup finds nothing (rule R147). -/
theorem Config.fwp_eq_none_iff : c.fwp f = none ↔ f = 0 ∨ wsLookup f c.wsTable = none := by
  simp [Config.fwp, or_iff_not_imp_left]

end Lookup

/-- Settles O45: the lookup's two equivalences at the configuration's table. -/
theorem fwpIsFirstSufficientRow : Obligations.FwpIsFirstSufficientRow := by
  intro c f ws
  rw [Config.fwp_eq_some_iff, Config.fwp_eq_none_iff, wsLookup_eq_some_iff, wsLookup_eq_none_iff]
  exact ⟨Iff.rfl, Iff.rfl⟩

/-- Settles O46: the lookup is monotone in the frequency, and the default table's counts are 0, 1, 2, 3. -/
theorem fwpMonotone : Obligations.FwpMonotone := by
  refine ⟨fun c f₁ f₂ w₁ w₂ hcounts hf h₁ h₂ => ?_, by decide⟩
  exact wsLookup_mono hcounts hf (Config.fwp_eq_some_iff.mp h₁).2 (Config.fwp_eq_some_iff.mp h₂).2

end Sys2Proof
end

section

namespace Sys2Proof

/-! ## Fields of combined words -/

section Fields

variable {k m : Nat} {f : BitField k} {g : BitField m} {a b w : Word}

theorem BitField.get_or (f : BitField k) (x y : Word) : f.get (x ||| y) = f.get x ||| f.get y :=
  BitVec.extractLsb'_or

/-- Putting a value into an empty word encodes it. -/
theorem BitField.put_zero (f : BitField k) (v : BitVec k) : f.put v 0 = f.enc v := by simp [BitField.put]

/-- A field reads the value encoded for it. -/
theorem BitField.get_enc (hf : f.fits = true) (v : BitVec k) : f.get (f.enc v) = v := by
  rw [← f.put_zero, f.get_put_same hf]

/-- A value encoded for one field reads 0 in a field apart from it. -/
theorem BitField.get_enc_apart (hf : f.fits = true) (h : f.mask &&& g.mask = 0) (v : BitVec m) :
    f.get (g.enc v) = 0 := by
  rw [← g.put_zero, f.get_put_apart g h hf]
  simp [BitField.get]

/-- Masked replacement leaves a field apart from the mask. -/
theorem BitField.get_replace_apart (hfa : a &&& f.mask = 0) (hba : b &&& ~~~a = 0) :
    f.get (w &&& ~~~a ||| b) = f.get w := by
  refine f.get_eq_of_unreached hfa ?_
  rw [BitVec.and_or_distrib_right, hba, BitVec.and_assoc, BitVec.and_self]
  exact BitVec.or_zero

/-- Masked replacement gives the masked bits the value's. -/
theorem replace_and_mask (hba : b &&& ~~~a = 0) : (w &&& ~~~a ||| b) &&& a = b := by
  ext i hi
  have hbit := congrArg (fun z => z.getLsbD i) hba
  simp [hi] at hbit ⊢
  grind

/-- Masked replacement gives a field within the mask the value's. -/
theorem BitField.get_replace_within (hfa : f.mask &&& ~~~a = 0) (hba : b &&& ~~~a = 0) :
    f.get (w &&& ~~~a ||| b) = f.get b := by
  refine f.get_eq_of_agree a _ _ hfa ?_
  have hb := replace_and_mask (w := 0) hba
  rw [show (0 : Word) &&& ~~~a = 0 from BitVec.zero_and, show (0 : Word) ||| b = b from BitVec.zero_or] at hb
  rw [replace_and_mask hba, hb]

end Fields

/-! ## The PLL's configuration -/

section Pll

variable {c : Config}

/-- The divisions of the PLL's chain are exact (rules R8, R160). -/
theorem Config.pll_exact (h : c.pllWf = true) :
    (c.pllM ≠ 0 ∧ c.fHse % c.pllM = 0) ∧ c.pllP ≠ 0 ∧ c.fVco % c.pllP = 0 := by
  simp only [Config.pllWf, Bool.and_eq_true, decide_eq_true_eq] at h
  simp only [h, and_self, ne_eq, not_false_eq_true]

theorem Config.fVco_mul (h : c.pllWf = true) : c.fVco * c.pllM = c.fHse * c.pllN := by
  obtain ⟨⟨-, hm⟩, -⟩ := Config.pll_exact h
  calc c.fHse / c.pllM * c.pllN * c.pllM = c.fHse / c.pllM * c.pllM * c.pllN := Nat.mul_right_comm _ _ _
    _ = c.fHse * c.pllN := by rw [Nat.div_mul_cancel (Nat.dvd_of_mod_eq_zero hm)]

theorem Config.fCore_mul (h : c.pllWf = true) : c.fCore * c.pllP = c.fVco := by
  obtain ⟨-, -, hp⟩ := Config.pll_exact h
  exact Nat.div_mul_cancel (Nat.dvd_of_mod_eq_zero hp)

end Pll

/-- Settles O43: both divisions are exact, and the ranges are rule R8's own. -/
theorem pllChainExact : Obligations.PllChainExact := by
  intro c hc
  obtain ⟨-, hpll, -⟩ := c.wf_parts hc
  refine ⟨by rw [Config.fCore_mul hpll, Config.fVco_mul hpll], Config.fVco_mul hpll, ?_⟩
  simp only [Config.pllWf, Bool.and_eq_true, decide_eq_true_eq] at hpll
  simp only [hpll, and_self]

section Pll

variable {c : Config}

/-- Each field that ROM address 3 writes reads its own part of the value: the fields lie inside `RCC_PLLCFGR` and apart
(rules R110, R153; log 27). -/
theorem Config.get_pllValue (h : c.bind.wf = true) :
    c.bind.pllsrc.get c.pllValue = 1#1 ∧ c.bind.pllm.get c.pllValue = BitVec.ofNat 6 c.pllM ∧
    c.bind.plln.get c.pllValue = BitVec.ofNat 9 c.pllN ∧
    c.bind.pllp.get c.pllValue = BitVec.ofNat 2 (c.pllP / 2 - 1) := by
  obtain ⟨-, hapart, -⟩ := c.bind.wf_apart h
  simp only [Bind.wf, Bool.and_eq_true] at h
  simp only [disjointMasks, List.all_cons, List.all_nil, Bool.and_eq_true, decide_eq_true_eq, and_true] at hapart
  obtain ⟨⟨hmn, hmp, hms, hmq⟩, ⟨hnp, hns, hnq⟩, ⟨hps, hpq⟩, hsq⟩ := hapart
  have apart {k m : Nat} {f : BitField k} {g : BitField m} (hf : f.fits = true) (hgf : g.mask &&& f.mask = 0)
      (v : BitVec m) : f.get (g.enc v) = 0 := BitField.get_enc_apart hf ((BitVec.and_comm _ _).trans hgf) v
  simp only [Config.pllValue, BitField.encNat, BitField.get_or, BitField.get_enc, BitField.get_enc_apart, apart, h,
    hmn, hmp, hms, hmq, hnp, hns, hnq, hps, hpq, hsq]
  simp

/-- The fields that ROM address 3 writes lie within its mask. -/
theorem Config.pllMask_fields (c : Config) :
    c.bind.pllsrc.mask &&& ~~~c.pllMask = 0 ∧ c.bind.pllm.mask &&& ~~~c.pllMask = 0 ∧
    c.bind.plln.mask &&& ~~~c.pllMask = 0 ∧ c.bind.pllp.mask &&& ~~~c.pllMask = 0 := by
  unfold Config.pllMask
  refine ⟨?_, ?_, ?_, ?_⟩ <;> (ext i hi; simp; grind)

/-- The codes of a well-formed configuration stand for its own parameters (rule R110). -/
theorem Config.codes_toNat (h : c.codesWf = true) :
    (BitVec.ofNat 6 c.pllM).toNat = c.pllM ∧ (BitVec.ofNat 9 c.pllN).toNat = c.pllN ∧
    pllpDiv (BitVec.ofNat 2 (c.pllP / 2 - 1)) = c.pllP := by
  simp only [Config.codesWf, Bool.and_eq_true, decide_eq_true_eq] at h
  obtain ⟨⟨⟨⟨⟨-, hm⟩, hn⟩, -⟩, hp⟩, -⟩ := h
  simp only [pllpDiv, BitVec.toNat_ofNat]
  omega

/-- A division without remainder has its exact quotient. -/
theorem quotient_exact {a b : Nat} (hb : b ≠ 0) (h : a % b = 0) : quotient a b = a / b := if_pos ⟨hb, h⟩

end Pll

end Sys2Proof

namespace Sys2Proof.Machine

/-- What `RCC_PLLCFGR` holds field by field once it is configured (rules R110, R165). -/
theorem State.pllConfigured_fields {s : State} (hb : s.cfg.bind.wf = true) (h : s.pllConfigured) :
    s.pllFromHse = true ∧ s.cfg.bind.pllm.get s.regs.rccPllcfgr = BitVec.ofNat 6 s.cfg.pllM ∧
    s.cfg.bind.plln.get s.regs.rccPllcfgr = BitVec.ofNat 9 s.cfg.pllN ∧
    s.cfg.bind.pllp.get s.regs.rccPllcfgr = BitVec.ofNat 2 (s.cfg.pllP / 2 - 1) := by
  obtain ⟨hsrc, hm, hn, hp⟩ := Config.get_pllValue hb
  obtain ⟨wsrc, wm, wn, wp⟩ := s.cfg.pllMask_fields
  have read {k : Nat} (f : BitField k) (hf : f.mask &&& ~~~s.cfg.pllMask = 0) :
      f.get s.regs.rccPllcfgr = f.get s.cfg.pllValue := by
    refine f.get_eq_of_agree s.cfg.pllMask _ _ hf ?_
    rw [← h, BitVec.and_assoc, BitVec.and_self]
  refine ⟨?_, (read _ wm).trans hm, (read _ wn).trans hn, (read _ wp).trans hp⟩
  simp [State.pllFromHse, isSet, read _ wsrc, hsrc]

/-- Settles O44: the fields stand for the configuration's parameters, and the divisions of its chain are exact. -/
theorem pllRunsAtProgrammedFrequency : Obligations.PllRunsAtProgrammedFrequency := by
  intro s hwf hpll
  obtain ⟨-, hchain, -, hb⟩ := s.cfg.wf_parts hwf
  obtain ⟨⟨hm, hmod⟩, hp, hpmod⟩ := Config.pll_exact hchain
  obtain ⟨hsrc, hfm, hfn, hfp⟩ := State.pllConfigured_fields hb hpll
  simp only [Config.wf, Bool.and_eq_true] at hwf
  obtain ⟨⟨-, hcodes⟩, -⟩ := hwf
  obtain ⟨hcm, hcn, hcp⟩ := Config.codes_toNat hcodes
  rw [State.fPll, State.fPllSource, if_pos hsrc, hfm, hfn, hfp, hcm, hcn, hcp, quotient_exact hm hmod]
  exact quotient_exact hp hpmod

end Sys2Proof.Machine
end

section

namespace Sys2Proof.Machine

/-! ## When a step faults -/

/-- An answer that is no fault. -/
def Faultless (x : Result) : Prop := ∀ f, x ≠ .fault f

theorem Faultless.next (s : State) : Faultless (.next s) := nofun

theorem Faultless.refused (r : Refusal) : Faultless (.refused r) := nofun

theorem Faultless.ite {p : Prop} [Decidable p] {x y : Result} (hx : Faultless x) (hy : Faultless y) :
    Faultless (if p then x else y) := by
  split
  · exact hx
  · exact hy

theorem State.nextUpc_faultless (s : State) : Faultless s.nextUpc := .ite (.refused _) (.next _)

theorem State.launch_faultless (s : State) (q : Seq) : Faultless (s.launch q) := .ite (.next _) (.refused _)

/-- No instruction's meaning is a fault. -/
theorem exec_faultless (i : Instr) (s : State) : Faultless (exec i s) := by
  cases i with
  | rmw r a b =>
    refine .ite ?_ (.refused _)
    cases s.seq.phase
    · exact .next _
    · exact State.nextUpc_faultless _
  | wr r b => exact .ite (State.nextUpc_faultless _) (.refused _)
  | pollEq r a b => exact .ite (.ite (State.nextUpc_faultless _) (.next _)) (.refused _)
  | pollGe r => exact .ite (.ite (State.nextUpc_faultless _) (.next _)) (.refused _)
  | endProg => exact .next _
  | init arg => exact .ite (.next _) (State.launch_faultless _ _)
  | delay arg => exact .ite (.next _) (State.launch_faultless _ _)
  | cpuf arg => exact .next _

theorem seqTurn_faultless (s : State) : Faultless s.seqTurn := by
  refine .ite ?_ (.next _)
  split
  · exact exec_faultless _ s
  · exact .refused _

theorem takeTurn_faultless (s : State) : Faultless s.takeTurn := by
  refine .ite ?_ (.next _)
  split
  · exact .next _
  · split
    · exact exec_faultless _ s
    · exact .next _

/-- No move faults: what a step faults for is judged before its move (rules R10, R240). -/
theorem runTurn_faultless (m : Turn) (s : State) : Faultless (runTurn m s) := by
  cases m with
  | seq => exact seqTurn_faultless s
  | take => exact takeTurn_faultless s
  | foreignUg => exact .ite (.next _) (.refused _)
  | _ => exact .next _

/-- Under a well-formed configuration a step faults exactly where a safety predicate is violated. -/
theorem step_fault_iff {s : State} (hwf : s.cfg.wf = true) : (∃ x, step s = .fault x) ↔ s.violation ≠ none := by
  cases hv : s.violation with
  | none =>
    have hstep : step s = s.endPulse.move := by rw [step, if_pos hwf, hv]
    have hmove : Faultless s.endPulse.move := runTurn_faultless _ _
    rw [hstep]
    simpa using fun f => hmove f
  | some f => simpa using ⟨f, step_violation s f hwf hv⟩

/-- A list of questions has no answer exactly where the first fails and the rest have none. -/
theorem ite_some_eq_none_iff {α : Type} {p : Prop} [Decidable p] {x : α} {o : Option α} :
    (if p then some x else o) = none ↔ ¬ p ∧ o = none := by
  by_cases hp : p <;> simp [hp]

/-- A state violates no safety predicate exactly where all four hold. -/
theorem State.violation_eq_none_iff (s : State) :
    s.violation = none ↔ s.safeBus s.fCore = true ∧ s.safeLock = true ∧ s.safeFlash s.fCore = true ∧
      s.safeHsi = true := by
  simp [State.violation, ite_some_eq_none_iff]

/-- SAFE_BUS in the terms of rule R176 (log 34). -/
theorem State.safeBus_iff (s : State) (f : Nat) :
    s.safeBus f = true ↔ f ≤ s.cfg.fApb1Max * ppreDiv s.hidden.effPpre1 ∧
      f ≤ s.cfg.fApb2Max * ppreDiv s.hidden.effPpre2 := by
  rw [State.safeBus, Bool.and_eq_true, State.busWithin, State.busWithin, decide_eq_true_iff, decide_eq_true_iff]
  rfl

/-- SAFE_LOCK in the terms of rule R177 (log 10). -/
theorem State.safeLock_iff (s : State) :
    s.safeLock = true ↔ (lockScan s.cfg.bind s.events).ok = true ∧ (s.sw = swPll → s.pllLocked = true) := by
  simp [State.safeLock, imp_iff_not_or]

/-- SAFE_FLASH in the terms of rule R178: a count of wait-states is asked for and programmed (log 12). -/
theorem State.safeFlash_iff (s : State) (f : Nat) :
    s.safeFlash f = true ↔ ∃ ws, s.cfg.fwp f = some ws ∧ ws ≤ s.latency.toNat := by
  unfold State.safeFlash
  cases s.cfg.fwp f <;> simp

/-- The newest event shows a write of `RCC_CR`. -/
theorem State.justWroteRccCr_iff (s : State) :
    s.justWroteRccCr = true ↔ ∃ v es, s.events = .wr .rccCr v :: es := by
  unfold State.justWroteRccCr
  split
  · rename_i v es he
    simpa using ⟨v, es, he⟩
  · rename_i hne
    simpa using fun v es he => hne v es he

/-- SAFE_HSI in the terms of rule R179 (log 11). -/
theorem State.safeHsi_iff (s : State) :
    s.safeHsi = true ↔ ¬ ((∃ v es, s.events = .wr .rccCr v :: es) ∧ s.hsiOn = false ∧ s.sws = swHsi) := by
  rw [← s.justWroteRccCr_iff]
  cases hw : s.justWroteRccCr <;> cases hon : s.hsiOn <;> simp [State.safeHsi, hw, hon]

/-- Settles O24: the move never faults, and each alternative is the failure of one of the four predicates. -/
theorem unsafeStatesFault : Obligations.UnsafeStatesFault := by
  intro s hwf
  have hflash : ¬ s.safeFlash s.fCore = true ↔ ∀ ws, s.cfg.fwp s.fCore = some ws → s.latency.toNat < ws := by
    simp [s.safeFlash_iff]
  have hlock : ¬ s.safeLock = true ↔
      (s.sw = swPll ∧ s.pllLocked = false) ∨ (lockScan s.cfg.bind s.events).ok = false := by
    rw [s.safeLock_iff, not_and_or, or_comm]
    simp
  rw [step_fault_iff hwf, ne_eq, s.violation_eq_none_iff, not_and_or, not_and_or, not_and_or, hlock, hflash,
    s.safeBus_iff, not_and_or, Nat.not_le, Nat.not_le, s.safeHsi_iff, not_not, or_assoc, or_assoc]
  rfl

/-! ## Passing a poll -/

/-- Settles O26: of what a step can do to the sequencer only the satisfied read of the poll itself moves `upc`. -/
theorem pollsPassOnlyWhenSatisfied : Obligations.PollsPassOnlyWhenSatisfied := by
  intro s t h r a b hd hs ht hne
  obtain ⟨hwf, hv, -⟩ := (step_next_iff s t).mp h
  cases step_seqMove h with
  | same hq => exact absurd (congrArg Seq.upc hq) hne
  | reset k _ hq => simp [State.busy, hq, Seq.reset] at ht
  | init w _ hr => simp [State.not_busy_of_cmdReady hr] at hs
  | delay w _ hr => simp [State.not_busy_of_cmdReady hr] at hs
  | microOp i hm hr _ _ =>
    rw [step_seq_decoded hwf hv hm hr hd] at h
    obtain ⟨-, ⟨hmet, -, rfl⟩ | ⟨-, rfl⟩⟩ := execPollEq_next r a b s.begun t h
    · exact ⟨hmet, by simp [State.regRead]⟩
    · exact absurd (by simp [(s.begun.readReg r).pollAgain_seq]) hne

end Sys2Proof.Machine
end

section

namespace Sys2Proof.Machine

/-! ## The bring-up's progress -/

/-- What the trace says of the PLL (rule R177). -/
def State.scan (s : State) : LockScan := lockScan s.cfg.bind s.events

/-- What the step before address `k` of the INIT program has brought (rules R165 to R169). -/
def State.Gained (s : State) : Nat → Prop
  | 4 => s.pllConfigured
  | 5 => s.pllOn = true ∧ s.scan.pllon = true
  | 6 => s.pllLocked = true ∧ s.scan.seen = true
  | 7 => s.latency = 3#4
  | 8 => slowBus1 (s.ppre .one)
  | 9 => s.sw = swPll
  | 10 => s.sws = swPll
  | _ => True

/-- The clock tree is sound, and address `n` of the INIT program finds all that the steps before it bring. -/
structure State.Reached (s : State) (n : Nat) : Prop where
  clock : s.ClockInv
  lock : s.LockInv
  gained : ∀ k ≤ n, s.Gained k

/-- `upc` stands in one of the two programs. -/
def State.InPrograms (s : State) : Prop :=
  s.seq.upc.toNat ≤ 18 ∨ (24 ≤ s.seq.upc.toNat ∧ s.seq.upc.toNat ≤ 26)

theorem State.stepInv_iff (s : State) :
    s.StepInv ↔ s.InPrograms ∧ (s.seq.upc.toNat ≤ 18 → ∀ k ≤ s.seq.upc.toNat, s.Gained k) := by
  refine and_congr_right fun _ => imp_congr_right fun _ => ⟨?_, fun h => ?_⟩
  · rintro ⟨h4, h5, h6, h7, h8, h9, h10⟩ k hk
    unfold State.Gained
    split
    · exact h4 hk
    · exact h5 hk
    · exact h6 hk
    · exact h7 hk
    · exact h8 hk
    · exact h9 hk
    · exact h10 hk
    · trivial
  · exact ⟨h 4, h 5, h 6, h 7, h 8, h 9, h 10⟩

/-- The invariant, with the clock tree and the progress of the INIT program together. -/
theorem State.initInv_iff (s : State) :
    s.InitInv ↔ s.cfg.closedDefault ∧ s.OwnRom ∧ s.Reached 0 ∧
      (s.seq.mode = .run → s.InPrograms ∧ (s.seq.upc.toNat ≤ 18 → s.Reached s.seq.upc.toNat) ∧ s.PhaseInv) := by
  rw [State.InitInv, s.stepInv_iff]
  constructor
  · rintro ⟨hcd, hwf, hrom, hclock, hlock, hrun⟩
    refine ⟨hcd, ⟨hwf, hrom⟩, ⟨hclock, hlock, fun k hk => by rw [Nat.le_zero.mp hk]; trivial⟩, fun hm => ?_⟩
    obtain ⟨⟨hin, hg⟩, hphase⟩ := hrun hm
    exact ⟨hin, fun hle => ⟨hclock, hlock, hg hle⟩, hphase⟩
  · rintro ⟨hcd, ⟨hwf, hrom⟩, ⟨hclock, hlock, -⟩, hrun⟩
    refine ⟨hcd, hwf, hrom, hclock, hlock, fun hm => ?_⟩
    obtain ⟨hin, hg, hphase⟩ := hrun hm
    exact ⟨⟨hin, fun hle => (hg hle).gained⟩, hphase⟩

theorem State.Reached.mono {s : State} {m n : Nat} (h : s.Reached n) (hmn : m ≤ n) : s.Reached m :=
  ⟨h.clock, h.lock, fun k hk => h.gained k (hk.trans hmn)⟩

theorem State.Reached.succ {s : State} {n : Nat} (h : s.Reached n) (hg : s.Gained (n + 1)) : s.Reached (n + 1) := by
  refine ⟨h.clock, h.lock, fun k hk => ?_⟩
  obtain hlt | rfl := Nat.lt_or_eq_of_le hk
  · exact h.gained k (Nat.le_of_lt_succ hlt)
  · exact hg

/-! ## What a move may do to the clock tree -/

/-- All that the switch to the PLL needs (rules R167 to R169). -/
def State.SwitchReady (s : State) : Prop :=
  s.pllOn = true ∧ s.pllLocked = true ∧ s.latency = 3#4 ∧ slowBus1 (s.ppre .one) ∧ slowBus1 (s.effPpre .one)

/-- What a move may do to `RCC_CR`: a lock stays, the PLL goes on only when it is configured, and the internal
oscillator is stopped only while the PLL drives the system clock (rules R166, R170). -/
structure CrKept (s t : State) : Prop where
  locked : s.pllLocked = true → t.pllLocked = true
  on : t.pllOn = s.pllOn ∨ (t.pllOn = true ∧ s.pllConfigured)
  hsi : t.hsiOn = s.hsiOn ∨ s.sws = swPll

/-- What a move may do to `RCC_CFGR`: the core divider stays, bus 1 stays slow, the switch status follows the switch,
and the switch goes only to the PLL, when all is ready for it (rules R75, R168, R169, R171). -/
structure CfgrKept (s t : State) : Prop where
  hpre : t.cfg.bind.hpre.get t.regs.rccCfgr = s.cfg.bind.hpre.get s.regs.rccCfgr
  ppre : slowBus1 (s.ppre .one) → slowBus1 (t.ppre .one)
  sws : t.sws = s.sws ∨ t.sws = s.sw
  sw : t.sw = s.sw ∨ (t.sw = swPll ∧ s.SwitchReady)

/-- What a move may do to the trace's reading for rule R177: the PLL is selected only after its lock was read, the
`PLLON` last seen is the register's, and a lock stays seen while the PLL stays on. -/
structure ScanKept (s t : State) : Prop where
  ok : s.scan.ok = true → t.scan.ok = true
  on : t.scan.pllon = s.scan.pllon ∨ t.scan.pllon = t.pllOn
  seen : s.scan.pllon = true → s.scan.seen = true → t.scan.seen = true

/-- What every move but a reset does to the clock tree: it undoes nothing that the bring-up has reached. -/
structure ClockKept (s t : State) : Prop where
  pll : s.pllConfigured → t.pllConfigured
  latency : s.latency = 3#4 → t.latency = 3#4
  eff : t.effPpre .one = s.effPpre .one ∨ t.effPpre .one = s.ppre .one
  cr : CrKept s t
  cfgr : CfgrKept s t
  scan : ScanKept s t

section

variable {s t : State} {n : Nat}

/-- The PLL stays on. -/
theorem CrKept.pllOn (h : CrKept s t) (hs : s.pllOn = true) : t.pllOn = true :=
  h.on.elim (fun he => he.trans hs) And.left

/-- Where the switch selects the PLL after the move, all was ready for it before. -/
theorem CfgrKept.switchReady (h : CfgrKept s t) (hs : s.sw = swPll → s.SwitchReady) (ht : t.sw = swPll) :
    s.SwitchReady :=
  h.sw.elim (fun he => hs (he ▸ ht)) And.right

theorem CfgrKept.sw_pll (h : CfgrKept s t) (hs : s.sw = swPll) : t.sw = swPll :=
  h.sw.elim (fun he => he.trans hs) And.left

/-- What is ready for the switch stays ready. -/
theorem ClockKept.switchReady (h : ClockKept s t) (hs : s.SwitchReady) : t.SwitchReady := by
  obtain ⟨hon, hlocked, hlat, hppre, heff⟩ := hs
  exact ⟨h.cr.pllOn hon, h.cr.locked hlocked, h.latency hlat, h.cfgr.ppre hppre,
    h.eff.elim (fun he => he ▸ heff) (fun he => he ▸ hppre)⟩

theorem ClockKept.clockInv (h : ClockKept s t) (hs : s.ClockInv) : t.ClockInv := by
  obtain ⟨hsw, hsws, hfollow, hready, hhpre, hhsi, hconf⟩ := hs
  have hsws_pll (he : s.sws = swPll) : t.sws = swPll :=
    h.cfgr.sws.elim (fun e => e.trans he) (fun e => e.trans (hfollow he))
  refine ⟨?_, ?_, fun ht => ?_, fun ht => ?_, ?_, fun ht => ?_, fun ht => ?_⟩
  · exact h.cfgr.sw.elim (fun e => e ▸ hsw) (fun e => .inr e.1)
  · exact h.cfgr.sws.elim (fun e => e ▸ hsws) (fun e => e ▸ hsw)
  · exact h.cfgr.sw_pll (h.cfgr.sws.elim (fun e => hfollow (e ▸ ht)) (fun e => e ▸ ht))
  · exact h.switchReady (h.cfgr.switchReady hready ht)
  · exact h.cfgr.hpre.trans hhpre
  · exact hsws_pll (h.cr.hsi.elim (fun e => hhsi (e ▸ ht)) id)
  · exact h.pll (h.cr.on.elim (fun e => hconf (e ▸ ht)) And.right)

theorem ClockKept.lockInv (h : ClockKept s t) (hs : s.LockInv) : t.LockInv := by
  obtain ⟨hok, hon⟩ := hs
  refine ⟨h.scan.ok hok, fun ht => ?_⟩
  exact h.scan.on.elim (fun e => h.cr.pllOn (hon (e.symm.trans ht))) (fun e => e.symm.trans ht)

/-- Such a move undoes nothing that the INIT program has reached. -/
theorem ClockKept.reached (h : ClockKept s t) (hs : s.Reached n) : t.Reached n := by
  refine ⟨h.clockInv hs.clock, h.lockInv hs.lock, fun k hk => ?_⟩
  have hg := hs.gained k hk
  unfold State.Gained at hg ⊢
  split
  · exact h.pll hg
  · have hon := h.cr.pllOn hg.1
    exact ⟨hon, h.scan.on.elim (fun e => e.trans hg.2) (fun e => e.trans hon)⟩
  · have h5 : s.Gained 5 := hs.gained 5 (by omega)
    exact ⟨h.cr.locked hg.1, h.scan.seen h5.2 hg.2⟩
  · exact h.latency hg
  · exact h.cfgr.ppre hg
  · exact h.cfgr.sw_pll hg
  · exact h.cfgr.sws.elim (fun e => e.trans hg) (fun e => e.trans (hs.gained 9 (by omega)))
  · trivial

theorem CrKept.of_same (hc : t.cfg = s.cfg) (hr : t.regs.rccCr = s.regs.rccCr) : CrKept s t :=
  ⟨by simp [State.pllLocked, hc, hr], .inl (by simp [State.pllOn, hc, hr]), .inl (by simp [State.hsiOn, hc, hr])⟩

theorem CfgrKept.of_same (hc : t.cfg = s.cfg) (hr : t.regs.rccCfgr = s.regs.rccCfgr) : CfgrKept s t :=
  ⟨by rw [hc, hr], by simp [State.ppre, hc, hr], .inl (by simp [State.sws, hc, hr]), .inl (by simp [State.sw, hc, hr])⟩

theorem pllConfigured_of_same (hc : t.cfg = s.cfg) (hr : t.regs.rccPllcfgr = s.regs.rccPllcfgr)
    (h : s.pllConfigured) : t.pllConfigured := by rwa [State.pllConfigured, hc, hr]

theorem latency_of_same (hc : t.cfg = s.cfg) (hr : t.regs.flashAcr = s.regs.flashAcr) (h : s.latency = 3#4) :
    t.latency = 3#4 := by rwa [State.latency, hc, hr]

theorem ScanKept.of_scan (h : t.scan = s.scan) : ScanKept s t := by
  refine ⟨?_, .inl ?_, fun _ => ?_⟩ <;> rw [h]
  · exact id
  · exact id

/-- A move that leaves the clock tree's registers, and the divider in effect or follows the one programmed. -/
theorem ClockKept.of_regs (hc : t.cfg = s.cfg) (hcr : t.regs.rccCr = s.regs.rccCr)
    (hcfgr : t.regs.rccCfgr = s.regs.rccCfgr) (hpll : t.regs.rccPllcfgr = s.regs.rccPllcfgr)
    (hflash : t.regs.flashAcr = s.regs.flashAcr)
    (heff : t.effPpre .one = s.effPpre .one ∨ t.effPpre .one = s.ppre .one) (hscan : ScanKept s t) : ClockKept s t :=
  ⟨pllConfigured_of_same hc hpll, latency_of_same hc hflash, heff, .of_same hc hcr, .of_same hc hcfgr, hscan⟩

/-- A move that leaves the registers and the hidden state. -/
theorem ClockKept.of_sameRegs (hc : t.cfg = s.cfg) (hr : t.regs = s.regs) (hh : t.hidden = s.hidden)
    (hscan : ScanKept s t) : ClockKept s t :=
  .of_regs hc (by rw [hr]) (by rw [hr]) (by rw [hr]) (by rw [hr])
    (.inl (by rw [State.effPpre, State.effPpre, hh])) hscan

end

end Sys2Proof.Machine
end

section

namespace Sys2Proof

/-- The fields of `RCC_CR` and `RCC_CFGR` that the bring-up writes, and the core divider, lie inside their register and
apart from the others (log 27). -/
structure Bind.ClockFields (b : Bind) : Prop where
  hsion_fits : b.hsion.fits = true
  pllon_fits : b.pllon.fits = true
  sw_fits : b.sw.fits = true
  hpre_fits : b.hpre.fits = true
  ppre1_fits : b.ppre1.fits = true
  hsion_hsirdy : b.hsion.mask &&& b.hsirdy.mask = 0
  hsion_hseon : b.hsion.mask &&& b.hseon.mask = 0
  hsion_hserdy : b.hsion.mask &&& b.hserdy.mask = 0
  hsion_pllon : b.hsion.mask &&& b.pllon.mask = 0
  hsion_pllrdy : b.hsion.mask &&& b.pllrdy.mask = 0
  pllon_hsion : b.pllon.mask &&& b.hsion.mask = 0
  pllon_hsirdy : b.pllon.mask &&& b.hsirdy.mask = 0
  pllon_hseon : b.pllon.mask &&& b.hseon.mask = 0
  pllon_hserdy : b.pllon.mask &&& b.hserdy.mask = 0
  pllon_pllrdy : b.pllon.mask &&& b.pllrdy.mask = 0
  sw_hpre : b.sw.mask &&& b.hpre.mask = 0
  sw_ppre1 : b.sw.mask &&& b.ppre1.mask = 0
  ppre1_sw : b.ppre1.mask &&& b.sw.mask = 0
  ppre2_sw : b.ppre2.mask &&& b.sw.mask = 0
  hpre_sws : b.hpre.mask &&& b.sws.mask = 0
  ppre1_hpre : b.ppre1.mask &&& b.hpre.mask = 0
  ppre2_hpre : b.ppre2.mask &&& b.hpre.mask = 0
  ppre1_sws : b.ppre1.mask &&& b.sws.mask = 0
  ppre1_ppre2 : b.ppre1.mask &&& b.ppre2.mask = 0

theorem Bind.clockFields {b : Bind} (h : b.wf = true) : b.ClockFields := by
  obtain ⟨hcr, -, hcfgr⟩ := b.wf_apart h
  simp only [Bind.wf, Bool.and_eq_true] at h
  simp only [disjointMasks, List.all_cons, List.all_nil, Bool.and_eq_true, decide_eq_true_eq] at hcr hcfgr
  have flip {x y : Word} (hxy : x &&& y = 0) : y &&& x = 0 := (BitVec.and_comm y x).trans hxy
  constructor <;> simp only [h, hcr, hcfgr, flip]

end Sys2Proof

namespace Sys2Proof.Machine

/-! ## The environment's moves and the clock tree -/

section

variable {s t u : State} {e : Event} {c : Prop} [Decidable c]

/-- An event that says nothing of the PLL leaves what the trace says of it (rule R177). -/
theorem State.scan_cons (hc : t.cfg = s.cfg) (he : t.events = e :: s.events)
    (hq : ∀ b p, lockStep b e p = p) : t.scan = s.scan := by
  rw [State.scan, hc, he]
  exact hq _ _

/-- The same of a move that emits such an event or changes nothing. -/
theorem State.scan_ifEmit (hc : u.cfg = s.cfg) (he : u.events = s.events) (hq : ∀ b p, lockStep b e p = p) :
    (if c then u.emit e else s).scan = s.scan := by
  split
  · exact State.scan_cons hc (congrArg _ he) hq
  · rfl

theorem hseStep_scan (s : State) : s.hseStep.scan = s.scan := by
  unfold State.hseStep
  split
  · exact State.scan_cons rfl rfl fun _ _ => rfl
  · exact State.scan_ifEmit rfl rfl fun _ _ => rfl

/-- The report of a flag apart from `HSION` and `PLLON` leaves both. -/
theorem FlagStep.crKept {f : BitField 1} (h : FlagStep f s t) (hb : s.cfg.bind.wf = true)
    (hhsi : s.cfg.bind.hsion.mask &&& f.mask = 0) (hpll : s.cfg.bind.pllon.mask &&& f.mask = 0)
    (hlock : s.pllLocked = true → t.pllLocked = true) : CrKept s t := by
  obtain ⟨-, hother⟩ := h.others
  have hf := Bind.clockFields hb
  obtain ⟨hc, -⟩ := h
  refine ⟨hlock, .inl ?_, .inl ?_⟩
  · rw [State.pllOn, hc]; exact hother _ hf.pllon_fits hpll
  · rw [State.hsiOn, hc]; exact hother _ hf.hsion_fits hhsi

/-- The report of a flag changes nothing else of the clock tree. -/
theorem FlagStep.clockKept {f : BitField 1} (h : FlagStep f s t) (hcr : CrKept s t) (hscan : t.scan = s.scan) :
    ClockKept s t := by
  obtain ⟨hc, hh, hr⟩ := h
  have hregs : t.regs.rccCfgr = s.regs.rccCfgr ∧ t.regs.rccPllcfgr = s.regs.rccPllcfgr ∧
      t.regs.flashAcr = s.regs.flashAcr := by
    obtain hr | ⟨v, hr⟩ := hr <;> simp [hr]
  obtain ⟨hcfgr, hpll, hflash⟩ := hregs
  exact ⟨pllConfigured_of_same hc hpll, latency_of_same hc hflash,
    .inl (by rw [State.effPpre, State.effPpre, hh]), hcr, .of_same hc hcfgr, .of_scan hscan⟩

theorem hseStep_clockKept (hb : s.cfg.bind.wf = true) : ClockKept s s.hseStep := by
  have hf := Bind.clockFields hb
  obtain ⟨-, hlock, -⟩ := hseStep_flagsMove hb
  refine (hseStep_flag s).clockKept
    ((hseStep_flag s).crKept hb hf.hsion_hserdy hf.pllon_hserdy fun h => ?_) (hseStep_scan s)
  rw [← h]
  by_contra hne
  cases hlock hne

theorem hsiStep_clockKept (hb : s.cfg.bind.wf = true) : ClockKept s s.hsiStep := by
  have hf := Bind.clockFields hb
  obtain ⟨-, hlock, -⟩ := hsiStep_flagsMove hb
  refine (hsiStep_flag s).clockKept ((hsiStep_flag s).crKept hb hf.hsion_hsirdy hf.pllon_hsirdy fun h => ?_)
    (State.scan_ifEmit rfl rfl fun _ _ => rfl)
  rw [← h]
  by_contra hne
  cases hlock hne

/-- ENV.PLL reports a lock and never takes one back (rule R74). -/
theorem pllStep_locked (h : s.pllLocked = true) : s.pllStep.pllLocked = true := by
  have hen : ¬ s.pllEnabled = true := by simp [State.pllEnabled, h]
  rwa [State.pllStep, if_neg hen]

theorem pllStep_clockKept (hb : s.cfg.bind.wf = true) : ClockKept s s.pllStep := by
  have hf := Bind.clockFields hb
  exact (pllStep_flag s).clockKept
    ((pllStep_flag s).crKept hb hf.hsion_pllrdy hf.pllon_pllrdy pllStep_locked)
    (State.scan_ifEmit rfl rfl fun _ _ => rfl)

/-- The switch status follows the switch, and no other field of `RCC_CFGR` moves (rule R75). -/
theorem swStep_cfgrKept (hb : s.cfg.bind.wf = true) : CfgrKept s s.swStep := by
  have hf := Bind.clockFields hb
  obtain ⟨hfsw, hfsws, hsw⟩ := s.cfg.bind.switch_apart hb
  unfold State.swStep
  split
  · exact ⟨BitField.get_put_apart _ _ hf.hpre_sws hf.hpre_fits _ _,
      fun h => by
        change slowBus1 (s.cfg.bind.ppre1.get (s.cfg.bind.sws.put s.sw s.regs.rccCfgr))
        rwa [BitField.get_put_apart _ _ hf.ppre1_sws hf.ppre1_fits],
      .inr (BitField.get_put_same _ hfsws _ _), .inl (BitField.get_put_apart _ _ hsw hfsw _ _)⟩
  · exact .of_same rfl rfl

theorem swStep_clockKept (hb : s.cfg.bind.wf = true) : ClockKept s s.swStep := by
  obtain ⟨hc, -⟩ := swStep_frame s
  obtain ⟨hh, w, hr⟩ := swStep_regs s
  exact ⟨pllConfigured_of_same hc (by rw [hr]), latency_of_same hc (by rw [hr]),
    .inl (by rw [State.effPpre, State.effPpre, hh]), .of_same hc (by rw [hr]), swStep_cfgrKept hb,
    .of_scan (State.scan_ifEmit rfl rfl fun _ _ => rfl)⟩

/-- The divider in effect on bus 1 follows the one programmed (rule R77). -/
theorem divStep_eff (s : State) (b : Bus) :
    (s.divStep b).effPpre .one = s.effPpre .one ∨ (s.divStep b).effPpre .one = s.ppre .one := by
  unfold State.divStep
  split
  · cases b
    · exact .inr rfl
    · exact .inl rfl
  · exact .inl rfl

theorem divStep_clockKept (s : State) (b : Bus) : ClockKept s (s.divStep b) := by
  obtain ⟨hc, -⟩ := divStep_frame s b
  obtain ⟨hr, -⟩ := divStep_regs s b
  have hscan : (s.divStep b).scan = s.scan := by cases b <;> exact State.scan_ifEmit rfl rfl fun _ _ => rfl
  exact .of_regs hc (by rw [hr]) (by rw [hr]) (by rw [hr]) (by rw [hr]) (divStep_eff s b) (.of_scan hscan)

/-- A tick leaves the clock tree (rule R78). -/
theorem tickStep_clockKept (s : State) : ClockKept s s.tickStep := by
  unfold State.tickStep
  split
  · exact .of_regs rfl rfl rfl rfl rfl (.inl rfl) (.of_scan (State.scan_cons rfl rfl fun _ _ => rfl))
  · exact .of_sameRegs rfl rfl rfl (.of_scan rfl)

/-- The taking of a command makes no access (rules R221 to R226). -/
theorem takeTurn_scan (h : s.takeTurn = .next t) : t.scan = s.scan := by
  obtain rfl | ⟨-, w, -, hx⟩ := takeTurn_next s t h
  · rfl
  obtain ⟨-, he⟩ | ⟨-, he⟩ | ⟨-, he⟩ | rfl := hx
  · obtain ⟨-, rfl⟩ | ⟨-, -, rfl⟩ := execInit_next _ s t he <;> rfl
  · obtain ⟨-, rfl⟩ | ⟨-, -, rfl⟩ := execDelay_next _ s t he <;> rfl
  · simp only [execCpuf, Host.Outcome.next.injEq] at he
    subst he
    rfl
  · rfl

theorem takeTurn_clockKept (h : s.takeTurn = .next t) : ClockKept s t := by
  obtain ⟨-, ⟨hr, hh⟩, hc, -⟩ := takeTurn_effect h
  exact .of_sameRegs hc hr hh (.of_scan (takeTurn_scan h))

/-- Only `ro` bits and the counter differ between the two states. -/
def RwKept (s t : State) : Prop :=
  ∀ r, r ≠ .timCnt → t.regs.get r &&& ~~~s.cfg.roMask r = s.regs.get r &&& ~~~s.cfg.roMask r

/-- Putting a field that lies within a mask changes nothing outside the mask. -/
theorem put_outside {k : Nat} (f : BitField k) {m : Word} (hf : f.mask &&& ~~~m = 0) (v : BitVec k) (w : Word) :
    f.put v w &&& ~~~m = w &&& ~~~m := by
  have h := f.put_outside_mask v w
  ext i hi
  have hbit := congrArg (fun z => z.getLsbD i) h
  have hm := congrArg (fun z => z.getLsbD i) hf
  simp [hi] at hbit hm ⊢
  grind

theorem FlagStep.rwKept {f : BitField 1} (h : FlagStep f s t) (hf : f.mask &&& ~~~s.cfg.roMask .rccCr = 0) :
    RwKept s t := by
  obtain ⟨-, -, hr | ⟨v, hr⟩⟩ := h
  · exact fun _ _ => by rw [hr]
  · intro r _
    rw [hr]
    cases r with
    | rccCr => exact put_outside f hf v _
    | _ => rfl

theorem swStep_rwKept (s : State) : RwKept s s.swStep := by
  unfold State.swStep
  split
  · intro r _
    cases r with
    | rccCfgr => exact s.cfg.bind.sws.put_outside_mask _ _
    | _ => rfl
  · exact fun _ _ => rfl

theorem tickStep_rwKept (s : State) : RwKept s s.tickStep := by
  unfold State.tickStep
  split
  · intro r hr
    cases r with
    | timCnt => exact absurd rfl hr
    | _ => rfl
  · exact fun _ _ => rfl

theorem rearm_rwKept (s : State) : RwKept s s.rearm := by
  intro r hr
  cases r with
  | timCnt => exact absurd rfl hr
  | _ => rfl

/-- The readiness flags are the `ro` bits of `RCC_CR` (rule R31). -/
theorem roMask_flags (c : Config) :
    c.bind.hsirdy.mask &&& ~~~c.roMask .rccCr = 0 ∧ c.bind.hserdy.mask &&& ~~~c.roMask .rccCr = 0 ∧
    c.bind.pllrdy.mask &&& ~~~c.roMask .rccCr = 0 := by
  unfold Config.roMask
  refine ⟨?_, ?_, ?_⟩ <;> (ext i hi; simp; grind)

theorem EnvFrame.seq_eq (h : EnvFrame s t) : t.seq = s.seq := by
  obtain ⟨-, -, hq, -⟩ := h
  exact hq

/-- What a move of the environment, of HOST or of the reset's release leaves of the clock tree and of the bits SEQ
writes. -/
theorem runTurn_kept {m : Turn} (h : runTurn m s = .next t) (hb : s.cfg.bind.wf = true) (hseq : m ≠ .seq)
    (htake : m ≠ .take) (hreset : ∀ k, m ≠ .resetLow k) : t.seq = s.seq ∧ ClockKept s t ∧ RwKept s t := by
  obtain ⟨hhsi, hhse, hpll⟩ := roMask_flags s.cfg
  cases m <;> simp only [runTurn, Host.Outcome.next.injEq] at h
  case seq => exact absurd rfl hseq
  case take => exact absurd rfl htake
  case resetLow k => exact absurd rfl (hreset k)
  case present w =>
    obtain ⟨⟨hc, -⟩, hq, hr, hh, -⟩ := s.presentTurn_frame w
    have hscan : (s.presentTurn w).scan = s.scan := by unfold State.presentTurn; split <;> rfl
    exact h ▸ ⟨hq, .of_sameRegs hc hr hh (.of_scan hscan), fun _ _ => by rw [hr]⟩
  case hse => exact h ▸ ⟨(hseStep_frame s).seq_eq, hseStep_clockKept hb, (hseStep_flag s).rwKept hhse⟩
  case pll => exact h ▸ ⟨(pllStep_frame s).seq_eq, pllStep_clockKept hb, (pllStep_flag s).rwKept hpll⟩
  case sw => exact h ▸ ⟨(swStep_frame s).seq_eq, swStep_clockKept hb, swStep_rwKept s⟩
  case hsi => exact h ▸ ⟨(hsiStep_frame s).seq_eq, hsiStep_clockKept hb, (hsiStep_flag s).rwKept hhsi⟩
  case div b =>
    obtain ⟨hr, -⟩ := divStep_regs s b
    exact h ▸ ⟨(divStep_frame s b).seq_eq, divStep_clockKept s b, fun _ _ => by rw [hr]⟩
  case tick => exact h ▸ ⟨(tickStep_frame s).seq_eq, tickStep_clockKept s, tickStep_rwKept s⟩
  case halt b =>
    exact h ▸ ⟨rfl, .of_regs rfl rfl rfl rfl rfl (.inl rfl) (.of_scan (State.scan_cons rfl rfl fun _ _ => rfl)),
      fun _ _ => rfl⟩
  case resetHigh => exact h ▸ ⟨rfl, .of_sameRegs rfl rfl rfl (.of_scan rfl), fun _ _ => rfl⟩
  case foreignUg =>
    exact foreignUgTurn_next h ▸ ⟨rfl, .of_regs rfl rfl rfl rfl rfl (.inl rfl) (.of_scan rfl), rearm_rwKept s⟩
  case idle => exact h ▸ ⟨rfl, .of_sameRegs rfl rfl rfl (.of_scan rfl), fun _ _ => rfl⟩

end

end Sys2Proof.Machine
end

section

namespace Sys2Proof.Machine

/-! ## SEQ's accesses and the clock tree -/

/-- A read of `r` that leaves the registers; only a fault may follow it in the trace. -/
structure ReadOf (r : RegId) (s t : State) : Prop where
  cfg : t.cfg = s.cfg
  regs : t.regs = s.regs
  hidden : t.hidden = s.hidden
  events : ∃ new : List Event, (∀ e ∈ new, e.isQuiet = true) ∧ t.events = new ++ .rd r (s.regRead r) :: s.events

/-- A write of `v` to `r` that the trace shows. -/
structure WriteOf (r : RegId) (v : Word) (s t : State) : Prop where
  cfg : t.cfg = s.cfg
  regs : t.regs = (s.regWrite r v).regs
  hidden : t.hidden = (s.regWrite r v).hidden
  events : t.events = .wr r v :: s.events

/-- A register write with the sequencer's state after it: RMW's write phase and WR. -/
theorem State.writeOf (s : State) (r : RegId) (v : Word) (q : Seq) : WriteOf r v s ((s.writeReg r v).setSeq q) :=
  ⟨by simp [State.writeReg], rfl, rfl, by simp [State.writeReg]⟩

/-- A register read with the sequencer's state after it: RMW's read phase and the polls that advance. -/
theorem State.readOf (s : State) (r : RegId) (q : Seq) : ReadOf r s ((s.readReg r).setSeq q) :=
  ⟨rfl, rfl, rfl, [], by simp, rfl⟩

/-- Quiet events say nothing of the PLL. -/
theorem lockScan_quiet {new : List Event} (h : ∀ e ∈ new, e.isQuiet = true) (b : Bind) (es : List Event) :
    lockScan b (new ++ es) = lockScan b es := by
  induction new with
  | nil => rfl
  | cons e new ih =>
    obtain ⟨he, hnew⟩ := List.forall_mem_cons.mp h
    rw [← ih hnew]
    cases e with
    | rd | wr | tick => cases he
    | _ => rfl

section Read

variable {s t : State} {r : RegId} {n : Nat}

theorem ReadOf.scan_eq (h : ReadOf r s t) : t.scan = lockStep s.cfg.bind (.rd r (s.regRead r)) s.scan := by
  obtain ⟨new, hq, he⟩ := h.events
  rw [State.scan, h.cfg, he, lockScan_quiet hq]
  rfl

/-- `RCC_CR` and `RCC_CFGR` read as they are held. -/
theorem State.regRead_full (s : State) : s.regRead .rccCr = s.regs.rccCr ∧ s.regRead .rccCfgr = s.regs.rccCfgr :=
  ⟨BitVec.and_allOnes, BitVec.and_allOnes⟩

/-- A read of `RCC_CR` shows `PLLON` and, it may be, a lock (rule R177). -/
theorem ReadOf.scan_rccCr (h : ReadOf .rccCr s t) :
    t.scan = { s.scan with pllon := s.pllOn, seen := s.scan.seen || s.pllLocked } := by
  rw [h.scan_eq, s.regRead_full.1]
  rfl

theorem ReadOf.scanKept (h : ReadOf r s t) : ScanKept s t := by
  by_cases hr : r = .rccCr
  · subst hr
    have hon : t.pllOn = s.pllOn := by rw [State.pllOn, h.cfg, h.regs, State.pllOn]
    exact ⟨by simp [h.scan_rccCr], .inr (by rw [h.scan_rccCr, hon]), fun _ hs => by simp [h.scan_rccCr, hs]⟩
  · refine .of_scan (h.scan_eq.trans ?_)
    cases r with
    | rccCr => exact absurd rfl hr
    | _ => rfl

/-- A read leaves the clock tree. -/
theorem ReadOf.clockKept (h : ReadOf r s t) : ClockKept s t := .of_sameRegs h.cfg h.regs h.hidden h.scanKept

end Read

section Write

variable {s t : State} {r r' : RegId} {v : Word}

theorem WriteOf.get_same (h : WriteOf r v s t) (hr : r ≠ .timEgr) : t.regs.get r = s.storedWord r v := by
  rw [h.regs, s.regWrite_get_same v hr]

/-- A write leaves every other register, but the counter, which a re-arm clears. -/
theorem WriteOf.get_ne (h : WriteOf r v s t) (hne : r ≠ r') (hcnt : r' ≠ .timCnt) :
    t.regs.get r' = s.regs.get r' := by
  rw [h.regs]
  by_cases hr : r = .timEgr
  · subst hr
    cases hu : isSet s.cfg.bind.ug v
    · rw [s.regWrite_noUg v hu]
    · rw [s.regWrite_ug v hu]
      cases r' with
      | timCnt => exact absurd rfl hcnt
      | _ => rfl
  · exact s.regWrite_get_ne r r' v hr hne

/-- No write reaches a divider in effect (rule R43). -/
theorem WriteOf.effPpre (h : WriteOf r v s t) (b : Bus) : t.effPpre b = s.effPpre b := by
  have hh : (s.regWrite r v).hidden.effPpre1 = s.hidden.effPpre1 ∧
      (s.regWrite r v).hidden.effPpre2 = s.hidden.effPpre2 := by
    by_cases hr : r = .timEgr
    · subst hr
      cases hu : isSet s.cfg.bind.ug v
      · simp [s.regWrite_noUg v hu]
      · simp [s.regWrite_ug v hu]
    · simp [s.regWrite_hidden r v hr]
  cases b
  · exact (congrArg Hidden.effPpre1 h.hidden).trans hh.1
  · exact (congrArg Hidden.effPpre2 h.hidden).trans hh.2

theorem WriteOf.scan_eq (h : WriteOf r v s t) : t.scan = lockStep s.cfg.bind (.wr r v) s.scan := by
  rw [State.scan, h.cfg, h.events]
  rfl

/-- Only writes of `RCC_CR` and `RCC_CFGR` say anything of the PLL (rule R177). -/
theorem WriteOf.scan_other (h : WriteOf r v s t) (hcr : r ≠ .rccCr) (hcfgr : r ≠ .rccCfgr) : t.scan = s.scan := by
  rw [h.scan_eq]
  cases r with
  | rccCr => exact absurd rfl hcr
  | rccCfgr => exact absurd rfl hcfgr
  | _ => rfl

/-- A write leaves the fields it does not reach. -/
theorem WriteOf.field_unreached {k : Nat} {f : BitField k} (h : WriteOf r v s t)
    (hf : s.cfg.rwMask r' &&& f.mask = 0) (hcnt : r' ≠ .timCnt) : f.get (t.regs.get r') = f.get (s.regs.get r') := by
  rw [h.regs]
  exact f.get_eq_of_unreached hf (s.regWrite_keeps r r' v hcnt)

/-- A field that a write reaches holds what is written. -/
theorem WriteOf.field_reached {k : Nat} {f : BitField k} (h : WriteOf r v s t) (hr : r ≠ .timEgr)
    (hf : f.mask &&& ~~~s.rwNow r = 0) : f.get (t.regs.get r) = f.get v := by
  rw [h.get_same hr]
  exact f.get_eq_of_agree _ _ _ hf (s.storedWord_bits r v).1

/-- But for `RCC_PLLCFGR` a write reaches every `rw` bit. -/
theorem State.rwNow_eq (s : State) (hr : r ≠ .rccPllcfgr) : s.rwNow r = s.cfg.rwMask r := if_neg fun h => hr h.1

/-- The masks of the INIT program's writes to the clock tree reach `rw` bits only (rules R31, R32, R33, R35). -/
theorem rwMask_fields (c : Config) :
    (c.bind.hsion.mask &&& ~~~c.rwMask .rccCr = 0 ∧ c.bind.hseon.mask &&& ~~~c.rwMask .rccCr = 0 ∧
      c.bind.pllon.mask &&& ~~~c.rwMask .rccCr = 0) ∧
    (c.bind.sw.mask &&& ~~~c.rwMask .rccCfgr = 0 ∧ c.ppreMask &&& ~~~c.rwMask .rccCfgr = 0) ∧
    c.flashMask &&& ~~~c.rwMask .flashAcr = 0 ∧ c.pllMask &&& ~~~c.rwMask .rccPllcfgr = 0 := by
  unfold Config.rwMask Config.ppreMask Config.flashMask Config.pllMask
  refine ⟨⟨?_, ?_, ?_⟩, ⟨?_, ?_⟩, ?_, ?_⟩ <;> (ext i hi; simp <;> grind)

/-- A write of `RCC_CR` shows `PLLON` as the register then holds it (rule R177). -/
theorem WriteOf.scan_pllon (h : WriteOf .rccCr v s t) : t.scan.pllon = t.pllOn := by
  obtain ⟨⟨-, -, hpllon⟩, -⟩ := rwMask_fields s.cfg
  rw [← s.rwNow_eq (by decide)] at hpllon
  have hget : s.cfg.bind.pllon.get t.regs.rccCr = s.cfg.bind.pllon.get v := h.field_reached (by decide) hpllon
  rw [h.scan_eq, State.pllOn, h.cfg, isSet, hget]
  rfl

/-- A write of `RCC_CR` that takes back neither the PLL nor the oscillator in use (rules R166, R170). -/
theorem WriteOf.clockKept_rccCr (h : WriteOf .rccCr v s t) (hb : s.cfg.bind.wf = true)
    (hon : t.pllOn = s.pllOn ∨ (t.pllOn = true ∧ s.pllConfigured)) (hhsi : t.hsiOn = s.hsiOn ∨ s.sws = swPll) :
    ClockKept s t := by
  obtain ⟨-, hpllrdy, -⟩ := s.cfg.flags_unreached hb
  have hlock : t.pllLocked = s.pllLocked := by
    have hget := h.field_unreached (r' := .rccCr) hpllrdy (by decide)
    exact congrArg (fun x => decide (x = 1#1)) (by rw [h.cfg]; exact hget)
  have hscan := h.scan_eq
  refine ⟨pllConfigured_of_same h.cfg (h.get_ne (r' := .rccPllcfgr) (by decide) (by decide)),
    latency_of_same h.cfg (h.get_ne (r' := .flashAcr) (by decide) (by decide)), .inl (h.effPpre _),
    ⟨fun hs => hlock.trans hs, hon, hhsi⟩,
    .of_same h.cfg (h.get_ne (r' := .rccCfgr) (by decide) (by decide)), ?_, .inr h.scan_pllon, ?_⟩
  · simp [hscan, lockStep]
  · intro hs hs'
    simp [hscan, lockStep, hs, hs']

/-- A write of `RCC_CFGR` that leaves bus 1 slow and selects nothing but the PLL, seen locked and ready for it (rules
R168, R169, R171). -/
theorem WriteOf.clockKept_rccCfgr (h : WriteOf .rccCfgr v s t) (hb : s.cfg.bind.wf = true)
    (hppre : slowBus1 (s.ppre .one) → slowBus1 (t.ppre .one)) (hsw : t.sw = s.sw ∨ (t.sw = swPll ∧ s.SwitchReady))
    (hseen : s.scan.seen = true) : ClockKept s t := by
  obtain ⟨-, -, -, hsws⟩ := s.cfg.flags_unreached hb
  have hf := Bind.clockFields hb
  have hhpre : s.cfg.rwMask .rccCfgr &&& s.cfg.bind.hpre.mask = 0 := by
    rw [Config.rwMask, BitVec.and_or_distrib_right, BitVec.and_or_distrib_right, hf.sw_hpre, hf.ppre1_hpre,
      hf.ppre2_hpre]
    rfl
  have hscan := h.scan_eq
  refine ⟨pllConfigured_of_same h.cfg (h.get_ne (r' := .rccPllcfgr) (by decide) (by decide)),
    latency_of_same h.cfg (h.get_ne (r' := .flashAcr) (by decide) (by decide)), .inl (h.effPpre _),
    .of_same h.cfg (h.get_ne (r' := .rccCr) (by decide) (by decide)), ⟨?_, hppre, .inl ?_, hsw⟩, ?_, .inl ?_, ?_⟩
  · rw [h.cfg]
    exact h.field_unreached (r' := .rccCfgr) hhpre (by decide)
  · rw [State.sws, h.cfg]
    exact h.field_unreached (r' := .rccCfgr) hsws (by decide)
  · intro hs
    simp [hscan, lockStep, hs, hseen]
  · simp [hscan, lockStep]
  · intro _ hs
    simp [hscan, lockStep, hs]

/-- A write of any other register that, if it is the PLL's or the flash's, leaves it as the bring-up wants it. -/
theorem WriteOf.clockKept_other (h : WriteOf r v s t) (hcr : r ≠ .rccCr) (hcfgr : r ≠ .rccCfgr)
    (hpll : r = .rccPllcfgr → t.pllConfigured) (hflash : r = .flashAcr → t.latency = 3#4) : ClockKept s t := by
  refine ⟨fun hs => ?_, fun hs => ?_, .inl (h.effPpre _),
    .of_same h.cfg (h.get_ne (r' := .rccCr) hcr (by decide)),
    .of_same h.cfg (h.get_ne (r' := .rccCfgr) hcfgr (by decide)), .of_scan (h.scan_other hcr hcfgr)⟩
  · by_cases hr : r = .rccPllcfgr
    · exact hpll hr
    · exact pllConfigured_of_same h.cfg (h.get_ne (r' := .rccPllcfgr) hr (by decide)) hs
  · by_cases hr : r = .flashAcr
    · exact hflash hr
    · exact latency_of_same h.cfg (h.get_ne (r' := .flashAcr) hr (by decide)) hs

end Write

end Sys2Proof.Machine
end

section

namespace Sys2Proof

/-! ## The closed default configuration -/

section

variable {c : Config}

/-- The wait-state table of the closed default configuration is rule R142's. -/
theorem Config.closedDefault_wsTable (h : c.closedDefault) :
    c.wsTable = [(30000000, 0), (64000000, 1), (90000000, 2), (100000000, 3)] := congrArg Config.wsTable h

/-- The closed default configuration brings the core to 96 MHz, with three wait-states (rules R7, R142, R160). -/
theorem Config.closedDefault_core (h : c.closedDefault) : c.fCore = 96000000 ∧ c.fwp c.fCore = some 3 := by
  have hhse : c.fHse = 25000000 := congrArg Config.fHse h
  have hm : c.pllM = 25 := congrArg Config.pllM h
  have hn : c.pllN = 192 := congrArg Config.pllN h
  have hp : c.pllP = 2 := congrArg Config.pllP h
  have hcore : c.fCore = 96000000 := by rw [Config.fCore, Config.fVco, hhse, hm, hn, hp]
  refine ⟨hcore, ?_⟩
  rw [Config.fwp, hcore, Config.closedDefault_wsTable h]
  decide

/-- Its internal oscillator runs at 16 MHz, for which the flash needs no wait-state (rules R7, R142). -/
theorem Config.closedDefault_hsi (h : c.closedDefault) : c.fHsi = 16000000 ∧ c.fwp c.fHsi = some 0 := by
  have hhsi : c.fHsi = 16000000 := congrArg Config.fHsi h
  refine ⟨hhsi, ?_⟩
  rw [Config.fwp, hhsi, Config.closedDefault_wsTable h]
  decide

/-- Its bus maxima, and the divisions of steps 6 and 9 (rules R7, R168, R171). -/
theorem Config.closedDefault_buses (h : c.closedDefault) :
    (c.fApb1Max = 50000000 ∧ c.fApb2Max = 100000000) ∧ c.ppreMaxDiv = 16 ∧ c.ppre1Final = 2 :=
  ⟨⟨congrArg Config.fApb1Max h, congrArg Config.fApb2Max h⟩, congrArg Config.ppreMaxDiv h, congrArg Config.ppre1Final h⟩

theorem Config.closedDefault_entries (h : c.closedDefault) : c.initEntry = 0#5 ∧ c.delayEntry = 24#5 :=
  ⟨congrArg Config.initEntry h, congrArg Config.delayEntry h⟩

theorem Config.closedDefault_bind (h : c.closedDefault) : ∃ t, c.bind = Bind.stm32f411 t := ⟨_, congrArg Config.bind h⟩

/-- The wait-states of address 6 (rules R143, R153). -/
theorem Config.get_flashValue (h : c.bind.wf = true) :
    c.bind.latency.get c.flashValue = BitVec.ofNat 4 ((c.fwp c.fCore).getD 0) := by
  simp only [Bind.wf, disjointMasks, List.all_cons, List.all_nil, Bool.and_eq_true, decide_eq_true_eq] at h
  simp only [Config.flashValue, BitField.encNat, BitField.get_or, BitField.get_enc, BitField.get_enc_apart, h]
  simp

/-- The code of bus 1 in a divider write (rules R112, R168, R171). -/
theorem Config.get_ppreValue (h : c.bind.wf = true) (d1 d2 : Nat) :
    c.bind.ppre1.get (c.ppreValue d1 d2) = (ppreCode d1).getD 0 := by
  have hf := Bind.clockFields h
  simp only [Config.ppreValue, BitField.get_or, BitField.get_enc hf.ppre1_fits,
    BitField.get_enc_apart hf.ppre1_fits hf.ppre1_ppre2]
  simp

/-- The mask of a one-bit field is the bit set. -/
theorem BitField.mask_eq_enc (f : BitField 1) : f.mask = f.enc 1#1 := rfl

/-- A field whose masked bits are those of an encoded value holds the value. -/
theorem BitField.get_of_masked {k : Nat} {f : BitField k} {w : Word} {v : BitVec k} (hf : f.fits = true)
    (h : w &&& f.mask = f.enc v) : f.get w = v := by
  rw [← BitField.get_enc hf v, ← h]
  refine f.get_eq_of_agree f.mask _ _ (BitVec.and_not_self _) ?_
  rw [BitVec.and_assoc, BitVec.and_self]

end

end Sys2Proof

namespace Sys2Proof.Machine

/-! ## The lines of the INIT program -/

/-- The write phase of `RMW r, a, b`, with `x[1]` still showing the bits of `r` that only SEQ writes. -/
structure RmwWrite (r : RegId) (a b : Word) (s t : State) : Prop where
  write : WriteOf r (s.seq.rd &&& ~~~a ||| b) s t
  shown : s.seq.rd &&& ~~~s.cfg.roMask r = s.regRead r &&& ~~~s.cfg.roMask r
  within : b &&& ~~~a = 0

/-- Masked replacement of a word read some time ago: `g` is the word held, `n` the bits the register has, `m` those the
write reaches, `o` those only the environment changes, and `x` shows the others as they still are. -/
theorem replace_stored {g n m o x a b : Word} (hmn : m &&& ~~~n = 0) (hmo : m &&& o = 0)
    (hx : x &&& ~~~o = (g &&& n) &&& ~~~o) (ham : a &&& ~~~m = 0) (hba : b &&& ~~~a = 0) :
    (x &&& ~~~a ||| b) &&& m ||| g &&& ~~~m = g &&& ~~~a ||| b := by
  ext i hi
  have bmn := congrArg (fun w => w.getLsbD i) hmn
  have bmo := congrArg (fun w => w.getLsbD i) hmo
  have bx := congrArg (fun w => w.getLsbD i) hx
  have bam := congrArg (fun w => w.getLsbD i) ham
  have bba := congrArg (fun w => w.getLsbD i) hba
  simp [hi] at bmn bmo bx bam bba ⊢
  grind

section

variable {s t : State} {r : RegId} {a b : Word} {k : Nat} {f : BitField k}

/-- RMW replaces the masked bits of the word held, whatever the environment has moved since the read (rule R131). -/
theorem RmwWrite.stored (h : RmwWrite r a b s t) (hb : s.cfg.bind.wf = true) (hr : r ≠ .timEgr)
    (hnow : s.rwNow r = s.cfg.rwMask r) (ha : a &&& ~~~s.cfg.rwMask r = 0) :
    t.regs.get r = s.regs.get r &&& ~~~a ||| b := by
  rw [h.write.get_same hr, State.storedWord, hnow]
  exact replace_stored (s.cfg.rwMask_within_impl r) (s.cfg.rw_ro_apart hb r) h.shown ha h.within

/-- A field apart from the mask is kept. -/
theorem RmwWrite.field_apart (h : RmwWrite r a b s t) (hb : s.cfg.bind.wf = true) (hr : r ≠ .timEgr)
    (hpll : r ≠ .rccPllcfgr) (ha : a &&& ~~~s.cfg.rwMask r = 0) (hf : a &&& f.mask = 0) :
    f.get (t.regs.get r) = f.get (s.regs.get r) := by
  rw [h.stored hb hr (s.rwNow_eq hpll) ha, BitField.get_replace_apart hf h.within]

/-- A field within the mask takes the value. -/
theorem RmwWrite.field_within (h : RmwWrite r a b s t) (hb : s.cfg.bind.wf = true) (hr : r ≠ .timEgr)
    (hpll : r ≠ .rccPllcfgr) (ha : a &&& ~~~s.cfg.rwMask r = 0) (hf : f.mask &&& ~~~a = 0) :
    f.get (t.regs.get r) = f.get b := by
  rw [h.stored hb hr (s.rwNow_eq hpll) ha, BitField.get_replace_within hf h.within]

/-- A one-bit field of `RCC_CR` apart from the mask is kept. -/
theorem RmwWrite.bit_apart {g : BitField 1} (h : RmwWrite .rccCr a b s t) (hb : s.cfg.bind.wf = true)
    (ha : a &&& ~~~s.cfg.rwMask .rccCr = 0) (hg : g.mask &&& a = 0) :
    isSet g t.regs.rccCr = isSet g s.regs.rccCr := by
  have hget : g.get t.regs.rccCr = g.get s.regs.rccCr :=
    h.field_apart hb (by decide) (by decide) ha ((BitVec.and_comm _ _).trans hg)
  rw [isSet, isSet, hget]

/-- Step 2 turns the external oscillator on (rule R164). -/
theorem RmwWrite.hseon_clockKept (h : RmwWrite .rccCr s.cfg.bind.hseon.mask s.cfg.bind.hseon.mask s t)
    (hb : s.cfg.bind.wf = true) : ClockKept s t := by
  have hf := Bind.clockFields hb
  obtain ⟨⟨-, ha, -⟩, -⟩ := rwMask_fields s.cfg
  refine h.write.clockKept_rccCr hb (.inl ?_) (.inl ?_)
  · rw [State.pllOn, h.write.cfg]
    exact h.bit_apart hb ha hf.pllon_hseon
  · rw [State.hsiOn, h.write.cfg]
    exact h.bit_apart hb ha hf.hsion_hseon

/-- Step 3 configures the PLL, or finds it on and configured (rules R165, R280). -/
theorem RmwWrite.pllConfigured (h : RmwWrite .rccPllcfgr s.cfg.pllMask s.cfg.pllValue s t) (hb : s.cfg.bind.wf = true)
    (hs : s.pllOn = true → s.pllConfigured) : t.pllConfigured := by
  obtain ⟨-, -, -, ha⟩ := rwMask_fields s.cfg
  rw [State.pllConfigured, h.write.cfg]
  cases hon : s.pllOn with
  | true =>
    have hkept : t.regs.rccPllcfgr = s.regs.rccPllcfgr :=
      (h.write.get_same (by decide)).trans (s.storedWord_none _ _ (if_pos ⟨rfl, hon⟩))
    rw [hkept]
    exact hs hon
  | false =>
    have hnow : s.rwNow .rccPllcfgr = s.cfg.rwMask .rccPllcfgr := if_neg (by simp [hon])
    have hstored : t.regs.rccPllcfgr = s.regs.rccPllcfgr &&& ~~~s.cfg.pllMask ||| s.cfg.pllValue :=
      h.stored hb (by decide) hnow ha
    rw [hstored, replace_and_mask h.within]

/-- Step 4 turns the configured PLL on (rule R166). -/
theorem RmwWrite.pllon_on (h : RmwWrite .rccCr s.cfg.bind.pllon.mask s.cfg.bind.pllon.mask s t)
    (hb : s.cfg.bind.wf = true) : t.pllOn = true := by
  have hf := Bind.clockFields hb
  obtain ⟨⟨-, -, ha⟩, -⟩ := rwMask_fields s.cfg
  have hget : s.cfg.bind.pllon.get t.regs.rccCr = 1#1 := by
    refine (h.field_within hb (by decide) (by decide) ha (BitVec.and_not_self _)).trans ?_
    rw [BitField.mask_eq_enc, BitField.get_enc hf.pllon_fits]
  rw [State.pllOn, h.write.cfg, isSet, hget]
  rfl

/-- That it was configured before is what allows it (rule R165). -/
theorem RmwWrite.pllon_clockKept (h : RmwWrite .rccCr s.cfg.bind.pllon.mask s.cfg.bind.pllon.mask s t)
    (hb : s.cfg.bind.wf = true) (hs : s.pllConfigured) : ClockKept s t := by
  have hf := Bind.clockFields hb
  obtain ⟨⟨-, -, ha⟩, -⟩ := rwMask_fields s.cfg
  refine h.write.clockKept_rccCr hb (.inr ⟨h.pllon_on hb, hs⟩) (.inl ?_)
  rw [State.hsiOn, h.write.cfg]
  exact h.bit_apart hb ha hf.hsion_pllon

/-- Step 5 programs three wait-states (rule R167). -/
theorem RmwWrite.flash_latency (h : RmwWrite .flashAcr s.cfg.flashMask s.cfg.flashValue s t)
    (hb : s.cfg.bind.wf = true) (hcd : s.cfg.closedDefault) : t.latency = 3#4 := by
  obtain ⟨-, hfwp⟩ := Config.closedDefault_core hcd
  obtain ⟨-, -, ha, -⟩ := rwMask_fields s.cfg
  have hwithin : s.cfg.bind.latency.mask &&& ~~~s.cfg.flashMask = 0 := by
    unfold Config.flashMask
    ext i hi; simp; grind
  have hget : s.cfg.bind.latency.get t.regs.flashAcr = 3#4 := by
    refine (h.field_within hb (by decide) (by decide) ha hwithin).trans ?_
    rw [Config.get_flashValue hb, hfwp]
    rfl
  rw [State.latency, h.write.cfg, hget]

/-- Steps 6 and 9 program the bus dividers and leave the switch (rules R168, R171). -/
theorem RmwWrite.ppre_fields {d1 d2 : Nat} (h : RmwWrite .rccCfgr s.cfg.ppreMask (s.cfg.ppreValue d1 d2) s t)
    (hb : s.cfg.bind.wf = true) : t.ppre .one = (ppreCode d1).getD 0 ∧ t.sw = s.sw := by
  have hf := Bind.clockFields hb
  obtain ⟨-, ⟨-, ha⟩, -⟩ := rwMask_fields s.cfg
  have hwithin : s.cfg.bind.ppre1.mask &&& ~~~s.cfg.ppreMask = 0 := by
    unfold Config.ppreMask
    ext i hi; simp; grind
  have hapart : s.cfg.ppreMask &&& s.cfg.bind.sw.mask = 0 := by
    rw [Config.ppreMask, BitVec.and_or_distrib_right, hf.ppre1_sw, hf.ppre2_sw]
    rfl
  have hppre : s.cfg.bind.ppre1.get t.regs.rccCfgr = (ppreCode d1).getD 0 :=
    (h.field_within hb (by decide) (by decide) ha hwithin).trans (Config.get_ppreValue hb d1 d2)
  have hsw : s.cfg.bind.sw.get t.regs.rccCfgr = s.cfg.bind.sw.get s.regs.rccCfgr :=
    h.field_apart hb (by decide) (by decide) ha hapart
  rw [State.ppre, State.sw, h.write.cfg]
  exact ⟨hppre, hsw⟩

theorem RmwWrite.ppre_clockKept {d1 d2 : Nat} (h : RmwWrite .rccCfgr s.cfg.ppreMask (s.cfg.ppreValue d1 d2) s t)
    (hb : s.cfg.bind.wf = true) (hd : slowBus1 ((ppreCode d1).getD 0)) (hseen : s.scan.seen = true) :
    ClockKept s t := by
  obtain ⟨hppre, hsw⟩ := h.ppre_fields hb
  exact h.write.clockKept_rccCfgr hb (fun _ => hppre ▸ hd) (.inl hsw) hseen

/-- Step 7 selects the PLL and leaves the bus dividers (rule R169). -/
theorem RmwWrite.sw_fields (h : RmwWrite .rccCfgr s.cfg.bind.sw.mask (s.cfg.bind.sw.encNat 2) s t)
    (hb : s.cfg.bind.wf = true) : t.sw = swPll ∧ t.ppre .one = s.ppre .one := by
  have hf := Bind.clockFields hb
  obtain ⟨-, ⟨ha, -⟩, -⟩ := rwMask_fields s.cfg
  have hsw : s.cfg.bind.sw.get t.regs.rccCfgr = swPll :=
    (h.field_within hb (by decide) (by decide) ha (BitVec.and_not_self _)).trans (BitField.get_enc hf.sw_fits _)
  have hppre : s.cfg.bind.ppre1.get t.regs.rccCfgr = s.cfg.bind.ppre1.get s.regs.rccCfgr :=
    h.field_apart hb (by decide) (by decide) ha hf.sw_ppre1
  rw [State.ppre, State.sw, h.write.cfg]
  exact ⟨hsw, hppre⟩

theorem RmwWrite.sw_clockKept (h : RmwWrite .rccCfgr s.cfg.bind.sw.mask (s.cfg.bind.sw.encNat 2) s t)
    (hb : s.cfg.bind.wf = true) (hready : s.SwitchReady) (hseen : s.scan.seen = true) : ClockKept s t := by
  obtain ⟨hsw, hppre⟩ := h.sw_fields hb
  exact h.write.clockKept_rccCfgr hb (fun hs => hppre ▸ hs) (.inr ⟨hsw, hready⟩) hseen

/-- Step 8 stops the internal oscillator, which the PLL has taken over from (rule R170). -/
theorem RmwWrite.hsion_clockKept (h : RmwWrite .rccCr s.cfg.bind.hsion.mask 0 s t) (hb : s.cfg.bind.wf = true)
    (hs : s.sws = swPll) : ClockKept s t := by
  have hf := Bind.clockFields hb
  obtain ⟨⟨ha, -⟩, -⟩ := rwMask_fields s.cfg
  refine h.write.clockKept_rccCr hb (.inl ?_) (.inr hs)
  rw [State.pllOn, h.write.cfg]
  exact h.bit_apart hb ha hf.pllon_hsion

/-- A write of a register outside the clock tree. -/
theorem WriteOf.clockKept_outside {v : Word} (h : WriteOf r v s t)
    (hr : r ∉ [RegId.rccCr, .rccPllcfgr, .rccCfgr, .flashAcr]) : ClockKept s t := by
  simp only [List.mem_cons, List.not_mem_nil, or_false, not_or] at hr
  obtain ⟨hcr, hpll, hcfgr, hflash⟩ := hr
  exact h.clockKept_other hcr hcfgr (absurd · hpll) (absurd · hflash)

end

section

variable {s t : State} {r : RegId} {a b : Word} {n : Nat}

/-- Each RMW of the INIT program brings what the next address counts on (rules R150, R163 to R173); SEQ has the step, so
the divider in effect is the one programmed. -/
theorem RmwWrite.reached (h : RmwWrite r a b s t) (hb : s.cfg.bind.wf = true) (hcd : s.cfg.closedDefault)
    (hi : s.cfg.initProgram[n]? = some (.rmw r a b)) (hs : s.Reached n) (heff : s.effPpre .one = s.ppre .one) :
    t.Reached (n + 1) := by
  obtain ⟨-, hmax, hfinal⟩ := Config.closedDefault_buses hcd
  obtain ⟨-, -, -, -, -, -, hconf⟩ := hs.clock
  match n, hi with
  | 0, rfl => exact ((h.write.clockKept_outside (by decide)).reached hs).succ trivial
  | 1, rfl => exact ((h.hseon_clockKept hb).reached hs).succ trivial
  | 3, rfl =>
    have hpll := h.pllConfigured hb hconf
    exact ((h.write.clockKept_other (by decide) (by decide) (fun _ => hpll) nofun).reached hs).succ hpll
  | 4, rfl =>
    have hon := h.pllon_on hb
    exact ((h.pllon_clockKept hb (hs.gained 4 le_rfl)).reached hs).succ ⟨hon, h.write.scan_pllon.trans hon⟩
  | 6, rfl =>
    have hlat := h.flash_latency hb hcd
    exact ((h.write.clockKept_other (by decide) (by decide) nofun fun _ => hlat).reached hs).succ hlat
  | 7, rfl =>
    have hd : slowBus1 ((ppreCode s.cfg.ppreMaxDiv).getD 0) := by rw [hmax]; exact .inl rfl
    have hseen : s.Gained 6 := hs.gained 6 (by decide)
    have hslow : slowBus1 (t.ppre .one) := (h.ppre_fields hb).1 ▸ hd
    exact ((h.ppre_clockKept hb hd hseen.2).reached hs).succ hslow
  | 8, rfl =>
    have hon : s.Gained 5 := hs.gained 5 (by decide)
    have hseen : s.Gained 6 := hs.gained 6 (by decide)
    have hslow : s.Gained 8 := hs.gained 8 le_rfl
    have hready : s.SwitchReady := ⟨hon.1, hseen.1, hs.gained 7 (by decide), hslow, heff ▸ hslow⟩
    exact ((h.sw_clockKept hb hready hseen.2).reached hs).succ (h.sw_fields hb).1
  | 10, rfl => exact ((h.hsion_clockKept hb (hs.gained 10 le_rfl)).reached hs).succ trivial
  | 12, rfl =>
    have hd : slowBus1 ((ppreCode s.cfg.ppre1Final).getD 0) := by rw [hfinal]; exact .inr rfl
    have hseen : s.Gained 6 := hs.gained 6 (by decide)
    exact ((h.ppre_clockKept hb hd hseen.2).reached hs).succ trivial
  | 13, rfl => exact ((h.write.clockKept_outside (by decide)).reached hs).succ trivial
  | 14, rfl => exact ((h.write.clockKept_outside (by decide)).reached hs).succ trivial
  | 16, rfl => exact ((h.write.clockKept_outside (by decide)).reached hs).succ trivial
  | _ + 19, hi => nomatch hi

end

end Sys2Proof.Machine
end

section

namespace Sys2Proof.Machine

section

variable {s t : State} {r : RegId} {a b : Word} {n : Nat} {i : Instr}

/-- Each satisfied poll of the INIT program brings what the next address counts on (rules R164, R166, R169, R170). -/
theorem ReadOf.reached_poll (h : ReadOf r s t) (hb : s.cfg.bind.wf = true)
    (hi : s.cfg.initProgram[n]? = some (.pollEq r a b)) (hmet : s.regRead r &&& a = b) (hs : s.Reached n) :
    t.Reached (n + 1) := by
  have hkept := h.clockKept.reached hs
  obtain ⟨hcr, hcfgr⟩ := s.regRead_full
  match n, hi with
  | 2, rfl => exact hkept.succ trivial
  | 5, rfl =>
    obtain ⟨⟨-, -, hfits⟩, -⟩ := s.cfg.bind.flags_apart hb
    have hget : s.cfg.bind.pllrdy.get s.regs.rccCr = 1#1 := BitField.get_of_masked hfits (hcr ▸ hmet)
    have hlocked : s.pllLocked = true := decide_eq_true hget
    exact hkept.succ ⟨h.clockKept.cr.locked hlocked, by simp [h.scan_rccCr, hlocked]⟩
  | 9, rfl =>
    obtain ⟨-, hfits, -⟩ := s.cfg.bind.switch_apart hb
    have hsws : s.sws = swPll := BitField.get_of_masked hfits (hcfgr ▸ hmet)
    have hsws' : t.sws = swPll := by rwa [State.sws, h.cfg, h.regs]
    exact hkept.succ hsws'
  | 11, rfl => exact hkept.succ trivial
  | _ + 19, hi => nomatch hi

/-- The two WR of the INIT program write outside the clock tree (rules R172, R174). -/
theorem WriteOf.reached_wr {v : Word} (h : WriteOf r v s t) (hi : s.cfg.initProgram[n]? = some (.wr r v))
    (hs : s.Reached n) : t.Reached (n + 1) := by
  match n, hi with
  | 15, rfl => exact ((h.clockKept_outside (by decide)).reached hs).succ trivial
  | 17, rfl => exact ((h.clockKept_outside (by decide)).reached hs).succ trivial
  | _ + 19, hi => nomatch hi

/-! ## SEQ runs the block's own programs -/

/-- The DELAY program has neither RMW nor POLLEQ, and its WR re-arms the counter (rule R205). -/
theorem mem_delayProgram (h : i ∈ delayProgram) : i = .wr .timEgr 1#32 ∨ i = .pollGe .timCnt ∨ i = .endProg := by
  simpa [delayProgram] using h

/-- What SEQ fetches is the line at `upc` of the program `upc` stands in (rules R61, R150). -/
theorem State.fetched (hcd : s.cfg.closedDefault) (hrom : s.OwnRom) (hin : s.InPrograms)
    (hd : decodeMicroOp s.fetch = .ok i) :
    (s.seq.upc.toNat ≤ 18 ∧ s.cfg.initProgram[s.seq.upc.toNat]? = some i) ∨
    (24 ≤ s.seq.upc.toNat ∧ delayProgram[s.seq.upc.toNat - 24]? = some i) := by
  obtain ⟨hwf, hrom⟩ := hrom
  obtain ⟨hinit, hdelay⟩ := Config.closedDefault_entries hcd
  obtain ⟨-, -, hlayout, -⟩ := s.cfg.wf_parts hwf
  obtain ⟨rdInit, rdDelay, -⟩ := Config.read_rom hlayout s.seq.upc
  rw [hinit] at rdInit
  rw [hdelay] at rdDelay
  rw [State.fetch, hrom] at hd
  have own {j : Instr} (hj : j.wf = true ∧ j.isMicroOp = true) (hf : Rom.read s.cfg.rom s.seq.upc = uopBits j) :
      j = i := by
    rw [hf, decodeMicroOp_uopBits hj.1 hj.2] at hd
    exact Except.ok.inj hd
  obtain hle | ⟨hge, hle⟩ := hin
  · have hj : s.cfg.initProgram[s.seq.upc.toNat]? = some (s.cfg.initProgram[s.seq.upc.toNat]'(Nat.lt_succ_of_le hle)) :=
      List.getElem?_eq_getElem _
    rw [own (s.cfg.initProgram_wf _ (List.getElem_mem _)) (rdInit _ _ hj (by simp))] at hj
    exact .inl ⟨hle, hj⟩
  · have hlt : s.seq.upc.toNat - 24 < delayProgram.length := by
      change _ < 3
      omega
    have hj := List.getElem?_eq_getElem hlt
    have hwfd : ∀ j ∈ delayProgram, j.wf = true ∧ j.isMicroOp = true := by decide
    rw [own (hwfd _ (List.getElem_mem _)) (rdDelay _ _ hj (by simp; omega))] at hj
    exact .inr ⟨hge, hj⟩

/-- A move that leaves `upc` and undoes nothing keeps the invariant, if a program that goes on running finds `x[1]` as
it must be. -/
theorem State.InitInv.stay (hs : s.InitInv) (hc : t.cfg = s.cfg) (hrom : t.rom = s.rom)
    (hupc : t.seq.upc = s.seq.upc) (hk : ClockKept s t)
    (hrun : t.seq.mode = .run → s.seq.mode = .run ∧ (s.PhaseInv → t.PhaseInv)) : t.InitInv := by
  rw [State.initInv_iff] at hs ⊢
  obtain ⟨hcd, hown, h0, hprog⟩ := hs
  rw [State.OwnRom, State.InPrograms, hc, hrom, hupc]
  refine ⟨hcd, hown, hk.reached h0, fun hm => ?_⟩
  obtain ⟨hms, hphase⟩ := hrun hm
  obtain ⟨hin, hinit, hp⟩ := hprog hms
  exact ⟨hin, fun hle => hk.reached (hinit hle), hphase hp⟩

/-- In the read phase `x[1]` need show nothing. -/
theorem State.PhaseInv.of_read (h : s.seq.phase = .read) : s.PhaseInv := fun hw => by simp [h] at hw

/-- A program's last line is END, so a micro-op that advances stays in its program. -/
theorem upc_succ_inPrograms (hend : i ≠ .endProg)
    (hf : (s.seq.upc.toNat ≤ 18 ∧ s.cfg.initProgram[s.seq.upc.toNat]? = some i) ∨
      (24 ≤ s.seq.upc.toNat ∧ delayProgram[s.seq.upc.toNat - 24]? = some i)) :
    s.seq.upc.toNat + 1 ≤ 18 ∨ (24 ≤ s.seq.upc.toNat + 1 ∧ s.seq.upc.toNat + 1 ≤ 26) := by
  obtain ⟨hle, hi⟩ | ⟨hge, hi⟩ := hf
  · have hne : s.seq.upc.toNat ≠ 18 := fun he => by
      rw [he] at hi
      exact hend (Option.some.inj hi).symm
    omega
  · have hlt : s.seq.upc.toNat - 24 < 3 := (List.getElem?_eq_some_iff.mp hi).1
    have hne : s.seq.upc.toNat - 24 ≠ 2 := fun he => by
      rw [he] at hi
      exact hend (Option.some.inj hi).symm
    omega

/-- A micro-op that advances keeps the invariant, if it brings what the next address of the INIT program counts on, and
in the DELAY program undoes nothing. -/
theorem State.InitInv.advance (hs : s.InitInv) (hm : s.seq.mode = .run) (hd : decodeMicroOp s.fetch = .ok i)
    (hend : i ≠ .endProg) (hc : t.cfg = s.cfg) (hrom : t.rom = s.rom) (hupc : t.seq.upc = s.seq.upc + 1#5)
    (hphase : t.seq.phase = .read)
    (hinit : ∀ n, s.cfg.initProgram[n]? = some i → s.Reached n → t.Reached (n + 1))
    (hdelay : i ∈ delayProgram → ClockKept s t) : t.InitInv := by
  rw [State.initInv_iff] at hs ⊢
  obtain ⟨hcd, hown, h0, hprog⟩ := hs
  obtain ⟨hin, hreached, -⟩ := hprog hm
  have hf := State.fetched hcd hown hin hd
  have hnext := upc_succ_inPrograms hend hf
  have hto : t.seq.upc.toNat = s.seq.upc.toNat + 1 := by
    rw [hupc]
    exact RomAddr.toNat_add_ofNat _ (by omega)
  rw [State.OwnRom, State.InPrograms, hc, hrom, hto]
  obtain ⟨hle, hi⟩ | ⟨hge, hi⟩ := hf
  · have ht := hinit _ hi (hreached hle)
    exact ⟨hcd, hown, ht.mono (Nat.zero_le _), fun _ => ⟨hnext, fun _ => ht, .of_read hphase⟩⟩
  · have ht := (hdelay (List.mem_of_getElem? hi)).reached h0
    exact ⟨hcd, hown, ht, fun _ => ⟨hnext, fun hle => by omega, .of_read hphase⟩⟩

/-- SEQ has a step only when every divider in effect is the one programmed (rules R77, R130). -/
theorem State.settled_of_seqReady (h : s.seqReady = true) : s.seq.mode = .run ∧ s.effPpre .one = s.ppre .one := by
  simp only [State.seqReady, Bool.and_eq_true, Bool.not_eq_true', decide_eq_true_eq] at h
  obtain ⟨⟨⟨hm, -⟩, hdiv⟩, -⟩ := h
  simp only [State.divEnabled, Bool.or_eq_false_iff] at hdiv
  exact ⟨hm, not_not.mp (of_decide_eq_false hdiv.1)⟩

/-- A micro-op other than RMW runs in the read phase (rule R25). -/
theorem State.PhaseInv.phase_read (h : s.PhaseInv) (hd : decodeMicroOp s.fetch = .ok i) (hi : ∀ r a b, i ≠ .rmw r a b) :
    s.seq.phase = .read := by
  cases hp : s.seq.phase with
  | read => rfl
  | write =>
    obtain ⟨r, a, b, hd', -⟩ := h hp
    exact absurd (Except.ok.inj (hd.symm.trans hd')) (hi r a b)

theorem State.InitInv.bind_wf (hs : s.InitInv) : s.cfg.bind.wf = true := by
  obtain ⟨-, hwf, -⟩ := hs
  obtain ⟨-, -, -, hb⟩ := s.cfg.wf_parts hwf
  exact hb

theorem execRmw_initInv (hs : s.InitInv) (hready : s.seqReady = true) (hd : decodeMicroOp s.fetch = .ok (.rmw r a b))
    (h : execRmw r a b s = .next t) : t.InitInv := by
  obtain ⟨hm, heff⟩ := State.settled_of_seqReady hready
  obtain ⟨hcd, -, -, hprog⟩ := s.initInv_iff.mp hs
  obtain ⟨-, -, hphase⟩ := hprog hm
  have hb := hs.bind_wf
  obtain ⟨hwf, ⟨-, rfl⟩ | ⟨hp, -, rfl⟩⟩ := execRmw_next r a b s t h
  · exact hs.stay rfl rfl rfl (s.readOf r _).clockKept fun _ => ⟨hm, fun _ _ => ⟨r, a, b, hd, rfl⟩⟩
  · obtain ⟨r', a', b', hd', hshown⟩ := hphase hp
    obtain ⟨rfl, rfl, rfl⟩ := Instr.rmw.inj (Except.ok.inj (hd.symm.trans hd'))
    simp only [Instr.wf, Bool.and_eq_true, decide_eq_true_eq] at hwf
    refine hs.advance hm hd nofun (by simp [State.writeReg]) (by simp [State.writeReg]) rfl rfl (fun n hi hn => ?_)
      fun hmem => by simpa using mem_delayProgram hmem
    exact RmwWrite.reached ⟨s.writeOf r _ _, hshown, hwf.2⟩ hb hcd hi hn heff

theorem execWr_initInv (hs : s.InitInv) (hm : s.seq.mode = .run) (hphase : s.seq.phase = .read)
    (hd : decodeMicroOp s.fetch = .ok (.wr r b)) (h : execWr r b s = .next t) : t.InitInv := by
  obtain ⟨-, -, rfl⟩ := execWr_next r b s t h
  have hwrite := s.writeOf r b { s.seq with upc := s.seq.upc + 1#5 }
  refine hs.advance hm hd nofun hwrite.cfg (by simp [State.writeReg]) rfl hphase
    (fun n hi hn => hwrite.reached_wr hi hn) fun hmem => ?_
  obtain ⟨rfl, -⟩ : r = .timEgr ∧ b = 1#32 := by simpa using mem_delayProgram hmem
  exact hwrite.clockKept_outside (by decide)

theorem execPollEq_initInv (hs : s.InitInv) (hm : s.seq.mode = .run) (hphase : s.seq.phase = .read)
    (hd : decodeMicroOp s.fetch = .ok (.pollEq r a b)) (h : execPollEq r a b s = .next t) : t.InitInv := by
  have hb := hs.bind_wf
  obtain ⟨-, ⟨hmet, -, rfl⟩ | ⟨-, rfl⟩⟩ := execPollEq_next r a b s t h
  · refine hs.advance hm hd nofun rfl rfl rfl hphase (fun n hi hn => ?_)
      fun hmem => by simpa using mem_delayProgram hmem
    exact (s.readOf r _).reached_poll hb hi hmet hn
  · obtain ⟨hc, hrom, hregs, hhid, -⟩ := (s.readReg r).pollAgain_frame
    obtain ⟨hupc, -, -, hph, -⟩ := (s.readReg r).pollAgain_seq
    obtain ⟨new, hq, -, hev⟩ := (s.readReg r).pollAgain_events
    have hread : ReadOf r s (s.readReg r).pollAgain := ⟨hc, hregs, hhid, new, hq, hev⟩
    exact hs.stay hc hrom hupc hread.clockKept fun _ => ⟨hm, fun _ => .of_read (hph.trans hphase)⟩

theorem execPollGe_initInv (hs : s.InitInv) (hm : s.seq.mode = .run) (hphase : s.seq.phase = .read)
    (hd : decodeMicroOp s.fetch = .ok (.pollGe r)) (h : execPollGe r s = .next t) : t.InitInv := by
  obtain ⟨-, ⟨-, -, rfl⟩ | ⟨-, rfl⟩⟩ := execPollGe_next r s t h
  · refine hs.advance hm hd nofun rfl rfl rfl hphase (fun n hi _ => ?_) fun _ => (s.readOf r _).clockKept
    have hmem : (.pollGe r) ∈ s.cfg.initProgram := List.mem_of_getElem? hi
    simp [Config.initProgram, setb, clrb, wrf, waitset, waitclr, waiteq] at hmem
  · exact hs.stay rfl rfl rfl (s.readOf r _).clockKept fun _ => ⟨hm, fun _ => .of_read hphase⟩

/-- After END no program runs. -/
theorem execEndProg_initInv (hs : s.InitInv) (h : execEndProg s = .next t) : t.InitInv := by
  simp only [execEndProg, Host.Outcome.next.injEq] at h
  subst h
  exact hs.stay rfl rfl rfl (.of_sameRegs rfl rfl rfl (.of_scan (State.scan_cons rfl rfl fun _ _ => rfl))) nofun

theorem seqTurn_initInv (hs : s.InitInv) (h : s.seqTurn = .next t) : t.InitInv := by
  obtain ⟨-, rfl⟩ | ⟨hready, hx⟩ := seqTurn_next s t h
  · exact hs
  obtain ⟨hm, -⟩ := State.settled_of_seqReady hready
  obtain ⟨-, -, -, hprog⟩ := s.initInv_iff.mp hs
  obtain ⟨-, -, hphase⟩ := hprog hm
  obtain ⟨r, a, b, hd, he⟩ | ⟨r, b, hd, he⟩ | ⟨r, a, b, hd, he⟩ | ⟨r, hd, he⟩ | ⟨-, he⟩ := hx
  · exact execRmw_initInv hs hready hd he
  · exact execWr_initInv hs hm (hphase.phase_read hd nofun) hd he
  · exact execPollEq_initInv hs hm (hphase.phase_read hd nofun) hd he
  · exact execPollGe_initInv hs hm (hphase.phase_read hd nofun) hd he
  · exact execEndProg_initInv hs he

/-! ## The other moves -/

/-- A move that leaves the sequencer, and the bits SEQ writes, keeps the invariant. -/
theorem State.InitInv.of_kept (hs : s.InitInv) (hc : t.cfg = s.cfg) (hrom : t.rom = s.rom) (hseq : t.seq = s.seq)
    (hk : ClockKept s t) (hrw : RwKept s t) : t.InitInv := by
  refine hs.stay hc hrom (by rw [hseq]) hk fun hm => ⟨hseq ▸ hm, fun hp hw => ?_⟩
  obtain ⟨r, a, b, hd, hshown⟩ := hp (hseq ▸ hw)
  have hwf : Instr.wf (.rmw r a b) = true := (decodeMicroOp_eq_ok_iff.mp hd).1
  simp only [Instr.wf, Bool.and_eq_true, decide_eq_true_eq] at hwf
  refine ⟨r, a, b, by rwa [State.fetch, hseq, hrom], ?_⟩
  have hread (u : State) : u.regRead r &&& ~~~s.cfg.roMask r =
      u.regs.get r &&& ~~~s.cfg.roMask r &&& u.cfg.implMask r := by
    rw [State.regRead, BitVec.and_assoc, BitVec.and_assoc, BitVec.and_comm (u.cfg.implMask r)]
  rw [hc, hseq, hshown, hread, hread, hrw r hwf.1, hc]

/-- A launch starts a program at its entry, where it counts on nothing (rules R221, R222). -/
theorem State.InitInv.launched (hs : s.InitInv) (hc : t.cfg = s.cfg) (hrom : t.rom = s.rom) (hk : ClockKept s t)
    (hupc : t.seq.upc = s.cfg.initEntry ∨ t.seq.upc = s.cfg.delayEntry) (hphase : t.seq.phase = .read) :
    t.InitInv := by
  rw [State.initInv_iff] at hs ⊢
  obtain ⟨hcd, hown, h0, -⟩ := hs
  obtain ⟨hinit, hdelay⟩ := Config.closedDefault_entries hcd
  have ht := hk.reached h0
  rw [State.OwnRom, State.InPrograms, hc, hrom]
  refine ⟨hcd, hown, ht, fun _ => ?_⟩
  obtain hupc | hupc := hupc
  · rw [hupc, hinit]
    exact ⟨by decide, fun _ => ht, .of_read hphase⟩
  · rw [hupc, hdelay]
    exact ⟨by decide, fun hle => absurd hle (by decide), .of_read hphase⟩

theorem takeTurn_initInv (hs : s.InitInv) (h : s.takeTurn = .next t) : t.InitInv := by
  have hk := takeTurn_clockKept h
  obtain ⟨hseq, ⟨hr, -⟩, hc, hrom, -⟩ := takeTurn_effect h
  obtain hseq | ⟨-, w, -, ⟨-, -, hseq⟩ | ⟨-, -, hseq⟩⟩ := hseq
  · exact hs.of_kept hc hrom hseq hk fun _ _ => by rw [hr]
  · exact hs.launched hc hrom hk (.inl (by rw [hseq]; rfl)) (by rw [hseq]; rfl)
  · exact hs.launched hc hrom hk (.inr (by rw [hseq]; rfl)) (by rw [hseq]; rfl)

/-- With the PLL off, the internal oscillator on and selected, and the core not divided, the clock tree is sound. -/
theorem State.ClockInv.of_hsi (hsw : s.sw = swHsi) (hsws : s.sws = swHsi)
    (hhpre : s.cfg.bind.hpre.get s.regs.rccCfgr = 0#4) (hon : s.hsiOn = true) (hpll : s.pllOn = false) :
    s.ClockInv := by
  have hne : swHsi ≠ swPll := by decide
  simp [State.ClockInv, hsw, hsws, hhpre, hon, hpll, hne]

/-- A reset of the register interface leaves the clock tree as `State.ClockInv.of_hsi` wants it, whatever `HSICAL`
holds (rules R31, R45, R272). -/
theorem State.clockInv_of_reset {v : BitVec 8} (hcd : s.cfg.closedDefault)
    (hcr : s.regs.rccCr = (Regs.reset s.cfg v).rccCr) (hcfgr : s.regs.rccCfgr = 0) : s.ClockInv := by
  obtain ⟨tim, hbind⟩ := Config.closedDefault_bind hcd
  have hbit (f : BitField 1) (hf : f.fits = true) (hapart : f.mask &&& (⟨8⟩ : BitField 8).mask = 0) :
      f.get s.regs.rccCr = f.get 0x83#32 := by
    rw [hcr, Regs.reset, hbind]
    exact f.get_put_apart _ hapart hf _ _
  have hhsion : (⟨0⟩ : BitField 1).get s.regs.rccCr = 1#1 := (hbit ⟨0⟩ rfl (by decide)).trans (by decide)
  have hpllon : (⟨24⟩ : BitField 1).get s.regs.rccCr ≠ 1#1 := by
    rw [hbit ⟨24⟩ rfl (by decide)]
    decide
  refine .of_hsi ?_ ?_ ?_ ?_ ?_
  · rw [State.sw, hcfgr, hbind]; rfl
  · rw [State.sws, hcfgr, hbind]; rfl
  · rw [hcfgr, hbind]; rfl
  · rw [State.hsiOn, hbind]; exact decide_eq_true hhsion
  · rw [State.pllOn, hbind]; exact decide_eq_false hpllon

/-- A reset of any kind keeps the clock tree sound: it leaves the registers, or they take their reset words (rules R270,
R272). -/
theorem State.ClockInv.assertReset (hs : s.ClockInv) (hcd : s.cfg.closedDefault) (k : ResetKind) :
    (s.assertReset k).ClockInv := by
  have hzero : s.cfg.bind.resetWord.rccCfgr = 0 := by
    obtain ⟨tim, hbind⟩ := Config.closedDefault_bind hcd
    rw [hbind]
    rfl
  cases k with
  | blockOnly => exact hs
  | system => exact State.clockInv_of_reset (s := s.assertReset .system) hcd rfl hzero
  | powerOn => exact State.clockInv_of_reset (s := s.assertReset .powerOn) hcd rfl hzero

theorem assertReset_initInv (hs : s.InitInv) (k : ResetKind) : (s.assertReset k).InitInv := by
  obtain ⟨hcd, hwf, hrom, hclock, -⟩ := hs
  exact ⟨hcd, hwf, hrom, hclock.assertReset hcd k, State.lockInv_of_no_events rfl, nofun⟩

/-- Every move keeps the invariant. -/
theorem runTurn_initInv {m : Turn} (hs : s.InitInv) (h : runTurn m s = .next t) : t.InitInv := by
  have hb := hs.bind_wf
  obtain ⟨hc, hrom⟩ := runTurn_fixed h
  have other (hseq : m ≠ .seq) (htake : m ≠ .take) (hreset : ∀ k, m ≠ .resetLow k) : t.InitInv := by
    obtain ⟨hq, hk, hrw⟩ := runTurn_kept h hb hseq htake hreset
    exact hs.of_kept hc hrom hq hk hrw
  cases m with
  | seq => exact seqTurn_initInv hs h
  | take => exact takeTurn_initInv hs h
  | resetLow k =>
    simp only [runTurn, Host.Outcome.next.injEq] at h
    exact h ▸ assertReset_initInv hs k
  | _ => exact other nofun nofun nofun

/-- The end of a pulse keeps the invariant, which does not speak of the ports. -/
theorem State.InitInv.begun (hs : s.InitInv) : s.begun.InitInv :=
  hs.of_kept (by simp) (by simp) (by simp)
    (.of_sameRegs (by simp) (by simp) (by simp) (.of_scan (by simp [State.scan]))) fun _ _ => by simp

end

/-- Settles O55: every move undoes nothing that the bring-up has reached, a micro-op that advances brings what the next
address counts on, and a reset leaves a sound clock tree and no program running. -/
theorem bringUpInvKept : Obligations.BringUpInvKept := by
  intro s t hs h
  obtain ⟨-, m, hrun, -⟩ := step_move h
  exact runTurn_initInv hs.begun hrun

end Sys2Proof.Machine
end

section

namespace Sys2Proof.Machine

/-! ## The bring-up is safe -/

section

variable {s : State}

/-- With the core undivided the core clock is the system clock (rule R161). -/
theorem State.fCore_eq_fSys (h : s.cfg.bind.hpre.get s.regs.rccCfgr = 0#4) : s.fCore = s.fSys := by
  rw [State.fCore, h]
  exact (quotient_exact (by decide) (Nat.mod_one _)).trans (Nat.div_one _)

/-- The core clock follows the switch status: the internal oscillator, or the PLL as configured and ready (rules R161,
R181). -/
theorem State.ClockInv.fCore_cases (h : s.ClockInv) (hcd : s.cfg.closedDefault) (hwf : s.cfg.wf = true) :
    (s.sws = swHsi ∧ s.fCore = 16000000) ∨ (s.sws = swPll ∧ s.fCore = 96000000 ∧ s.SwitchReady) := by
  obtain ⟨-, hsws, hfollow, hready, hhpre, -, hconf⟩ := h
  obtain ⟨hcore, -⟩ := Config.closedDefault_core hcd
  obtain ⟨hhsi, -⟩ := Config.closedDefault_hsi hcd
  rw [State.fCore_eq_fSys hhpre, State.fSys]
  obtain hsws | hsws := hsws
  · exact .inl ⟨hsws, by rw [if_pos hsws, hhsi]⟩
  · have hsw := hready (hfollow hsws)
    have hpll : s.fPll = s.cfg.fCore := pllRunsAtProgrammedFrequency s hwf (hconf hsw.1)
    refine .inr ⟨hsws, ?_, hsw⟩
    rw [hsws, if_neg (by decide), if_neg (by decide), if_pos rfl, hpll, hcore]

/-- Every division is at least 1 (rule R112). -/
theorem one_le_ppreDiv (code : BitVec 3) : 1 ≤ ppreDiv code := by
  revert code
  decide

/-- A slow bus 1 is divided by at least 2 (rules R112, R171). -/
theorem two_le_ppreDiv {code : BitVec 3} (h : slowBus1 code) : 2 ≤ ppreDiv code := by
  obtain rfl | rfl := h <;> decide

/-- At 16 MHz no division is needed; at 96 MHz bus 1 is slow (rule R176). -/
theorem State.InitInv.safeBus (hs : s.InitInv) : s.safeBus s.fCore = true := by
  obtain ⟨hcd, hwf, -, hclock, -⟩ := hs
  obtain ⟨⟨h1, h2⟩, -⟩ := Config.closedDefault_buses hcd
  have hd1 := one_le_ppreDiv s.hidden.effPpre1
  have hd2 := one_le_ppreDiv s.hidden.effPpre2
  rw [State.safeBus_iff, h1, h2]
  obtain ⟨-, hf⟩ | ⟨-, hf, -, -, -, -, hslow⟩ := hclock.fCore_cases hcd hwf
  · omega
  · have hd := two_le_ppreDiv hslow
    rw [State.effPpre] at hd
    omega

/-- The PLL is selected only locked and seen locked (rule R177). -/
theorem State.InitInv.safeLock (hs : s.InitInv) : s.safeLock = true := by
  obtain ⟨-, -, -, ⟨-, -, -, hready, -⟩, ⟨hok, -⟩, -⟩ := hs
  refine s.safeLock_iff.mpr ⟨hok, fun hsw => ?_⟩
  obtain ⟨-, hlocked, -⟩ := hready hsw
  exact hlocked

/-- At 16 MHz no wait-state is needed; at 96 MHz three are programmed (rule R178). -/
theorem State.InitInv.safeFlash (hs : s.InitInv) : s.safeFlash s.fCore = true := by
  obtain ⟨hcd, hwf, -, hclock, -⟩ := hs
  obtain ⟨hcore, hfwp⟩ := Config.closedDefault_core hcd
  obtain ⟨hhsi, hfwpHsi⟩ := Config.closedDefault_hsi hcd
  rw [State.safeFlash_iff]
  obtain ⟨-, hf⟩ | ⟨-, hf, -, -, hlat, -⟩ := hclock.fCore_cases hcd hwf
  · exact ⟨0, by rw [hf, ← hhsi, hfwpHsi], Nat.zero_le _⟩
  · exact ⟨3, by rw [hf, ← hcore, hfwp], by rw [hlat]; decide⟩

/-- The internal oscillator is off only while the PLL drives the system clock (rule R179). -/
theorem State.InitInv.safeHsi (hs : s.InitInv) : s.safeHsi = true := by
  obtain ⟨-, -, -, ⟨-, -, -, -, -, hhsi, -⟩, -⟩ := hs
  rw [State.safeHsi_iff]
  rintro ⟨-, hoff, hsws⟩
  exact absurd (hsws.symm.trans (hhsi hoff)) (by decide)

end

/-- Settles O56: the four predicates hold, at either core frequency. -/
theorem bringUpIsSafe : Obligations.BringUpIsSafe := by
  intro s hs
  refine ⟨s.violation_eq_none_iff.mpr ⟨hs.safeBus, hs.safeLock, hs.safeFlash, hs.safeHsi⟩, ?_⟩
  obtain ⟨hcd, hwf, -, hclock, -⟩ := hs
  exact (hclock.fCore_cases hcd hwf).imp And.right fun ⟨_, hf, _⟩ => hf

end Sys2Proof.Machine
end

section

namespace Sys2Proof

/-! ## Delay service: the tick rate -/

/-- `PSC_VAL` fits its field, and the programmed core frequency is `TICK_HZ` times the `PSC_VAL + 1` cycles of one tick
(rules R8, R192). -/
theorem Config.tick_exact {c : Config} (h : c.timerWf = true) :
    c.pscVal < 2 ^ 16 ∧ c.fCore = c.tickHz * (c.pscVal + 1) := by
  simp only [Config.timerWf, Bool.and_eq_true, decide_eq_true_eq] at h
  obtain ⟨⟨⟨⟨⟨-, hmod⟩, hpos, hfit⟩, -⟩, -⟩, -⟩ := h
  refine ⟨hfit, ?_⟩
  rw [Config.pscVal, Nat.sub_add_cancel hpos, Nat.mul_div_cancel' (Nat.dvd_of_mod_eq_zero hmod)]

/-! ## Delay service: the bits of the counter -/

/-- The counter's mask keeps a number modulo `2 ^ CNT_WIDTH`, whatever the width (rule R39). -/
theorem Config.toNat_and_cntMask (c : Config) (x : Word) : (x &&& c.cntMask).toNat = x.toNat % 2 ^ c.cntWidth :=
  calc (x &&& c.cntMask).toNat
      = x.toNat % 2 ^ 32 &&& (2 ^ c.cntWidth - 1) % 2 ^ 32 := by
        rw [BitVec.toNat_and, Config.cntMask, BitVec.toNat_ofNat, Nat.mod_eq_of_lt x.isLt]
    _ = x.toNat % 2 ^ c.cntWidth % 2 ^ 32 := by rw [← Nat.and_mod_two_pow, Nat.and_two_pow_sub_one_eq_mod]
    _ = x.toNat % 2 ^ c.cntWidth := Nat.mod_eq_of_lt ((Nat.mod_le _ _).trans_lt x.isLt)

/-- Counting up adds at most one to what the counter's bits show (rules R39, R78). -/
theorem Config.toNat_succ_and_cntMask_le (c : Config) (x : Word) :
    ((x + 1) &&& c.cntMask).toNat ≤ (x &&& c.cntMask).toNat + 1 := by
  rw [c.toNat_and_cntMask, c.toNat_and_cntMask]
  by_cases htop : x.toNat + 1 = 2 ^ 32
  · have hzero : (x + 1).toNat = 0 := by rw [BitVec.toNat_add]; exact Nat.mod_eq_zero_of_dvd ⟨1, htop⟩
    rw [hzero, Nat.zero_mod]
    exact Nat.zero_le _
  · have hsucc : (x + 1).toNat = x.toNat + 1 := by
      rw [BitVec.toNat_add]
      exact Nat.mod_eq_of_lt (Nat.lt_of_le_of_ne x.isLt htop)
    rw [hsucc, ← Nat.mod_add_mod]
    exact Nat.mod_le _ _

end Sys2Proof

namespace Sys2Proof.Machine

/-- Settles O47: the re-arm takes `TIM_PSC` over and leaves the core's clock. -/
theorem tickRateIsTickHz : Obligations.TickRateIsTickHz := by
  intro s hwf hcore hpsc
  obtain ⟨htimer, -⟩ := s.cfg.wf_parts hwf
  obtain ⟨hfit, hexact⟩ := Config.tick_exact htimer
  have heff : s.rearm.hidden.pscEff.toNat = s.cfg.pscVal := by
    rw [State.rearm_hidden, hpsc, BitVec.toNat_ofNat, Nat.mod_eq_of_lt hfit]
  have htim : s.rearm.fTim = s.cfg.fCore := hcore
  exact ⟨s.cfg.pscVal + 1, by rw [State.tickPeriod, heff, htim], hexact⟩

/-! ## Delay service: the reads of a wait -/

/-- A register never reads more than its stored word (rules R39, R46). -/
theorem State.regRead_toNat_le (s : State) (r : RegId) : (s.regRead r).toNat ≤ (s.regs.get r).toNat := by
  rw [State.regRead, BitVec.toNat_and]
  exact Nat.and_le_left

section

variable {s t : State}

/-- A POLLGE that leaves `upc` has read less than `x[0]`, and did no more than the read (rule R134). -/
theorem exec_pollGe_stays (h : exec (.pollGe .timCnt) s = .next t) (hupc : t.seq.upc = s.seq.upc) :
    (s.regRead .timCnt).toNat < s.seq.us.toNat ∧ t = s.readReg .timCnt := by
  obtain ⟨-, ⟨-, -, rfl⟩ | ⟨hlt, rfl⟩⟩ := execPollGe_next .timCnt s t h
  · simp at hupc
  · exact ⟨Nat.not_le.mp hlt, rfl⟩

/-- A POLLGE that moves `upc` has read at least `x[0]` (rules R134, R196). -/
theorem exec_pollGe_advances (h : exec (.pollGe .timCnt) s = .next t) (hupc : t.seq.upc ≠ s.seq.upc) :
    s.seq.us.toNat ≤ (s.regRead .timCnt).toNat ∧
      t = (s.readReg .timCnt).setSeq { s.seq with rd := s.regRead .timCnt, upc := s.seq.upc + 1#5 } := by
  obtain ⟨-, ⟨hge, -, ht⟩ | ⟨-, rfl⟩⟩ := execPollGe_next .timCnt s t h
  · exact ⟨BitVec.le_def.mp hge, ht⟩
  · exact absurd rfl hupc

end

/-- Settles O12: the read is at most the counter, the counter at most `arr`, and `arr` below `x[0]`. -/
theorem delayBeyondTopHangs : Obligations.DelayBeyondTopHangs := by
  intro s hi htop
  obtain ⟨-, ⟨-, -, -, hle⟩, -⟩ := s.inv_iff.mp hi
  have hlt : (s.regRead .timCnt).toNat < s.seq.us.toNat :=
    calc (s.regRead .timCnt).toNat
        ≤ s.regs.timCnt.toNat := s.regRead_toNat_le .timCnt
      _ ≤ s.hidden.arr.toNat := hle
      _ < s.seq.us.toNat := htop
  exact ⟨s.readReg .timCnt, exec_pollGe_unmet (Nat.not_le.mpr hlt), rfl, rfl, rfl⟩

/-- Settles O58: what the satisfying read shows is at most the counter, which is not ahead of the ticks. -/
theorem delayNeverShort : Obligations.DelayNeverShort := by
  intro s t hi h hupc k hk
  calc s.seq.us.toNat
      ≤ (s.regRead .timCnt).toNat := (exec_pollGe_advances h hupc).1
    _ ≤ s.regs.timCnt.toNat := s.regRead_toNat_le .timCnt
    _ ≤ k := hi k hk

/-! ## Delay service: between two reads of a wait -/

/-- From `s` to `t` only the counter moves: the trace gains the ticks that show `vs`, newest first, and a read of the
counter goes up by no more than their number (rule R78). -/
structure Counted (vs : List Word) (s t : State) : Prop where
  seq : t.seq = s.seq
  events : t.events = vs.map Event.tick ++ s.events
  read : (t.regRead .timCnt).toNat ≤ (s.regRead .timCnt).toNat + vs.length

theorem Counted.refl (s : State) : Counted [] s s := ⟨rfl, rfl, Nat.le_refl _⟩

theorem Counted.trans {vs ws : List Word} {s t u : State} (h : Counted vs s t) (h' : Counted ws t u) :
    Counted (ws ++ vs) s u where
  seq := h'.seq.trans h.seq
  events := by rw [h'.events, h.events, List.map_append, List.append_assoc]
  read := by
    have hread := h.read
    have hread' := h'.read
    rw [List.length_append]
    omega

/-- What a read shows after the counter has taken its next value (rule R78). -/
theorem State.nextCnt_read_le (s : State) :
    (s.nextCnt &&& s.cfg.cntMask).toNat ≤ (s.regRead .timCnt).toNat + 1 := by
  unfold State.nextCnt
  split
  · simp
  · rw [BitVec.and_assoc, BitVec.and_self]
    exact s.cfg.toNat_succ_and_cntMask_le s.regs.timCnt

/-- A move of the counter is one tick where ENV.TICK is enabled and nothing elsewhere (rule R78; log 28). -/
theorem tickStep_counted (s : State) : ∃ vs, Counted vs s s.tickStep := by
  unfold State.tickStep
  split
  · exact ⟨[s.nextCnt], rfl, rfl, s.nextCnt_read_le⟩
  · exact ⟨[], .refl s⟩

/-- Any number of moves of the counter, one after the other. -/
theorem turns_tick_counted {n : Nat} {s t : State} (h : turns .tick n s = .next t) : ∃ vs, Counted vs s t := by
  induction n generalizing s with
  | zero =>
    simp only [turns, Host.Outcome.next.injEq] at h
    exact h ▸ ⟨[], .refl s⟩
  | succ n ih =>
    obtain ⟨vs, hfirst⟩ := tickStep_counted s
    have htail : turns .tick n s.tickStep = .next t := h
    obtain ⟨ws, hrest⟩ := ih htail
    exact ⟨ws ++ vs, hfirst.trans hrest⟩

/-- Ticks before a later read of the same wait are added to its count. -/
theorem ticksPerPollOk_ticks (limit k : Nat) (vs : List Word) (es : List Event) :
    ticksPerPollOk limit (some k) (vs.map Event.tick ++ es) = ticksPerPollOk limit (some (k + vs.length)) es := by
  induction vs generalizing k with
  | nil => rfl
  | cons v vs ih =>
    rw [List.length_cons, Nat.add_comm vs.length 1, ← Nat.add_assoc]
    exact ih (k + 1)

/-- Two reads of the counter with nothing but ticks between are two consecutive reads of one wait, so the premise
bounds the ticks (rule R198). -/
theorem ticks_le_of_ticksPerPollOk {limit : Nat} {later : Option Nat} {v w : Word} {vs : List Word} {es : List Event}
    (h : ticksPerPollOk limit later (.rd .timCnt w :: (vs.map Event.tick ++ .rd .timCnt v :: es)) = true) :
    vs.length ≤ limit := by
  rw [ticksPerPollOk, ticksPerPollOk_ticks, Nat.zero_add, ticksPerPollOk] at h
  simp only [Option.all_some, Bool.and_eq_true, decide_eq_true_eq] at h
  exact h.2.1

/-- Settles O60: the first read is below `x[0]`, and the ticks up to the second, which the premise bounds, bound how far
it is above the first. -/
theorem delayLongByAtMostOnePoll : Obligations.DelayLongByAtMostOnePoll := by
  intro s t u w n hfirst hstay hticks hlast hadvance hok
  obtain ⟨hshort, rfl⟩ := exec_pollGe_stays hfirst hstay
  obtain ⟨hmet, rfl⟩ := exec_pollGe_advances hlast hadvance
  obtain ⟨vs, hcount⟩ := turns_tick_counted hticks
  have hus : u.seq.us = s.seq.us := by rw [hcount.seq]; rfl
  rw [State.setSeq_events, State.readReg_events, hcount.events, State.readReg_events] at hok
  have hbound : vs.length ≤ s.cfg.ticksPerPollMax := ticks_le_of_ticksPerPollOk hok
  have hgain : (u.regRead .timCnt).toNat < u.seq.us.toNat + s.cfg.ticksPerPollMax :=
    calc (u.regRead .timCnt).toNat
        ≤ (s.regRead .timCnt).toNat + vs.length := hcount.read
      _ < s.seq.us.toNat + s.cfg.ticksPerPollMax := Nat.add_lt_add_of_lt_of_le hshort hbound
      _ = u.seq.us.toNat + s.cfg.ticksPerPollMax := by rw [hus]
  exact ⟨hmet, hgain⟩

end Sys2Proof.Machine
end

section

namespace Sys2Proof.Machine

variable {s t : State}

/-! ## The presented command -/

@[simp] theorem State.begun_busy (s : State) : s.begun.busy = s.busy := by simp [State.busy]

/-- Without `cmd_ready` the taking changes nothing (rule R220). -/
theorem takeTurn_held (hr : s.cmdReady = false) : s.takeTurn = .next s := if_neg (ne_true_of_eq_false hr)

/-- No command is ready to be taken while a program runs (rule R220). -/
theorem State.not_cmdReady_of_busy (h : s.busy = true) : s.cmdReady = false :=
  Bool.eq_false_iff.mpr fun hr => by simp [State.not_busy_of_cmdReady hr] at h

/-- At a free port out of reset the word is put there (rule R220). -/
theorem State.presentTurn_free {w : CmdWord} (hr : s.port.rstN = true) (hi : s.port.cmdIn = none) :
    s.presentTurn w = s.setPort { s.port with cmdIn := some w } := if_pos ⟨hr, hi⟩

/-- A word already presented is held (rule R220). -/
theorem State.presentTurn_held {w : CmdWord} (hi : s.port.cmdIn ≠ none) : s.presentTurn w = s :=
  if_neg fun hfree => hi hfree.2

/-- SEQ leaves the presented command: the one micro-op that drives the ports is END, which answers the command that
runs (rule R135). -/
theorem seqTurn_cmdIn (h : s.seqTurn = .next t) : t.port.cmdIn = s.port.cmdIn := by
  obtain ⟨-, rfl⟩ | ⟨-, hx⟩ := seqTurn_next s t h
  · rfl
  obtain ⟨r, a, b, -, he⟩ | ⟨r, b, -, he⟩ | ⟨r, a, b, -, he⟩ | ⟨r, -, he⟩ | ⟨-, he⟩ := hx
  · obtain ⟨-, ⟨-, rfl⟩ | ⟨-, -, rfl⟩⟩ := execRmw_next r a b s t he
    · rfl
    · simp [State.writeReg]
  · obtain ⟨-, -, rfl⟩ := execWr_next r b s t he
    simp [State.writeReg]
  · obtain ⟨-, ⟨-, -, rfl⟩ | ⟨-, rfl⟩⟩ := execPollEq_next r a b s t he
    · rfl
    · simp [State.pollAgain_frame]
  · obtain ⟨-, ⟨-, -, rfl⟩ | ⟨-, rfl⟩⟩ := execPollGe_next r s t he <;> rfl
  · cases he
    rfl

/-- While a program runs a presented command waits through every move but a reset. -/
theorem runTurn_keeps_presented {m : Turn} {w : CmdWord} (h : runTurn m s = .next t) (hb : s.busy = true)
    (hi : s.port.cmdIn = some w) : t.port.cmdIn = some w ∨ ∃ k, m = .resetLow k := by
  obtain ⟨-, h⟩ | ⟨-, h⟩ | ⟨v, rfl⟩ | ⟨k, hm, -⟩ | rfl | ⟨-, -, -, hp, -⟩ := runTurn_cases h
  · exact .inl ((seqTurn_cmdIn h).trans hi)
  · rw [takeTurn_held (State.not_cmdReady_of_busy hb)] at h
    cases h
    exact .inl hi
  · rw [State.presentTurn_held (by simp [hi])]
    exact .inl hi
  · exact .inr ⟨k, hm⟩
  · exact .inl hi
  · exact .inl (hp ▸ hi)

/-- Settles O34: the cases of HOST's move, and the waiting through the one move a step makes. -/
theorem presentedCommandWaits : Obligations.PresentedCommandWaits := by
  refine ⟨fun s w => ⟨fun hr hi => ?_, fun hi => ?_, fun hr => ?_⟩, fun s t w h hb hi => ?_⟩
  · exact congrArg Host.Outcome.next (State.presentTurn_free hr hi)
  · exact congrArg Host.Outcome.next (State.presentTurn_held hi)
  · obtain ⟨-, -, -, -, hreset⟩ := s.presentTurn_frame w
    exact congrArg Host.Outcome.next (hreset hr)
  · obtain ⟨-, m, hrun, hm⟩ := step_move h
    obtain hw | ⟨k, rfl⟩ := runTurn_keeps_presented hrun (by simpa using hb) (by simpa using hi)
    · exact .inl hw
    · exact .inr ⟨k, by simpa using hm⟩

end Sys2Proof.Machine
end

section

namespace Sys2Proof

/-- A core frequency that fits the 32 bits of `resp` is reported as it is (rule R223). -/
theorem Config.reportWord_toNat {c : Config} (h : c.fCore < 2 ^ 32) : c.reportWord.toNat = c.fCore := by
  have hw : c.reportWord = BitVec.ofNat 32 c.fCore := if_pos h
  rw [hw, BitVec.toNat_ofNat, Nat.mod_eq_of_lt h]

/-- A word with none of the three op codes is a reserved command (rule R105). -/
theorem decodeCommand_reserved {w : CmdWord} (h1 : cmdOp w ≠ opInit) (h2 : cmdOp w ≠ opDelay)
    (h3 : cmdOp w ≠ opCpuf) : decodeCommand w = .error .reservedCommand := by
  rw [decodeCommand, if_neg h1, if_neg h2, if_neg h3]

end Sys2Proof

namespace Sys2Proof.Machine

variable {s : State} {arg : Word} {w : CmdWord}

/-! ## The commands, case by case -/

theorem exec_init_initialised (h : s.seq.initDone = true) :
    exec (.init arg) s = .next ((s.accept opInit arg).reject opInit .alreadyInitialised) := if_pos h

theorem exec_init_launch (h : s.seq.initDone = false) (ha : s.accessible = true) :
    exec (.init arg) s = .next ((s.accept opInit arg).setSeq s.initStart) := by
  rw [exec, execInit, if_neg (ne_true_of_eq_false h), State.launch_next_iff]
  exact ⟨ha, rfl⟩

theorem exec_delay_uninitialised (h : s.seq.initDone = false) :
    exec (.delay arg) s = .next ((s.accept opDelay arg).reject opDelay .notInitialised) := if_pos h

theorem exec_delay_launch (h : s.seq.initDone = true) (ha : s.accessible = true) :
    exec (.delay arg) s = .next ((s.accept opDelay arg).setSeq (s.delayStart arg)) := by
  rw [exec, execDelay, if_neg (by simp [h]), State.launch_next_iff]
  exact ⟨ha, rfl⟩

/-- Settles O14: `init_done` decides between the refusal and the launch. -/
theorem initStartsOnce : Obligations.InitStartsOnce :=
  ⟨rfl, fun _ _ => ⟨exec_init_initialised, exec_init_launch⟩⟩

/-- Settles O15: `init_done` decides between the launch and the refusal. -/
theorem delayStartsAfterInit : Obligations.DelayStartsAfterInit :=
  ⟨rfl, fun _ _ => ⟨exec_delay_uninitialised, exec_delay_launch⟩⟩

/-- Settles O17: the response is the configuration's report word. -/
theorem cpufReportsCoreFrequency : Obligations.CpufReportsCoreFrequency :=
  fun _ s => ⟨s.cfg.reportWord, rfl, Config.reportWord_toNat⟩

/-! ## The taking as a step -/

/-- When the configuration is well formed and the state is safe, the step is `nextTurn`'s move from the begun state; of
ENV.DIV's move `step_move` says what is left open. -/
theorem step_eq_runTurn (hwf : s.cfg.wf = true) (hv : s.violation = none) (hdiv : ∀ b, s.nextTurn ≠ .div b) :
    step s = runTurn s.nextTurn s.begun := by
  have hsched : s.endPulse.sched = s.sched := by simp [s.endPulse_frame]
  rw [step, if_pos hwf, hv, State.begun, ← hsched, ← s.nextTurn_endPulse hdiv]
  rfl

theorem step_take (hwf : s.cfg.wf = true) (hv : s.violation = none) (ht : s.nextTurn = .take) :
    step s = s.begun.takeTurn := by
  rw [step_eq_runTurn hwf hv (by simp [ht]), ht]
  rfl

/-- The taking of a reserved command is its refusal (rule R224). -/
theorem takeTurn_reserved (hr : s.cmdReady = true) (hw : s.port.cmdIn = some w)
    (hd : decodeCommand w = .error .reservedCommand) : s.takeTurn = .next (s.rejectReserved w) := by
  simp [State.takeTurn, hr, hw, hd]

/-- Settles O20: the begun state is the statement's, and presents the same command. -/
theorem stepTakesDecodedCommand : Obligations.StepTakesDecodedCommand := by
  intro s w i hwf hv ht hr hw hd
  rw [step_take hwf hv ht]
  exact takeTurn_decoded s.begun w i (by simpa using hr) (by simpa using hw) hd

/-- Settles O18: no command has such an op code, and the refusal changes the ports and the trace only. -/
theorem reservedCommandRefused : Obligations.ReservedCommandRefused := by
  intro s w hwf hv ht hr hw h1 h2 h3
  refine ⟨s.begun.rejectReserved w, ?_, ?_⟩
  · rw [step_take hwf hv ht]
    exact takeTurn_reserved (by simpa using hr) (by simpa using hw) (decodeCommand_reserved h1 h2 h3)
  · simp [State.rejectReserved]

end Sys2Proof.Machine
end

section

namespace Sys2Proof.Machine

variable {s t : State} {m : Turn} {e : Event}

/-! ## What is left while neither SEQ nor the taking of a command has a step -/

/-- An event that the environment puts into the trace (rule R70). -/
def Event.fromEnv : Event → Bool
  | .env _ _ _ => true
  | .tick _ => true
  | .accept _ _ => false
  | .rd _ _ => false
  | .wr _ _ => false
  | .done _ _ => false
  | .refused _ _ => false
  | .fault _ => false

/-- The environment makes no access on the master port (rule R69). -/
theorem Event.busAccess_fromEnv (h : e.fromEnv = true) (c : Config) : busAccess c e = none := by
  cases e with
  | rd | wr => cases h
  | _ => rfl

/-- The trace grows by events of the environment only. -/
def EnvTrace (s t : State) : Prop :=
  ∃ new, t.events = new ++ s.events ∧ ∀ e ∈ new, e.fromEnv = true

theorem EnvTrace.silent (he : t.events = s.events) : EnvTrace s t := ⟨[], he, by simp⟩

theorem EnvTrace.one (he : t.events = e :: s.events) (hf : e.fromEnv = true) : EnvTrace s t :=
  ⟨[e], he, by simpa using hf⟩

/-- An agent's step that either emits one event of the environment or changes nothing. -/
theorem EnvTrace.ifEmit {u : State} {c : Prop} [Decidable c] (he : u.events = s.events) (hf : e.fromEnv = true) :
    EnvTrace s (if c then u.emit e else s) := by
  split
  · exact .one (congrArg _ he) hf
  · exact .silent rfl

theorem hseStep_envTrace (s : State) : EnvTrace s s.hseStep := by
  unfold State.hseStep
  split
  · exact .one rfl rfl
  · exact .ifEmit rfl rfl

theorem divStep_envTrace (s : State) (b : Bus) : EnvTrace s (s.divStep b) := by
  cases b <;> exact .ifEmit rfl rfl

/-- The block waits: the sequencer and `done` stand, and only the environment adds to the trace. -/
structure Waits (s t : State) : Prop where
  seq : t.seq = s.seq
  done : t.port.done = s.port.done
  trace : EnvTrace s t

theorem Waits.refl (s : State) : Waits s s := ⟨rfl, rfl, .silent rfl⟩

/-- A move that leaves the sequencer and the ports, as the environment's do. -/
theorem EnvFrame.waits (h : EnvFrame s t) (he : EnvTrace s t) : Waits s t := by
  obtain ⟨-, -, hseq, hport, -⟩ := h
  exact ⟨hseq, congrArg Port.done hport, he⟩

theorem presentTurn_waits (s : State) (w : CmdWord) : Waits s (s.presentTurn w) := by
  unfold State.presentTurn
  split
  · exact ⟨rfl, rfl, .silent rfl⟩
  · exact .refl s

/-- While neither SEQ nor the taking of a command has a step, the block waits through every move but a reset. -/
theorem runTurn_waits (hseq : s.seqReady = false) (htake : s.cmdReady = false) (h : runTurn m s = .next t) :
    (∃ k, m = .resetLow k) ∨ Waits s t := by
  cases m <;> simp only [runTurn, Host.Outcome.next.injEq] at h
  case resetLow k => exact .inl ⟨k, rfl⟩
  all_goals refine .inr ?_
  case seq =>
    rw [seqTurn_held s hseq] at h
    cases h
    exact .refl s
  case take =>
    rw [takeTurn_held htake] at h
    cases h
    exact .refl s
  case present w => exact h ▸ presentTurn_waits s w
  case hse => exact h ▸ (hseStep_frame s).waits (hseStep_envTrace s)
  case pll => exact h ▸ (pllStep_frame s).waits (.ifEmit rfl rfl)
  case sw => exact h ▸ (swStep_frame s).waits (.ifEmit rfl rfl)
  case hsi => exact h ▸ (hsiStep_frame s).waits (.ifEmit rfl rfl)
  case div b => exact h ▸ (divStep_frame s b).waits (divStep_envTrace s b)
  case tick => exact h ▸ (tickStep_frame s).waits (.ifEmit rfl rfl)
  case halt b => exact h ▸ (haltStep_frame s b).waits (.one rfl rfl)
  case resetHigh => exact h ▸ ⟨rfl, rfl, .silent rfl⟩
  case foreignUg => exact foreignUgTurn_next h ▸ ⟨rfl, rfl, .silent rfl⟩
  case idle => exact h ▸ .refl s

/-! ## FAULT mode -/

/-- The outputs of FAULT mode (rule R244). -/
theorem State.fault_outputs (hf : s.seq.mode = .fault) : s.faultOut = true ∧ s.busy = false ∧ s.cmdReady = false := by
  simp [State.faultOut, State.busy, State.cmdReady, hf]

/-- SEQ has a step only while a program runs (rule R130). -/
theorem State.not_seqReady_of_not_busy (hb : s.busy = false) : s.seqReady = false :=
  Bool.eq_false_iff.mpr fun hr => by simp [State.busy_of_seqReady hr] at hb

/-- Events of the environment show neither an access nor the acceptance of a command. -/
theorem EnvTrace.no_access_no_accept (h : EnvTrace s t) (c : Config) :
    ∃ new, t.events = new ++ s.events ∧ new.filterMap (busAccess c) = [] ∧ ∀ op arg, Event.accept op arg ∉ new := by
  obtain ⟨new, he, hnew⟩ := h
  exact ⟨new, he, List.filterMap_eq_nil_iff.mpr fun e hmem => Event.busAccess_fromEnv (hnew e hmem) c,
    fun op arg hmem => by cases hnew _ hmem⟩

/-- Settles O33: in FAULT mode neither SEQ nor the taking of a command has a step, so the block waits from the begun
state, where the pulse of `done` has ended. -/
theorem faultModeLeftOnlyByReset : Obligations.FaultModeLeftOnlyByReset := by
  intro s t hf h
  obtain ⟨hfault, hbusy, hready⟩ := State.fault_outputs hf
  refine ⟨hfault, hbusy, hready, ?_⟩
  have hseq : s.seqReady = false := State.not_seqReady_of_not_busy hbusy
  obtain ⟨-, m, hrun, hm⟩ := step_move h
  obtain ⟨k, rfl⟩ | hw := runTurn_waits (by simpa using hseq) (by simpa using hready) hrun
  · exact .inl ⟨k, by simpa using hm⟩
  · exact .inr ⟨by simpa using hw.seq, by simpa using hw.done, by simpa using hw.trace.no_access_no_accept s.cfg⟩

end Sys2Proof.Machine
end

section

namespace Sys2Proof.Machine

variable {s : State}

/-! ## A write to the PLL's configuration while the PLL is on -/

/-- While the PLL is on a write to `RCC_PLLCFGR` reaches no bit, so it stores back the word that is held (rule R280; log
14). -/
theorem State.writeReg_pllcfgr_on (hon : s.pllOn = true) (v : Word) :
    s.writeReg .rccPllcfgr v = s.emit (.wr .rccPllcfgr v) := by
  have hheld : s.storedWord .rccPllcfgr v = s.regs.get .rccPllcfgr := s.storedWord_none _ _ (if_pos ⟨rfl, hon⟩)
  rw [State.writeReg, s.regWrite_eq_store _ _ (by decide), State.store, hheld, Regs.set_get]
  rfl

/-- Settles O8: both micro-ops write, and the write only adds its event. -/
theorem pllConfigWriteIgnoredWhileOn : Obligations.PllConfigWriteIgnoredWhileOn := by
  intro a b s hon hu
  refine ⟨⟨_, exec_wr_below rfl hu, ?_⟩, fun hwf hp => ⟨_, exec_rmw_write_below hwf hp hu, ?_⟩⟩
  all_goals
    rw [State.writeReg_pllcfgr_on hon]
    exact ⟨rfl, rfl, rfl, rfl, rfl⟩

end Sys2Proof.Machine
end

section

namespace Sys2Proof

/-- A binding a model accepts has `HSICAL` inside `RCC_CR` (log 27). -/
theorem Bind.hsical_fits {b : Bind} (h : b.wf = true) : b.hsical.fits = true := by
  simp only [Bind.wf, Bool.and_eq_true] at h
  simp only [h]

end Sys2Proof

namespace Sys2Proof.Machine

variable {t : State}

/-! ## Reset -/

/-- Reset values in the sequencer, the registers and the hidden state make a state clean, whatever factory value
`HSICAL` has (rules R31, R45). -/
theorem State.CleanReset.of_reset {hsical : BitVec 8} (hb : t.cfg.bind.wf = true) (hq : t.seq = Seq.reset)
    (hr : t.regs = Regs.reset t.cfg hsical) (hh : t.hidden = Hidden.reset t.cfg) : t.CleanReset := by
  refine ⟨hq, ?_, hh⟩
  have hcal : t.cfg.bind.hsical.get t.regs.rccCr = hsical := by
    rw [hr]
    exact BitField.get_put_same _ (Bind.hsical_fits hb) _ _
  rw [hcal, hr]

/-- Settles O51: the assertion gives the sequencer and the ports their reset values, under which the block is held, and
the release raises `rst_n` only. -/
theorem resetFromAnyState : Obligations.ResetFromAnyState := by
  intro s k hb
  obtain ⟨hseq, htake⟩ := State.held_in_reset (s := s.assertReset k) rfl
  refine ⟨s.assertReset k, (s.assertReset k).releaseReset, rfl, rfl, rfl, rfl, rfl, rfl, rfl, hseq, htake,
    ?blockOnly, ?powerOn, ?system, rfl, rfl, rfl, rfl⟩
  case blockOnly =>
    rintro rfl
    exact ⟨rfl, rfl⟩
  case powerOn =>
    rintro rfl
    exact .of_reset hb rfl rfl rfl
  case system =>
    rintro rfl
    exact ⟨rfl, .of_reset hb rfl rfl rfl⟩

end Sys2Proof.Machine
end

section

namespace Sys2Proof

variable {c : Config}

/-- Putting a field into a word whose bits are clear there adds the encoded value. -/
theorem BitField.put_of_clear {k : Nat} {f : BitField k} {w : Word} (h : w &&& f.mask = 0) (v : BitVec k) :
    f.put v w = w ||| f.enc v := by
  have hw : w &&& ~~~f.mask = w := by
    ext i hi
    have hbit := congrArg (fun z => z.getLsbD i) h
    simpa [hi] using hbit
  rw [BitField.put, hw]

/-- `ARR_RESET` is all ones of the counter's width, whatever the width (rule R7). -/
theorem Config.closedDefault_arrReset (h : c.closedDefault) : c.arrReset = c.cntMask := congrArg Config.arrReset h

/-- The code that step 1 writes to `VOS` (rules R7, R163). -/
theorem Config.closedDefault_vosCode (h : c.closedDefault) : c.vosCode = 3 := congrArg Config.vosCode h

end Sys2Proof

namespace Sys2Proof.Machine

variable {c : Config}

/-- The reset words of the closed default configuration: those of the default binding with the factory value in
`HSICAL` (rules R31, R272). -/
theorem Regs.reset_closedDefault (h : c.closedDefault) (hsical : BitVec 8) :
    Regs.reset c hsical =
      { pwrCr := 0x00008000#32, rccCr := 0x00000083#32 ||| (hsical.setWidth 32 <<< 8)
        rccPllcfgr := 0x24003010#32, rccCfgr := 0, rccAhb1enr := 0, flashAcr := 0, dbgApb1fz := 0, timCr1 := 0
        timCnt := 0, timPsc := 0, vtor := 0 } := by
  obtain ⟨tim, hbind⟩ := Config.closedDefault_bind h
  have hcr : (⟨8⟩ : BitField 8).put hsical 0x83#32 = 0x83#32 ||| (hsical.setWidth 32 <<< 8) :=
    BitField.put_of_clear (by decide) hsical
  have hclear (m : Word) : 0#32 &&& m = 0 := BitVec.zero_and
  simp only [Regs.reset, hbind, Bind.stm32f411, hcr, hclear]
  rfl

/-- The hidden state's reset values in the closed default configuration (rules R7, R43). -/
theorem Hidden.reset_closedDefault (h : c.closedDefault) :
    Hidden.reset c = ⟨0#16, BitVec.ofNat 32 (2 ^ c.cntWidth - 1), false, 0#3, 0#3⟩ := by
  rw [Hidden.reset, Config.closedDefault_arrReset h]
  rfl

/-- `TIM_EGR` reads 0: it stores nothing (rule R38). -/
@[simp] theorem State.regRead_timEgr (s : State) : s.regRead .timEgr = 0 := BitVec.zero_and

/-- Settles O50: the words are the binding's, and the reset code of `VOS` is 2. -/
theorem registerResetWords : Obligations.RegisterResetWords := by
  intro c hsical hcd r hr
  obtain ⟨tim, hbind⟩ := Config.closedDefault_bind hcd
  have hvos : c.bind.vos.get 0x00008000#32 = 2#2 := by rw [hbind]; rfl
  rw [hr, Regs.reset_closedDefault hcd, hvos, (Config.closedDefault_core hcd).1, Config.closedDefault_vosCode hcd]
  exact ⟨rfl, rfl, rfl, rfl, rfl, rfl, rfl, rfl, rfl, rfl, rfl, State.regRead_timEgr _, Hidden.reset_closedDefault hcd,
    by decide⟩

end Sys2Proof.Machine
end
